-- ==== Sys2Proof/Word.lean ====
section
/-! DEFINITION. The word types of the BMDOPE block engine (R13, R14). -/

namespace Sys2Proof

/-- A byte, 0..255 (R13). -/
abbrev Byte := BitVec 8

/-- A register word (R9: every register is one aligned 32-bit word). -/
abbrev Word := BitVec 32

/-- A 16-byte string held by four registers: RK, WK, IV, or one AES block. Byte 0 is the most
significant byte, so word j is the big-endian packing of bytes 4j..4j+3 (R27, R61). -/
abbrev Bytes16 := BitVec 128

end Sys2Proof
end

