-- ==== Sys2Proof/Syntax.lean ====
section
/-! DEFINITION. The commands: one constructor for each of the 13 rows of spec/opcode_table.json. -/

namespace Sys2Proof

/-- A command word, as the assembler syntax of R87 writes it. The operand fields are plain numbers
and flags; `WellFormed` gives their ranges. Every other operand comes from a register (R82). -/
inductive Instr where
  /-- NOP, R103. -/
  | nop
  /-- KEY_INIT, R104. -/
  | keyInit
  /-- KEY_ADV, R105. -/
  | keyAdv
  /-- KEY_CLEAR, R106. -/
  | keyClear
  /-- SPLIT_KEY, R107. -/
  | splitKey
  /-- ROTL8 n, R108: `amount` is IMM8. -/
  | rotl8 (amount : Nat)
  /-- ROTR8 n, R109: `amount` is IMM8. -/
  | rotr8 (amount : Nat)
  /-- ENC_BLOCK N[, adv][, rec], R123. -/
  | encBlock (count : Nat) (adv : Bool) (record : Bool)
  /-- DEC_BLOCK [adv], R124. -/
  | decBlock (adv : Bool)
  /-- MD_CLEAR, R144. -/
  | mdClear
  /-- MD_PUSH len, R145: `len` is IMM8. -/
  | mdPush (len : Nat)
  /-- MD_ENCRYPT, R146. -/
  | mdEncrypt
  /-- MD_DECRYPT, R147. -/
  | mdDecrypt
deriving DecidableEq, Repr

end Sys2Proof
end

