-- ==== Sys2Proof/WellFormed.lean ====
section
/-! DEFINITION. Which command terms have a command word: the operand ranges of R87. -/

namespace Sys2Proof

/-- The operand ranges of the assembler syntax (R87): rotate amounts and length records are 0..255
(IMM8 is 8 bits), a block byte count is 0..7 (N is 3 bits; 5..7 are legal words, R85). -/
def Instr.wellFormed : Instr → Bool
  | .nop => true
  | .keyInit => true
  | .keyAdv => true
  | .keyClear => true
  | .splitKey => true
  | .rotl8 amount => amount ≤ 255
  | .rotr8 amount => amount ≤ 255
  | .encBlock count _ _ => count ≤ 7
  | .decBlock _ => true
  | .mdClear => true
  | .mdPush len => len ≤ 255
  | .mdEncrypt => true
  | .mdDecrypt => true

/-- `i` has a command word. -/
abbrev WellFormed (i : Instr) : Prop := i.wellFormed = true

end Sys2Proof
end

