-- ==== Sys2Proof/Decode.lean ====
section
/-! DEFINITION. Command decoding and encoding (R80 to R87). -/

namespace Sys2Proof

/-! ## Fields (R81) -/

/-- OPC, bits [7:0]. -/
def fieldOpc (w : Word) : Byte := w.extractLsb' 0 8

/-- N, bits [10:8], unsigned. -/
def fieldN (w : Word) : Nat := (w.extractLsb' 8 3).toNat

/-- ADV, bit [12]. -/
def fieldAdv (w : Word) : Bool := w.getLsbD 12

/-- REC, bit [13]. -/
def fieldRec (w : Word) : Bool := w.getLsbD 13

/-- IMM8, bits [23:16], unsigned. -/
def fieldImm8 (w : Word) : Nat := (w.extractLsb' 16 8).toNat

/-! ## The opcode map (R83) -/

/-- One row of the opcode map: the row is selected by `w` exactly when `w & mask = pattern`. -/
structure OpcodeRow where
  pattern : Word
  mask : Word
  build : Word → Instr

/-- The match and mask table of R83, with the fields of each row. -/
def opcodeTable : List OpcodeRow :=
  [ ⟨0x00000000, 0xFFFFFFFF, fun _ => .nop⟩,
    ⟨0x00000001, 0xFFFFFFFF, fun _ => .keyInit⟩,
    ⟨0x00000002, 0xFFFFFFFF, fun _ => .keyAdv⟩,
    ⟨0x00000003, 0xFFFFFFFF, fun _ => .keyClear⟩,
    ⟨0x00000004, 0xFFFFFFFF, fun _ => .splitKey⟩,
    ⟨0x00000005, 0xFF00FFFF, fun w => .rotl8 (fieldImm8 w)⟩,
    ⟨0x00000006, 0xFF00FFFF, fun w => .rotr8 (fieldImm8 w)⟩,
    ⟨0x00000010, 0xFFFFC8FF, fun w => .encBlock (fieldN w) (fieldAdv w) (fieldRec w)⟩,
    ⟨0x00000011, 0xFFFFEFFF, fun w => .decBlock (fieldAdv w)⟩,
    ⟨0x00000020, 0xFFFFFFFF, fun _ => .mdClear⟩,
    ⟨0x00000021, 0xFF00FFFF, fun w => .mdPush (fieldImm8 w)⟩,
    ⟨0x00000022, 0xFFFFFFFF, fun _ => .mdEncrypt⟩,
    ⟨0x00000023, 0xFFFFFFFF, fun _ => .mdDecrypt⟩ ]

/-- `w` selects row `r` (R84). -/
def OpcodeRow.selects (r : OpcodeRow) (w : Word) : Bool := w &&& r.mask == r.pattern

/-! ## Decoding -/

/-- Why a word is no command: the three cases of R84. Each completes with ILLEGAL_COMMAND. -/
inductive DecodeError where
  /-- OPC is none of the table's opcodes (R85). -/
  | unassignedOpcode (opc : Byte)
  /-- Bit 11, bits 15:14 or bits 31:24 are not all zero (R85). -/
  | reservedBit
  /-- A field that this command does not use is not zero (R85). -/
  | unusedField
deriving DecidableEq, Repr

/-- The bits that are reserved for every opcode: 31:24, 15:14 and 11 (R81, R85). -/
def reservedMask : Word := 0xFF00C800

/-- Which case of R84 a word that selects no row falls under. -/
def decodeErrorOf (w : Word) : DecodeError :=
  if opcodeTable.all fun r => fieldOpc w != fieldOpc r.pattern then .unassignedOpcode (fieldOpc w)
  else if w &&& reservedMask != 0 then .reservedBit
  else .unusedField

/-- The decoder (R84), total: every word selects a row or is illegal, with the reason. -/
def decode (w : Word) : Except DecodeError Instr :=
  match opcodeTable.find? fun r => r.selects w with
  | some r => .ok (r.build w)
  | none => .error (decodeErrorOf w)

/-! ## Encoding -/

/-- Assembly (R87): `OPC | N<<8 | ADV<<12 | REC<<13 | IMM8<<16`. -/
def assemble (opc n : Nat) (adv record : Bool) (imm8 : Nat) : Word :=
  BitVec.ofNat 32 opc ||| BitVec.ofNat 32 n <<< 8 ||| BitVec.ofNat 32 adv.toNat <<< 12
    ||| BitVec.ofNat 32 record.toNat <<< 13 ||| BitVec.ofNat 32 imm8 <<< 16

/-- The word of a well-formed command (R83, R87). -/
def encode : Instr → Word
  | .nop => assemble 0x00 0 false false 0
  | .keyInit => assemble 0x01 0 false false 0
  | .keyAdv => assemble 0x02 0 false false 0
  | .keyClear => assemble 0x03 0 false false 0
  | .splitKey => assemble 0x04 0 false false 0
  | .rotl8 amount => assemble 0x05 0 false false amount
  | .rotr8 amount => assemble 0x06 0 false false amount
  | .encBlock count adv record => assemble 0x10 count adv record 0
  | .decBlock adv => assemble 0x11 0 adv false 0
  | .mdClear => assemble 0x20 0 false false 0
  | .mdPush len => assemble 0x21 0 false false len
  | .mdEncrypt => assemble 0x22 0 false false 0
  | .mdDecrypt => assemble 0x23 0 false false 0

/-! ## The table's numbering -/

/-- The 32-bit word whose low `nbits` bits are those of `w` and whose other bits are 0. A command
word has no byte order of its own (R80): it is the value written to CMD. -/
def commandWord (nbits w : Nat) : Word := BitVec.ofNat 32 (w % 2 ^ nbits)

/-- What the decoder reads from the bits `w`, numbered as spec/opcode_table.json numbers them. -/
def decodeTableWord (nbits w : Nat) : Option Instr := (decode (commandWord nbits w)).toOption

end Sys2Proof
end

