-- ==== Sys2Proof/Machine/Bytes.lean ====
section
/-! DEFINITION. Bytes, byte strings and integers (R13, R61). -/

namespace Sys2Proof.Machine

/-- Byte `i` of a 16-byte string; byte 0 is the most significant (R27). -/
def byteAt (v : Bytes16) (i : Nat) : Byte := v.extractLsb' (8 * (15 - i)) 8

/-- Word `j` of a four-word register: bytes 4j..4j+3, big-endian; word 0 is the most significant
(R27, R34). -/
def wordAt (v : Bytes16) (j : Fin 4) : Word := v.extractLsb' (32 * (3 - j.val)) 32

/-- The four-word register with words `w0` (most significant) to `w3` (R27, R34). -/
def ofWords (w0 w1 w2 w3 : Word) : Bytes16 := w0 ++ w1 ++ w2 ++ w3

/-- Replace word `j` (R64: a host writes a multi-word register one word at a time). -/
def setWordAt (v : Bytes16) (j : Fin 4) (w : Word) : Bytes16 :=
  let pick (i : Fin 4) : Word := if i = j then w else wordAt v i
  ofWords (pick 0) (pick 1) (pick 2) (pick 3)

/-- The 16 bytes of the string, byte 0 first. -/
def toBytes (v : Bytes16) : List Byte := (List.range 16).map (byteAt v)

/-- `be(b)`: the big-endian unsigned value of a byte string, 0 of the empty one (R13). -/
def be (bs : List Byte) : Nat := bs.foldl (fun n b => 256 * n + b.toNat) 0

/-- The 16-byte string whose bytes are `bs`. -/
def ofBytes (bs : List Byte) : Bytes16 := BitVec.ofNat 128 (be bs)

/-- The `n`-byte big-endian representation of `v` (R13, R173). -/
def beBytes (n v : Nat) : List Byte :=
  (List.range n).map fun i => BitVec.ofNat 8 (v / 256 ^ (n - 1 - i))

/-- `bitlen(v)`: the number of binary digits of v with no leading zeros, 0 of 0 (R13). -/
def bitlen (v : Nat) : Nat := if v = 0 then 0 else Nat.log2 v + 1

/-- `|minbytes(v)| = ceil(bitlen(v) / 8)` (R13). -/
def minbytesLen (v : Nat) : Nat := (bitlen v + 7) / 8

/-- `minbytes(v)`: the minimal big-endian byte string of v (R13). -/
def minbytes (v : Nat) : List Byte := beBytes (minbytesLen v) v

/-- The four bytes of a register word, most significant first (R61). -/
def wordBytes (w : Word) : List Byte :=
  [w.extractLsb' 24 8, w.extractLsb' 16 8, w.extractLsb' 8 8, w.extractLsb' 0 8]

/-- The register word of four bytes, the first one most significant (R61). -/
def packWord (b0 b1 b2 b3 : Byte) : Word := b0 ++ b1 ++ b2 ++ b3

end Sys2Proof.Machine
end

