-- ==== Sys2Proof/Machine/State.lean ====
section
/-! DEFINITION. The state of the block (R47), the bus events that reach it, and reset (R45). -/

namespace Sys2Proof.Machine

/-- The completion codes of R201: every value STATUS.ERRCODE can take. The reserved codes 7..255
are never produced (I12), so they are no value of this type. -/
inductive ErrorCode where
  /-- 0, success. -/
  | ok
  /-- 1, a key or IV that is not fully supplied. -/
  | invalidKey
  /-- 2, ENC_BLOCK with N in 5..7. -/
  | blockTooLarge
  /-- 3, MD_DECRYPT failed. -/
  | decodeError
  /-- 4, DEC_BLOCK failed. -/
  | decryptionFailure
  /-- 5, no row of the opcode map, or SPLIT_KEY without KEY_READBACK. -/
  | illegalCommand
  /-- 6, the length-record buffer is full. -/
  | mdOverflow
deriving DecidableEq, Repr

/-- What reaches the block in one cycle, in the order the bus delivers it (R66). The offset is
relative to BASE_ADDR (R62); the width is in bytes. -/
inductive BusEvent where
  /-- A host read. -/
  | read (offset width : Nat)
  /-- A host write. -/
  | write (offset width : Nat) (value : Word)
  /-- The external reset input is asserted (R230). -/
  | powerOnReset
  /-- Nothing is delivered in this cycle. -/
  | idle
deriving DecidableEq, Repr

/-- The byte memory of the block, LBUF and MBUF: (window offset, byte) cells (R40, R41). -/
abbrev Memory := List Host.Cell

/-- The complete state of the block: the record of R47, with the latency counter of R43. The last
three fields are the model's own (A1, A8, A3). -/
structure State where
  /-- `R.RK`, RKEY0..3 (R27). -/
  rk : Bytes16
  /-- RKV[3:0], the hidden written flags (R28). -/
  rkv : BitVec 4
  /-- CTRL.RK_LOCK (R24). -/
  rkLock : Bool
  /-- `R.WK`, WKEY0..3 (R29). -/
  wk : Bytes16
  /-- STATUS.WK_VALID (R30). -/
  wkValid : Bool
  /-- `R.IV`, IV0..3 (R31). -/
  iv : Bytes16
  /-- IVV[3:0], the hidden written flags (R31). -/
  ivv : BitVec 4
  /-- BLK (R32). -/
  blk : Word
  /-- BLKLEN[2:0] (R33). -/
  blklen : BitVec 3
  /-- `R.CT`, CT0..3, CT0 most significant (R34). -/
  ct : BitVec 128
  /-- CTLEN[7:0] (R35). -/
  ctlen : BitVec 8
  /-- LBUF at 0x200..0x2FF and MBUF at 0x300..0x3FF (R40, R41). -/
  mem : Memory
  /-- MDCOUNT[7:0] (R36). -/
  mdcount : BitVec 8
  /-- MDLEN[8:0] (R37). -/
  mdlen : BitVec 9
  /-- MDBLOCKS[4:0] (R38). -/
  mdblocks : BitVec 5
  /-- CTRL.IRQ_EN (R24). -/
  irqEn : Bool
  /-- STATUS.BUSY (R25). -/
  busy : Bool
  /-- STATUS.DONE (R25). -/
  done : Bool
  /-- STATUS.ERR (R25). -/
  err : Bool
  /-- STATUS.WERR (R25). -/
  werr : Bool
  /-- STATUS.ERRCODE (R25, R201). -/
  errcode : ErrorCode
  /-- PEND, the word of the command in flight (R43). -/
  pend : Option Word
  /-- The latency counter: cycles left for the command in flight (R43). -/
  cyclesLeft : Nat
  /-- The model's own (A1): bus events delivered and not yet handled, oldest first. -/
  bus : List BusEvent
  /-- The model's own (A8): the word the block returned on the latest bus read. -/
  rdata : Word
  /-- The model's own (A3): how many free draws have been taken. -/
  draws : Nat
deriving DecidableEq, Repr

/-- The state after a power-on reset (R45). -/
def State.reset : State where
  rk := 0
  rkv := 0
  rkLock := false
  wk := 0
  wkValid := false
  iv := 0
  ivv := 0
  blk := 0
  blklen := 0
  ct := 0
  ctlen := 0
  mem := []
  mdcount := 0
  mdlen := 0
  mdblocks := 0
  irqEn := false
  busy := false
  done := false
  err := false
  werr := false
  errcode := .ok
  pend := none
  cyclesLeft := 0
  bus := []
  rdata := 0
  draws := 0

/-- Why the machine stops with a fault. -/
inductive Fault where
  /-- Raised by a bus access at an offset of 1024 or more: it is outside the window and the
  platform's concern (R62, I15). Safe: the model says nothing of what the platform does (A7). -/
  | outsideWindow (offset : Nat)
deriving DecidableEq, Repr

/-- Why an instruction has no meaning. -/
inductive Refusal where
  /-- Raised by an arm of `exec` whose command is not modelled. No arm is: every command of the
  table has its meaning. Safe. -/
  | notModelled (mnemonic : String)
deriving DecidableEq, Repr

end Sys2Proof.Machine
end

