-- ==== Sys2Proof/Config.lean ====
section
/-! DEFINITION. The open parameters (R10, R47): what an implementation fixes, and the free values.
`Config.actual` has no body, so nothing can be proved of a parameter but what its type says. -/

namespace Sys2Proof

open Machine

/-- The parameters of R10 and the source of free draws of R237. -/
structure Config where
  /-- RESHUFFLE: a total function of 16-byte strings; nothing else is known of it (R11, A4). -/
  reshuffle : Bytes16 → Bytes16
  /-- `AES_Enc(K, B)` (R12, A5). -/
  aesEnc : Bytes16 → Bytes16 → Bytes16 := fun _ b => b
  /-- `AES_Dec(K, B)` (R12, A5). -/
  aesDec : Bytes16 → Bytes16 → Bytes16 := fun _ b => b
  /-- KEY_READBACK (R27, R29, R39, R107, A6). -/
  keyReadback : Bool
  /-- CMD_LATENCY less its least value of one cycle, for a command word and the state in which it
  is accepted (R244, A2). -/
  extraLatency : Word → State → Nat
  /-- BASE_ADDR divided by its alignment of 1024 (R65, A14). -/
  basePage : Nat
  /-- The free draws: the word that the n-th read of a result register while busy returns, before
  its reserved bits are cleared (R237, I7, A3). -/
  draw : Nat → Word

/-- A configuration as the spec allows it: the inverse law of AES holds (R12). -/
structure Implementation extends Config where
  /-- `AES_Dec(K, AES_Enc(K, B)) = B` for every K and B (R12). -/
  aesDec_aesEnc : ∀ k b, aesDec k (aesEnc k b) = b := by intros; rfl
deriving Inhabited

/-- The implementation that `step` models. It has no body: every parameter is free. -/
opaque Config.implementation : Implementation

/-- The configuration of the block that `step` models. -/
def Config.actual : Config := Config.implementation.toConfig

/-- CMD_LATENCY: at least one cycle and finite (R10, R244). -/
def Config.latency (c : Config) (w : Word) (s : State) : Nat := c.extraLatency w s + 1

/-- BASE_ADDR: the host bus address of offset 0x000, aligned to 1024 (R10). -/
def Config.baseAddr (c : Config) : Nat := 1024 * c.basePage

/-- ReshuffleMoves, the source's claim that RESHUFFLE never returns its input: a hypothesis that a
claim may take and that no model may build in (R11, R110, I2). -/
def Config.ReshuffleMoves (c : Config) : Prop := ∀ k, c.reshuffle k ≠ k

end Sys2Proof
end

