-- ==== Sys2Proof/Machine/Flags.lean ====
section
/-! DEFINITION. The flags: STATUS, CTRL and the interrupt line (R24, R25, R28, R31, R44, R46). -/

namespace Sys2Proof.Machine

/-- The number of a completion code (R201). -/
def ErrorCode.toByte : ErrorCode → Byte
  | .ok => 0
  | .invalidKey => 1
  | .blockTooLarge => 2
  | .decodeError => 3
  | .decryptionFailure => 4
  | .illegalCommand => 5
  | .mdOverflow => 6

/-- RK_VALID: all four RKEY words have been written since reset (R28). -/
def State.rkValid (s : State) : Bool := s.rkv == 0b1111

/-- IV_VALID: all four IV words have been written since reset (R31). -/
def State.ivValid (s : State) : Bool := s.ivv == 0b1111

/-- The STATUS word (R25), most significant field first. RK_LOCKED mirrors CTRL.RK_LOCK. -/
def State.statusWord (s : State) : Word :=
  (0 : BitVec 16) ++ s.errcode.toByte ++ BitVec.ofBool s.rkLock ++ BitVec.ofBool s.ivValid
    ++ BitVec.ofBool s.wkValid ++ BitVec.ofBool s.rkValid ++ BitVec.ofBool s.werr
    ++ BitVec.ofBool s.err ++ BitVec.ofBool s.done ++ BitVec.ofBool s.busy

/-- The CTRL word (R24); SOFT_RESET and the reserved bits read 0. -/
def State.ctrlWord (s : State) : Word :=
  (0 : BitVec 30) ++ BitVec.ofBool s.rkLock ++ BitVec.ofBool s.irqEn

/-- The interrupt output, a level: `CTRL.IRQ_EN & (STATUS.DONE | STATUS.ERR)` (R46, R206). -/
def State.irq (s : State) : Bool := s.irqEn && (s.done || s.err)

/-- A STATUS write: DONE, ERR and WERR are cleared by writing 1, at any time; the other bits are
ignored (R25). This is also the block's side of a return from interrupt (R208). -/
def State.clearStatus (s : State) (v : Word) : State :=
  { s with
    done := s.done && !v.getLsbD 1
    err := s.err && !v.getLsbD 2
    werr := s.werr && !v.getLsbD 3 }

/-- A host write is dropped: only WERR changes (R204). -/
def State.dropWrite (s : State) : State := { s with werr := true }

end Sys2Proof.Machine
end

