-- ==== Sys2Proof/Machine/Ops.lean ====
section
/-! DEFINITION. The shared operations: the byte memory, completion of a command (the block's only
form of taking an exception), the working key, the length record, reset. -/

namespace Sys2Proof.Machine

/-! ## The byte memory (R40, R41) -/

/-- What a cell that is not listed reads as: the reset contents of LBUF and MBUF (R45, A10). -/
def Memory.unlisted : Byte := 0

/-- The byte at window offset `a`. -/
def Memory.read : Memory → Nat → Byte
  | [], _ => Memory.unlisted
  | (x, b) :: rest, a => if x = a then b else Memory.read rest a

/-- Store one byte. The list stays strictly rising and lists no cell that holds what an unlisted
one reads as. -/
def Memory.write : Memory → Nat → Byte → Memory
  | [], a, v => if v = Memory.unlisted then [] else [(a, v)]
  | (x, b) :: rest, a, v =>
    if x < a then (x, b) :: Memory.write rest a v
    else
      let above := if x = a then rest else (x, b) :: rest
      if v = Memory.unlisted then above else (a, v) :: above

/-- The canonical form: addresses strictly rising, no entry equal to the unlisted byte. -/
def Memory.wf : Memory → Bool
  | [] => true
  | (x, b) :: rest => b != Memory.unlisted && rest.all (fun c => x < c.1) && Memory.wf rest

/-- Store a byte string from offset `a` up. -/
def Memory.writeBytes : Memory → Nat → List Byte → Memory
  | m, _, [] => m
  | m, a, v :: vs => Memory.writeBytes (m.write a v) (a + 1) vs

/-- The `n` bytes from offset `a` up. -/
def Memory.readBytes (m : Memory) (a n : Nat) : List Byte :=
  (List.range n).map fun i => m.read (a + i)

/-- The window word at offset `a`, packed big-endian (R40, R41). -/
def Memory.readWord (m : Memory) (a : Nat) : Word :=
  packWord (m.read a) (m.read (a + 1)) (m.read (a + 2)) (m.read (a + 3))

/-- Store a window word at offset `a` (R41). -/
def Memory.writeWord (m : Memory) (a : Nat) (w : Word) : Memory := m.writeBytes a (wordBytes w)

/-- The window offset of LBUF[0] (R22). -/
def lbufBase : Nat := 0x200

/-- The window offset of MBUF[0] (R22). -/
def mbufBase : Nat := 0x300

/-- The size of LBUF and of MBUF in bytes (R9, R40, R41). -/
def bufBytes : Nat := 256

/-- LBUF[0 .. |bs|-1] <- bs and the rest of LBUF <- 0x00 (R40, R147). -/
def State.setLbuf (s : State) (bs : List Byte) : State :=
  { s with mem := s.mem.writeBytes lbufBase (bs ++ List.replicate (bufBytes - bs.length) 0) }

/-- MBUF[0 .. |bs|-1] <- bs and the rest of MBUF <- 0x00 (R146). -/
def State.setMbuf (s : State) (bs : List Byte) : State :=
  { s with mem := s.mem.writeBytes mbufBase (bs ++ List.replicate (bufBytes - bs.length) 0) }

/-- The length records: LBUF[0 .. MDCOUNT-1] (R40). -/
def State.records (s : State) : List Byte := s.mem.readBytes lbufBase s.mdcount.toNat

/-- The input of MD_DECRYPT: MBUF[0 .. MDLEN-1] (R147). -/
def State.footerInput (s : State) : List Byte := s.mem.readBytes mbufBase s.mdlen.toNat

/-! ## Completion (R202, R203) -/

/-- The STATUS update of every completion with code `code`, and the command latch released (R202).
With a nonzero code it is what the block has in place of taking an exception: no control is
transferred, nothing is saved and no mode changes (R200, R207). -/
def complete (code : ErrorCode) (s : State) : State :=
  { s with
    errcode := code
    err := s.err || code != .ok
    done := true
    busy := false
    pend := none
    cyclesLeft := 0 }

/-- Complete a command whose pseudocode ended in `r`: its state writes are applied on success, and
`raise Error(code)` writes nothing but STATUS (R15, R202, R203). -/
def finish (s : State) (r : Except ErrorCode State) : Host.Outcome State Fault Refusal :=
  .next (match r with
    | .ok t => complete .ok t
    | .error code => complete code s)

/-! ## Acceptance (R26) -/

/-- Accept the command word `w`: latch it, BUSY <- 1, DONE <- 0, and start the latency counter. -/
def accept (w : Word) (cycles : Nat) (s : State) : State :=
  { s with busy := true, done := false, pend := some w, cyclesLeft := cycles }

/-! ## The working key and the length record -/

/-- `R.WK <- RESHUFFLE(R.WK)` (R29, R102). -/
def State.advanceKey (c : Config) (s : State) : State := { s with wk := c.reshuffle s.wk }

/-- `LBUF[MDCOUNT] <- l; MDCOUNT <- MDCOUNT + 1` (R123, R145). -/
def State.pushRecord (l : Byte) (s : State) : State :=
  { s with
    mem := s.mem.write (lbufBase + s.mdcount.toNat) l
    mdcount := s.mdcount + 1 }

/-- LBUF holds MAX_RECORDS = 255 records already (R9, R145). -/
def State.recordsFull (s : State) : Bool := s.mdcount == 255

/-! ## Reset (R230, R231) -/

/-- Every piece of the block's state takes its reset value and any command in flight is aborted
(R231, R232). What is not the block's state stays: the bus events not yet handled, the word last
returned on the bus, and the count of draws (A9). -/
def resetBlock (s : State) : State :=
  { State.reset with bus := s.bus, rdata := s.rdata, draws := s.draws }

end Sys2Proof.Machine
end

