-- ==== Sys2Proof/Machine/Bus.lean ====
section
/-! DEFINITION. The register window and host bus accesses (R22 to R42, R62 to R66, R204, R237). -/

namespace Sys2Proof.Machine

/-! ## The register map (R22) -/

/-- The registers of the window. -/
inductive Reg where
  | id
  | ctrl
  | status
  | cmd
  | rkey (j : Fin 4)
  | wkey (j : Fin 4)
  | iv (j : Fin 4)
  | blk
  | blklen
  | ct (j : Fin 4)
  | ctlen
  | mdcount
  | mdlen
  | mdblocks
  | caps
  /-- The LBUF window word at this window offset (R40). -/
  | lbuf (offset : Nat)
  /-- The MBUF window word at this window offset (R41). -/
  | mbuf (offset : Nat)
  /-- A reserved offset (R42). -/
  | reserved
deriving DecidableEq, Repr

/-- The size of the window in bytes (R9). -/
def windowBytes : Nat := 1024

/-- The register at an aligned offset below `windowBytes` (R22). -/
def regAt (offset : Nat) : Reg :=
  if lbufBase ≤ offset ∧ offset < lbufBase + bufBytes then .lbuf offset
  else if mbufBase ≤ offset ∧ offset < mbufBase + bufBytes then .mbuf offset
  else
    match offset with
    | 0x000 => .id
    | 0x004 => .ctrl
    | 0x008 => .status
    | 0x00C => .cmd
    | 0x010 => .rkey 0
    | 0x014 => .rkey 1
    | 0x018 => .rkey 2
    | 0x01C => .rkey 3
    | 0x020 => .wkey 0
    | 0x024 => .wkey 1
    | 0x028 => .wkey 2
    | 0x02C => .wkey 3
    | 0x030 => .iv 0
    | 0x034 => .iv 1
    | 0x038 => .iv 2
    | 0x03C => .iv 3
    | 0x040 => .blk
    | 0x044 => .blklen
    | 0x050 => .ct 0
    | 0x054 => .ct 1
    | 0x058 => .ct 2
    | 0x05C => .ct 3
    | 0x060 => .ctlen
    | 0x070 => .mdcount
    | 0x074 => .mdlen
    | 0x078 => .mdblocks
    | 0x07C => .caps
    | _ => .reserved

/-- An access is supported when it is 32 bits wide and its offset is a multiple of 4 (R62). -/
def supported (offset width : Nat) : Bool := width == 4 && offset % 4 == 0

/-! ## Reads -/

/-- The identity word (R2, R23). -/
def idWord : Word := 0x424D4407

/-- The capacities word (R39). -/
def capsWord (c : Config) : Word := if c.keyReadback then 0x1FF else 0xFF

/-- A key word as the host sees it: 0 unless KEY_READBACK (R27, R29). -/
def keyWord (c : Config) (k : Bytes16) (j : Fin 4) : Word := if c.keyReadback then wordAt k j else 0

/-- The stored value a register shows (R22 to R42). -/
def readReg (c : Config) (s : State) : Reg → Word
  | .id => idWord
  | .ctrl => s.ctrlWord
  | .status => s.statusWord
  | .cmd => 0
  | .rkey j => keyWord c s.rk j
  | .wkey j => keyWord c s.wk j
  | .iv j => wordAt s.iv j
  | .blk => s.blk
  | .blklen => s.blklen.setWidth 32
  | .ct j => wordAt s.ct j
  | .ctlen => s.ctlen.setWidth 32
  | .mdcount => s.mdcount.setWidth 32
  | .mdlen => s.mdlen.setWidth 32
  | .mdblocks => s.mdblocks.setWidth 32
  | .caps => capsWord c
  | .lbuf offset => s.mem.readWord offset
  | .mbuf offset => s.mem.readWord offset
  | .reserved => 0

/-- For a result register, its bits that are not reserved: while BUSY = 1 a read of it is a free
draw within these bits (R66 item 5, R237, A11). For every other register, none: a read of it is
always the stored value. -/
def drawMask : Reg → Option Word
  | .wkey _ => some 0xFFFFFFFF
  | .blk => some 0xFFFFFFFF
  | .blklen => some 0x7
  | .ct _ => some 0xFFFFFFFF
  | .ctlen => some 0xFF
  | .mdcount => some 0xFF
  | .mdlen => some 0x1FF
  | .mdblocks => some 0x1F
  | .lbuf _ => some 0xFFFFFFFF
  | .mbuf _ => some 0xFFFFFFFF
  | .id => none
  | .ctrl => none
  | .status => none
  | .cmd => none
  | .rkey _ => none
  | .iv _ => none
  | .caps => none
  | .reserved => none

/-- A supported read of a register: the word goes to the bus. Reads have no side effect on the
block (R63); a draw uses up one free value. -/
def readAccess (c : Config) (r : Reg) (s : State) : State :=
  if s.busy then
    match drawMask r with
    | some mask => { s with rdata := c.draw s.draws &&& mask, draws := s.draws + 1 }
    | none => { s with rdata := readReg c s r }
  else { s with rdata := readReg c s r }

/-! ## Writes -/

/-- A write to an input register: dropped with WERR while BUSY = 1 (R66 item 2, R204 case 2). -/
def writeInput (s : State) (t : State) : State := if s.busy then s.dropWrite else t

/-- A CTRL write (R24): bit 31 resets the block at any time (R230, R232) and its other bits are
then ignored; otherwise a busy write is dropped, IRQ_EN takes bit 0 and RK_LOCK can only be set. -/
def writeCtrl (v : Word) (s : State) : State :=
  if v.getLsbD 31 then resetBlock s
  else writeInput s { s with irqEn := v.getLsbD 0, rkLock := s.rkLock || v.getLsbD 1 }

/-- A CMD write (R26): accepted while BUSY = 0, dropped with WERR while BUSY = 1. -/
def writeCmd (c : Config) (v : Word) (s : State) : State :=
  writeInput s (accept v (c.latency v s) s)

/-- An RKEY write (R27, R28): dropped with WERR while BUSY = 1 or RK_LOCK = 1. -/
def writeRkey (j : Fin 4) (v : Word) (s : State) : State :=
  if s.rkLock then s.dropWrite
  else writeInput s { s with rk := setWordAt s.rk j v, rkv := s.rkv ||| 1#4 <<< j.val }

/-- An IV write (R31). -/
def writeIv (j : Fin 4) (v : Word) (s : State) : State :=
  writeInput s { s with iv := setWordAt s.iv j v, ivv := s.ivv ||| 1#4 <<< j.val }

/-- A supported write of a register. Writes to read-only registers, to the LBUF window and to
reserved offsets are ignored without WERR, busy or not (R22, R40, R42, R204). -/
def writeAccess (c : Config) (r : Reg) (v : Word) (s : State) : State :=
  match r with
  | .ctrl => writeCtrl v s
  | .status => s.clearStatus v
  | .cmd => writeCmd c v s
  | .rkey j => writeRkey j v s
  | .iv j => writeIv j v s
  | .blk => writeInput s { s with blk := v }
  | .ct j => writeInput s { s with ct := setWordAt s.ct j v }
  | .mdlen => writeInput s { s with mdlen := v.setWidth 9 }
  | .mbuf offset => writeInput s { s with mem := s.mem.writeWord offset v }
  | .id => s
  | .wkey _ => s
  | .blklen => s
  | .ctlen => s
  | .mdcount => s
  | .mdblocks => s
  | .caps => s
  | .lbuf _ => s
  | .reserved => s

/-! ## Bus events -/

/-- Handle one bus event (R62, R66). An access outside the window is not the block's (I15). -/
def handleEvent (c : Config) (e : BusEvent) (s : State) : Host.Outcome State Fault Refusal :=
  match e with
  | .read offset width =>
    if windowBytes ≤ offset then .fault (.outsideWindow offset)
    else if supported offset width then .next (readAccess c (regAt offset) s)
    else .next { s with rdata := 0 }
  | .write offset width v =>
    if windowBytes ≤ offset then .fault (.outsideWindow offset)
    else if supported offset width then .next (writeAccess c (regAt offset) v s)
    else .next s.dropWrite
  | .powerOnReset => .next (resetBlock s)
  | .idle => .next s

/-- A host access at a bus address, as the block sees it: the offset from BASE_ADDR; none for an
address below the window, which does not reach the block (R15, R62, R65, A14). -/
def offsetOf (c : Config) (addr : Nat) : Option Nat :=
  if c.baseAddr ≤ addr then some (addr - c.baseAddr) else none

/-- `MemRead(addr, 4)` (R15), as the bus event that it is to the block. -/
def memRead (c : Config) (addr : Nat) : Option BusEvent := (offsetOf c addr).map (.read · 4)

/-- `MemWrite(addr, 4, v)` (R15), as the bus event that it is to the block. -/
def memWrite (c : Config) (addr : Nat) (v : Word) : Option BusEvent :=
  (offsetOf c addr).map (.write · 4 v)

end Sys2Proof.Machine
end

