-- ==== Sys2Proof/Machine/Cycle.lean ====
section
/-! DEFINITION. One cycle of the block: either the completion of the command in flight, or one bus
cycle (R26, R66, R205, A1). -/

namespace Sys2Proof.Machine

/-- The command word that completes in this step: the one in flight, when its last cycle is here. -/
def completing (s : State) : Option Word := if s.busy && s.cyclesLeft ≤ 1 then s.pend else none

/-- Complete the command word `w` (R84, R202): run the command it decodes to, or report
ILLEGAL_COMMAND. `run` is the meaning of the commands. -/
def completeWord (run : Instr → State → Host.Outcome State Fault Refusal) (w : Word) (s : State) :
    Host.Outcome State Fault Refusal :=
  match decode w with
  | .ok i => run i s
  | .error _ => .next (complete .illegalCommand s)

/-- One cycle passes for the command in flight (R43). -/
def tick (s : State) : State := { s with cyclesLeft := s.cyclesLeft - 1 }

/-- A cycle in which nothing completes: the oldest bus event, if there is one, is handled (R66). -/
def busCycle (c : Config) (s : State) : Host.Outcome State Fault Refusal :=
  match s.bus with
  | [] => .next (tick s)
  | e :: rest => handleEvent c e { tick s with bus := rest }

/-- One step of a block with configuration `c` whose commands mean `run`. -/
def cycle (c : Config) (run : Instr → State → Host.Outcome State Fault Refusal) (s : State) :
    Host.Outcome State Fault Refusal :=
  match completing s with
  | some w => completeWord run w s
  | none => busCycle c s

/-- `s` with the command word `w` accepted and its last cycle reached, so that the next step
completes it. -/
def withCommand (w : Word) (s : State) : State := accept w 1 s

end Sys2Proof.Machine
end

