-- ==== Sys2Proof/Machine/Operands.lean ====
section
/-! DEFINITION. Operand assembly (R82) and the key parts (R100). -/

namespace Sys2Proof.Machine

/-- The block value of ENC_BLOCK: `BLK[8N-1:0]` for N in 1..4, and 0 for N = 0 (R82, R123). -/
def blockValue (count : Nat) (blk : Word) : Nat := blk.toNat % 2 ^ (8 * count)

/-- BLK[7:0], the operand of the rotations (R108, R109). -/
def blkByte (blk : Word) : Byte := blk.extractLsb' 0 8

/-- KeyParts (R17, R100). `shift3` is derived but never used (R100). -/
structure KeyParts where
  part0 : Word
  part1 : Word
  part2 : Word
  part3 : Word
  shift0 : Nat
  shift1 : Nat
  shift2 : Nat
  shift3 : Nat
deriving DecidableEq, Repr

/-- `split_key` (R100). -/
def splitKey (k : Bytes16) : KeyParts where
  part0 := wordAt k 0
  part1 := wordAt k 1
  part2 := wordAt k 2
  part3 := wordAt k 0 ^^^ wordAt k 1 ^^^ wordAt k 2
  shift0 := (byteAt k 12).toNat % 32
  shift1 := (byteAt k 13).toNat % 32
  shift2 := (byteAt k 14).toNat % 32
  shift3 := (byteAt k 15).toNat % 32

end Sys2Proof.Machine
end

