-- ==== Sys2Proof/Machine/BlockCipher.lean ====
section
/-! DEFINITION. The block cipher commands (`41_block_cipher.md`). -/

namespace Sys2Proof.Machine

/-! ## Functions -/

/-- The value of `E(V, k)`, on unbounded natural numbers: V is increased by each part in turn, and
shifted left after the first three additions (R120). -/
def encryptValue (k : Bytes16) (v : Nat) : Nat :=
  let kp := splitKey k
  let v0 := (v + kp.part0.toNat) * 2 ^ kp.shift0
  let v1 := (v0 + kp.part1.toNat) * 2 ^ kp.shift1
  let v2 := (v1 + kp.part2.toNat) * 2 ^ kp.shift2
  v2 + kp.part3.toNat

/-- One subtraction of D: it fails where the difference would be negative (R122). -/
def subPart (v : Nat) (p : Word) : Option Nat := if v < p.toNat then none else some (v - p.toNat)

/-- `D(C, k)` (R122): the parts are subtracted in reverse order, a floor shift before each but the
first; FAIL (none) on a negative intermediate or a final value of 2^32 or more. -/
def decryptValue (k : Bytes16) (v : Nat) : Option Nat :=
  let kp := splitKey k
  (subPart v kp.part3).bind fun v3 =>
  (subPart (v3 / 2 ^ kp.shift2) kp.part2).bind fun v2 =>
  (subPart (v2 / 2 ^ kp.shift1) kp.part1).bind fun v1 =>
  (subPart (v1 / 2 ^ kp.shift0) kp.part0).bind fun v0 =>
  if 2 ^ 32 ≤ v0 then none else some v0

/-! ## Commands -/

/-- `R.WK <- RESHUFFLE(R.WK)` if ADV (R123, R124). -/
def State.advanceKeyIf (c : Config) (adv : Bool) (s : State) : State :=
  if adv then s.advanceKey c else s

/-- Append the record `l` if REC (R123). -/
def State.pushRecordIf (record : Bool) (l : Byte) (s : State) : State :=
  if record then s.pushRecord l else s

/-- ENC_BLOCK's pseudocode (R123). -/
def encBlock (c : Config) (count : Nat) (adv record : Bool) (s : State) : Except ErrorCode State :=
  if s.wkValid = false then .error .invalidKey
  else if 4 < count then .error .blockTooLarge
  else if record && s.recordsFull then .error .mdOverflow
  else
    let v := encryptValue s.wk (blockValue count s.blk)
    let l : Byte := BitVec.ofNat 8 (bitlen v)
    .ok (({ s with ct := BitVec.ofNat 128 v, ctlen := l }.pushRecordIf record l).advanceKeyIf c adv)

/-- DEC_BLOCK's pseudocode (R124). -/
def decBlock (c : Config) (adv : Bool) (s : State) : Except ErrorCode State :=
  if s.wkValid = false then .error .invalidKey
  else
    match decryptValue s.wk s.ct.toNat with
    | none => .error .decryptionFailure
    | some r =>
      .ok ({ s with
        blk := BitVec.ofNat 32 r
        blklen := BitVec.ofNat 3 (minbytesLen r) }.advanceKeyIf c adv)

/-- ENC_BLOCK (R123). -/
def execEncBlock (count : Nat) (adv record : Bool) (s : State) : Host.Outcome State Fault Refusal :=
  finish s (encBlock Config.actual count adv record s)

/-- DEC_BLOCK (R124). -/
def execDecBlock (adv : Bool) (s : State) : Host.Outcome State Fault Refusal :=
  finish s (decBlock Config.actual adv s)

end Sys2Proof.Machine
end

