-- ==== Sys2Proof/Machine/KeySchedule.lean ====
section
/-! DEFINITION. The key schedule commands (`40_key_schedule.md`). Each command is the function its
pseudocode gives, over a configuration, and `execX` completes it under `Config.actual`. -/

namespace Sys2Proof.Machine

/-! ## Functions -/

/-- `rotate_left` (R101). -/
def rotl8 (x : Byte) (n : Nat) : Byte := x <<< (n % 8) ||| x >>> (8 - n % 8)

/-- `rotate_right` (R101). -/
def rotr8 (x : Byte) (n : Nat) : Byte := x >>> (n % 8) ||| x <<< (8 - n % 8)

/-! ## Commands -/

/-- KEY_INIT's pseudocode (R104). -/
def keyInit (s : State) : Except ErrorCode State :=
  if s.rkValid then .ok { s with wk := s.rk, wkValid := true }
  else .error .invalidKey

/-- KEY_ADV's pseudocode (R105). -/
def keyAdv (c : Config) (s : State) : Except ErrorCode State :=
  if s.wkValid then .ok (s.advanceKey c)
  else .error .invalidKey

/-- KEY_CLEAR's pseudocode (R106). -/
def keyClear (s : State) : Except ErrorCode State := .ok { s with wk := 0, wkValid := false }

/-- SPLIT_KEY's pseudocode (R107); the KEY_READBACK check comes first (R205). -/
def splitKeyCmd (c : Config) (s : State) : Except ErrorCode State :=
  if c.keyReadback = false then .error .illegalCommand
  else if s.wkValid = false then .error .invalidKey
  else
    let kp := splitKey s.wk
    .ok { s with ct := ofWords kp.part0 kp.part1 kp.part2 kp.part3, blk := wordAt s.wk 3 }

/-- ROTL8's pseudocode (R108). -/
def rotl8Cmd (amount : Nat) (s : State) : Except ErrorCode State :=
  .ok { s with blk := (rotl8 (blkByte s.blk) amount).setWidth 32 }

/-- ROTR8's pseudocode (R109). -/
def rotr8Cmd (amount : Nat) (s : State) : Except ErrorCode State :=
  .ok { s with blk := (rotr8 (blkByte s.blk) amount).setWidth 32 }

/-- NOP (R103): no state change, code 0. -/
def execNop (s : State) : Host.Outcome State Fault Refusal := finish s (.ok s)

/-- KEY_INIT (R104). -/
def execKeyInit (s : State) : Host.Outcome State Fault Refusal := finish s (keyInit s)

/-- KEY_ADV (R105). -/
def execKeyAdv (s : State) : Host.Outcome State Fault Refusal := finish s (keyAdv Config.actual s)

/-- KEY_CLEAR (R106). -/
def execKeyClear (s : State) : Host.Outcome State Fault Refusal := finish s (keyClear s)

/-- SPLIT_KEY (R107). -/
def execSplitKey (s : State) : Host.Outcome State Fault Refusal :=
  finish s (splitKeyCmd Config.actual s)

/-- ROTL8 (R108). -/
def execRotl8 (amount : Nat) (s : State) : Host.Outcome State Fault Refusal :=
  finish s (rotl8Cmd amount s)

/-- ROTR8 (R109). -/
def execRotr8 (amount : Nat) (s : State) : Host.Outcome State Fault Refusal :=
  finish s (rotr8Cmd amount s)

end Sys2Proof.Machine
end

