-- ==== Sys2Proof/Machine/MetadataCodec.lean ====
section
/-! DEFINITION. The metadata codec commands (`42_metadata_codec.md`). -/

namespace Sys2Proof.Machine

/-! ## Functions -/

/-- The sentinel byte (R8). -/
def sentinel : Byte := 0xFF

/-- `k`, the number and the value of the pad bytes for `m` records (R140). -/
def padCount (m : Nat) : Nat := (16 - (m + 1) % 16) % 16

/-- The padded length record `P` (R140). -/
def padRecords (records : List Byte) : List Byte :=
  let k := padCount records.length
  records ++ [sentinel] ++ List.replicate k (BitVec.ofNat 8 k)

/-- `nb`, the number of AES blocks of the padded record of `m` records (R140). -/
def footerBlocks (m : Nat) : Nat := (m + 1 + padCount m) / 16

/-- The first `n` 16-byte blocks of a byte string. -/
def takeBlocks : Nat → List Byte → List Bytes16
  | 0, _ => []
  | n + 1, bs => ofBytes (bs.take 16) :: takeBlocks n (bs.drop 16)

/-- The whole 16-byte blocks of a byte string (R143: bytes past the last one are never read). -/
def wholeBlocks (bs : List Byte) : List Bytes16 := takeBlocks (bs.length / 16) bs

/-- CBC encryption (R141): `C_j = AES_Enc(key, P_j ⊕ C_(j-1))`, with `C_0` given. -/
def cbcEncrypt (c : Config) (key : Bytes16) : Bytes16 → List Bytes16 → List Bytes16
  | _, [] => []
  | prev, p :: ps =>
    let ct := c.aesEnc key (p ^^^ prev)
    ct :: cbcEncrypt c key ct ps

/-- `footer(L, key, iv) = rev(C)` (R142). -/
def footer (c : Config) (records : List Byte) (key iv : Bytes16) : List Byte :=
  ((cbcEncrypt c key iv (wholeBlocks (padRecords records))).flatMap toBytes).reverse

/-- The loop of `undo` (R143): decrypt block by block until one holds the sentinel. `acc` is the
plaintext so far and `j` the number of blocks consumed. -/
def undoBlocks (c : Config) (key : Bytes16) :
    Bytes16 → List Byte → Nat → List Bytes16 → Option (List Byte × Nat)
  | _, _, _, [] => none
  | prev, acc, j, ct :: cts =>
    let p := toBytes (c.aesDec key ct ^^^ prev)
    if sentinel ∈ p then some ((acc ++ p).takeWhile (· != sentinel), j + 1)
    else undoBlocks c key ct (acc ++ p) (j + 1) cts

/-- `undo(X, key, iv)` (R143): the records and the number of blocks consumed, or FAIL (none). -/
def undo (c : Config) (x : List Byte) (key iv : Bytes16) : Option (List Byte × Nat) :=
  undoBlocks c key iv [] 0 (wholeBlocks x.reverse)

/-! ## Commands -/

/-- MD_CLEAR's pseudocode (R144). -/
def mdClear (s : State) : Except ErrorCode State :=
  .ok (({ s with mdcount := 0, mdlen := 0, mdblocks := 0 }.setLbuf []).setMbuf [])

/-- MD_PUSH's pseudocode (R145). -/
def mdPush (len : Nat) (s : State) : Except ErrorCode State :=
  if s.recordsFull then .error .mdOverflow
  else .ok (s.pushRecord (BitVec.ofNat 8 len))

/-- MD_ENCRYPT's pseudocode (R146). -/
def mdEncrypt (c : Config) (s : State) : Except ErrorCode State :=
  if (s.rkValid && s.ivValid) = false then .error .invalidKey
  else
    let nb := footerBlocks s.records.length
    .ok { s.setMbuf (footer c s.records s.rk s.iv) with
      mdlen := BitVec.ofNat 9 (16 * nb)
      mdblocks := BitVec.ofNat 5 nb }

/-- MD_DECRYPT's pseudocode (R147). -/
def mdDecrypt (c : Config) (s : State) : Except ErrorCode State :=
  if (s.rkValid && s.ivValid) = false then .error .decodeError
  else if bufBytes < s.mdlen.toNat then .error .decodeError
  else
    match undo c s.footerInput s.rk s.iv with
    | none => .error .decodeError
    | some (recs, nb) =>
      .ok { s.setLbuf recs with
        mdcount := BitVec.ofNat 8 recs.length
        mdblocks := BitVec.ofNat 5 nb }

/-- MD_CLEAR (R144). -/
def execMdClear (s : State) : Host.Outcome State Fault Refusal := finish s (mdClear s)

/-- MD_PUSH (R145). -/
def execMdPush (len : Nat) (s : State) : Host.Outcome State Fault Refusal := finish s (mdPush len s)

/-- MD_ENCRYPT (R146). -/
def execMdEncrypt (s : State) : Host.Outcome State Fault Refusal :=
  finish s (mdEncrypt Config.actual s)

/-- MD_DECRYPT (R147). -/
def execMdDecrypt (s : State) : Host.Outcome State Fault Refusal :=
  finish s (mdDecrypt Config.actual s)

end Sys2Proof.Machine
end

