-- ==== Sys2Proof/Machine/Dispatch.lean ====
section
/-! DEFINITION. The meaning of each command: one arm per row of spec/opcode_table.json. -/

namespace Sys2Proof.Machine

/-- Complete the command `i` in the state `s` (R202). -/
def exec (i : Instr) (s : State) : Host.Outcome State Fault Refusal :=
  match i with
  | .nop => Sys2Proof.Machine.execNop s
  | .keyInit => Sys2Proof.Machine.execKeyInit s
  | .keyAdv => Sys2Proof.Machine.execKeyAdv s
  | .keyClear => Sys2Proof.Machine.execKeyClear s
  | .splitKey => Sys2Proof.Machine.execSplitKey s
  | .rotl8 amount => Sys2Proof.Machine.execRotl8 amount s
  | .rotr8 amount => Sys2Proof.Machine.execRotr8 amount s
  | .encBlock count adv record => Sys2Proof.Machine.execEncBlock count adv record s
  | .decBlock adv => Sys2Proof.Machine.execDecBlock adv s
  | .mdClear => Sys2Proof.Machine.execMdClear s
  | .mdPush len => Sys2Proof.Machine.execMdPush len s
  | .mdEncrypt => Sys2Proof.Machine.execMdEncrypt s
  | .mdDecrypt => Sys2Proof.Machine.execMdDecrypt s

end Sys2Proof.Machine
end

