-- ==== Sys2Proof/Machine/Step.lean ====
section
/-! DEFINITION. The step function, and how a command word is placed for the next step. -/

namespace Sys2Proof.Machine

/-- One step: the completion of the command in flight, or one bus cycle. -/
def step (s : State) : Host.Outcome State Fault Refusal := cycle Config.actual exec s

/-- `s` with the command word of the bits `w` accepted (R26) and its last cycle reached: the next
step completes exactly it (A1). -/
def State.withFetchWord (s : State) (nbits w : Nat) : State := withCommand (commandWord nbits w) s

end Sys2Proof.Machine
end

