-- ==== Sys2Proof/Machine/Orchestrator.lean ====
section
/-! DEFINITION. The host procedures as pure functions (`45_host_orchestration.md`, R170 to R174,
R177 to R179, R182 to R184). They read RK, RESHUFFLE and AES (R171) and take the IV as an argument. -/

namespace Sys2Proof.Machine

/-- The kinds of a host result's error (R170). -/
inductive HostError where
  /-- The source's InvalidKey. -/
  | invalidKey
  /-- The source's BlockTooLarge. -/
  | blockTooLarge
  /-- The source's DecodeError, internal to the codec and always re-wrapped (R209). -/
  | decodeError
  /-- The source's DecryptionFailure. -/
  | decryptionFailure
  /-- The spec's own kind: more than 255 blocks (R182). -/
  | capacityExceeded
deriving DecidableEq, Repr

/-! ## Splitting and packing -/

/-- Cut a byte string whose length is a multiple of 4 into `n` blocks of 4 bytes. -/
def fourByteBlocks : Nat → List Byte → List (List Byte)
  | 0, _ => []
  | n + 1, x => x.take 4 :: fourByteBlocks n (x.drop 4)

/-- Block splitting (R172): the first block has `|x| mod 4` bytes where that is not zero. -/
def splitBlocks (x : List Byte) : List (List Byte) :=
  if x = [] then []
  else
    let f := if x.length % 4 ≠ 0 then x.length % 4 else 4
    x.take f :: fourByteBlocks ((x.length - f) / 4) (x.drop f)

/-- `bitstr(v, l)`: the `l` binary digits of v, most significant first (R13). -/
def bitstr (v l : Nat) : List Bool := (List.range l).map fun i => v.testBit (l - 1 - i)

/-- The integer whose binary digits are `s`, 0 of the empty string (R173, R179). -/
def bitsValue (s : List Bool) : Nat := s.foldl (fun n b => 2 * n + b.toNat) 0

/-- Bit-stream packing (R173): right-aligned in the fewest bytes. -/
def pack (s : List Bool) : List Byte := beBytes ((s.length + 7) / 8) (bitsValue s)

/-! ## encrypt -/

/-- The block loop of `encrypt` (R174): the bit-stream and the length record. -/
def encryptBlocks (c : Config) : Bytes16 → List (List Byte) → List Bool × List Nat
  | _, [] => ([], [])
  | wk, b :: bs =>
    let v := encryptValue wk (be b)
    let rest := encryptBlocks c (c.reshuffle wk) bs
    (bitstr v (bitlen v) ++ rest.1, bitlen v :: rest.2)

/-- The body and the records of the plaintext `x` (R174, steps 1 to 3). -/
def encryptBody (c : Config) (rk : Bytes16) (x : List Byte) : List Byte × List Byte :=
  let r := encryptBlocks c rk (splitBlocks x)
  (pack r.1, r.2.map (BitVec.ofNat 8))

/-- `encrypt(x, iv)` (R174). -/
def encrypt (c : Config) (rk : Bytes16) (x : List Byte) (iv : Bytes16) :
    Except HostError (List Byte) :=
  let (body, lens) := encryptBody c rk x
  if 255 < lens.length then .error .capacityExceeded
  else .ok (body ++ footer c lens rk iv ++ toBytes iv)

/-! ## decrypt -/

/-- The bit-stream of a body of records `lens` (R178): the body has `ceil(S/8)` bytes and its pad
bits are zero. -/
def bodyStream (body : List Byte) (lens : List Byte) : Option (List Bool) :=
  let total := (lens.map BitVec.toNat).sum
  if body.length ≠ (total + 7) / 8 then none
  else
    let t := bitstr (be body) (8 * body.length)
    let q := 8 * body.length - total
    if true ∈ t.take q then none else some (t.drop q)

/-- The block loop of `decrypt` (R179). -/
def decryptBlocks (c : Config) : Bytes16 → List Bool → List Byte → Option (List Byte)
  | _, _, [] => some []
  | wk, stream, l :: ls =>
    if 128 < l.toNat then none
    else
      (decryptValue wk (bitsValue (stream.take l.toNat))).bind fun r =>
      (decryptBlocks c (c.reshuffle wk) (stream.drop l.toNat) ls).map fun out => minbytes r ++ out

/-- The last `n` elements of a list. -/
def takeLast {α : Type} (n : Nat) (l : List α) : List α := l.drop (l.length - n)

/-- The window of the footer search: the last `min(256, |rem|)` bytes (R177). -/
def footerWindow (rem : List Byte) : List Byte := takeLast (min bufBytes rem.length) rem

/-- The body that is left of `rem` when the footer has `nb` blocks (R177). -/
def bodyOf (rem : List Byte) (nb : Nat) : List Byte := rem.take (rem.length - 16 * nb)

/-- `decrypt(ct)` (R177 to R179); none is any of its failures. -/
def decryptBytes (c : Config) (rk : Bytes16) (ct : List Byte) : Option (List Byte) :=
  if ct.length < 16 then none
  else
    let iv := ofBytes (takeLast 16 ct)
    let rem := ct.take (ct.length - 16)
    (undo c (footerWindow rem) rk iv).bind fun (lens, nb) =>
    (bodyStream (bodyOf rem nb) lens).bind fun stream =>
    decryptBlocks c rk stream lens

/-- `decrypt(ct)`: every failure is DecryptionFailure (R182). -/
def decrypt (c : Config) (rk : Bytes16) (ct : List Byte) : Except HostError (List Byte) :=
  match decryptBytes c rk ct with
  | some x => .ok x
  | none => .error .decryptionFailure

/-! ## encrypt_bound and order -/

/-- The bounds of a ciphertext `ct` with the body `body` (R183): the region that is replaced is the
footer and the IV (R184), and a bound that is not wanted is the ciphertext. -/
def boundsOf (wantLower wantUpper : Bool) (body ct : List Byte) : List Byte × List Byte :=
  let f := ct.length - body.length
  (if wantLower then body ++ List.replicate f 0x00 else ct,
   if wantUpper then body ++ List.replicate f 0xFF else ct)

/-- `encrypt_bound(x, want_lower, want_upper, iv)` (R183): an error passes through unchanged. -/
def encryptBound (c : Config) (rk : Bytes16) (x : List Byte) (wantLower wantUpper : Bool)
    (iv : Bytes16) : Except HostError (List Byte × List Byte) :=
  (encrypt c rk x iv).map (boundsOf wantLower wantUpper (encryptBody c rk x).1)

/-- Byte-wise order of byte strings, `a < b` (R18, R176): the first byte that differs decides. The spec
orders only strings of one length and strings that differ at an earlier byte; that a proper prefix comes
before what it is a prefix of is the model's choice (DESIGN CHOICE, A21). -/
def bytesLt : List Byte → List Byte → Bool
  | _, [] => false
  | [], _ :: _ => true
  | a :: as, b :: bs => a.toNat < b.toNat || (a == b && bytesLt as bs)

/-- Byte-wise order of byte strings, `a ≤ b` (R185); a proper prefix as in `bytesLt` (A21). -/
def bytesLe (a b : List Byte) : Bool := !bytesLt b a

end Sys2Proof.Machine
end

