-- ==== Sys2Proof/Machine/HostProgram.lean ====
section
/-! DEFINITION. Host programs (R88, R89): register accesses that drive the block's step, and the
register sequences of encrypt, encrypt_bound and decrypt (R175, R180, R182, R183, R187). -/

namespace Sys2Proof.Machine

/-! ## Programs -/

/-- A host program (R89). Host-side control flow is in the continuations. -/
inductive HostProg (α : Type) where
  /-- The program has ended with this answer. -/
  | done (answer : α)
  /-- `WR`: write the register at `offset`. -/
  | wr (offset : Nat) (value : Word) (next : HostProg α)
  /-- `RD`: read the register at `offset`. -/
  | rd (offset : Nat) (next : Word → HostProg α)
  /-- `WAIT`: read STATUS until BUSY is clear (R88). -/
  | wait (next : HostProg α)

/-- The offset of ID (R22). -/
def offId : Nat := 0x000
/-- The offset of CTRL (R22). -/
def offCtrl : Nat := 0x004
/-- The offset of RKEY0 (R22). -/
def offRkey : Nat := 0x010
/-- The offset of CAPS (R22). -/
def offCaps : Nat := 0x07C
/-- The offset of STATUS (R22). -/
def offStatus : Nat := 0x008
/-- The offset of CMD (R22). -/
def offCmd : Nat := 0x00C
/-- The offset of IV0 (R22). -/
def offIv : Nat := 0x030
/-- The offset of BLK (R22). -/
def offBlk : Nat := 0x040
/-- The offset of BLKLEN (R22). -/
def offBlklen : Nat := 0x044
/-- The offset of CT0 (R22). -/
def offCt : Nat := 0x050
/-- The offset of CTLEN (R22). -/
def offCtlen : Nat := 0x060
/-- The offset of MDCOUNT (R22). -/
def offMdcount : Nat := 0x070
/-- The offset of MDLEN (R22). -/
def offMdlen : Nat := 0x074
/-- The offset of MDBLOCKS (R22). -/
def offMdblocks : Nat := 0x078

/-- A step function. -/
abbrev StepFn := State → Host.Outcome State Fault Refusal

/-- Deliver one bus event to a block that no other agent uses: step until it is handled. A command
whose last cycle is here completes first (A1). -/
def deliver (step : StepFn) (e : BusEvent) (s : State) : Option State :=
  match step { s with bus := [e] } with
  | .next t =>
    if t.bus = [] then some t
    else
      match step t with
      | .next u => some u
      | .fault _ => none
      | .refused _ => none
  | .fault _ => none
  | .refused _ => none

/-- `WAIT` (R88): read STATUS until bit 0 is clear, at most `fuel` times. -/
def waitIdle (step : StepFn) : Nat → State → Option State
  | 0, _ => none
  | fuel + 1, s =>
    (deliver step (.read offStatus 4) s).bind fun t =>
    if t.rdata.getLsbD 0 then waitIdle step fuel t else some t

/-- Run a program on the block. A wait reads STATUS once for each cycle that is left and once more,
which is enough for every latency (R244). None where a step stops. -/
def runProg (step : StepFn) {α : Type} : HostProg α → State → Option (α × State)
  | .done a, s => some (a, s)
  | .wr offset v next, s => (deliver step (.write offset 4 v) s).bind (runProg step next)
  | .rd offset next, s =>
    (deliver step (.read offset 4) s).bind fun t => runProg step (next t.rdata) t
  | .wait next, s => (waitIdle step (s.cyclesLeft + 1) s).bind (runProg step next)

/-- `RUN <cmd>` (R88), after which the host reads STATUS (R175). -/
def runCmd {α : Type} (i : Instr) (next : Word → HostProg α) : HostProg α :=
  .wr offCmd (encode i) (.wait (.rd offStatus next))

/-- Write consecutive registers from `offset` up. -/
def wrWords {α : Type} : Nat → List Word → HostProg α → HostProg α
  | _, [], next => next
  | offset, w :: ws, next => .wr offset w (wrWords (offset + 4) ws next)

/-- Read `n` consecutive registers from `offset` up. -/
def rdWords {α : Type} : Nat → Nat → (List Word → HostProg α) → HostProg α
  | _, 0, next => next []
  | offset, n + 1, next => .rd offset fun w => rdWords (offset + 4) n fun ws => next (w :: ws)

/-- The four register words of a 16-byte string. -/
def words16 (v : Bytes16) : List Word := [wordAt v 0, wordAt v 1, wordAt v 2, wordAt v 3]

/-- STATUS.ERRCODE of a STATUS word (R25). -/
def statusErrcode (st : Word) : Byte := st.extractLsb' 8 8

/-! ## Answers -/

/-- What a register sequence returns: an answer of R170, or the host bug of R182. -/
inductive SeqResult (α : Type) where
  | ok (answer : α)
  | err (kind : HostError)
  /-- WERR was seen, or in encrypt and bound a code that the path cannot report: a fault of the host
  program, not an answer (R182). -/
  | hostBug
deriving DecidableEq, Repr

/-- The map of block codes of encrypt and bound (R182). R182 maps no BLOCK_TOO_LARGE, which cannot occur
there: that it would be Err(BlockTooLarge), and that DECODE_ERROR and DECRYPTION_FAILURE would be a host
bug as ILLEGAL_COMMAND is, is the model's choice (DESIGN CHOICE, A16). -/
def encryptError {α : Type} (code : Byte) : SeqResult α :=
  if code = ErrorCode.invalidKey.toByte then .err .invalidKey
  else if code = ErrorCode.blockTooLarge.toByte then .err .blockTooLarge
  else if code = ErrorCode.mdOverflow.toByte then .err .capacityExceeded
  else .hostBug

/-- The decrypt path's answer to every failure (R182). -/
def decryptError {α : Type} : SeqResult α := .err .decryptionFailure

/-- STATUS.WERR of a STATUS word (R25). A WERR that was 1 before the sequence began is seen like any
other: that it counts as R182's host bug is the model's choice (DESIGN CHOICE, A16). -/
def statusWerr (st : Word) : Bool := st.getLsbD 3

/-- The last step of every sequence, also after an error: RUN KEY_CLEAR (R187) and read STATUS (R175).
WERR seen there is a host bug (R182); KEY_CLEAR itself always completes with code 0 (R106). -/
def lastStep {α : Type} (r : SeqResult α) : HostProg (SeqResult α) :=
  runCmd .keyClear fun st => .done (if statusWerr st then .hostBug else r)

/-- RUN a command and read STATUS: WERR is a host bug (R182), a nonzero code is mapped by `onCode`,
and either ends the sequence with its last step (R175, R180, A16). -/
def checkedRun {α : Type} (onCode : Byte → SeqResult α) (i : Instr)
    (next : HostProg (SeqResult α)) : HostProg (SeqResult α) :=
  runCmd i fun st =>
    if statusWerr st then lastStep .hostBug
    else if statusErrcode st = 0 then next
    else lastStep (onCode (statusErrcode st))

/-- A command of the encrypt and bound path (R175, R182). -/
def encStep {α : Type} (i : Instr) (next : HostProg (SeqResult α)) : HostProg (SeqResult α) :=
  checkedRun encryptError i next

/-- A command of the decrypt path: every code is the one failure (R180, R182). -/
def decStep {α : Type} (i : Instr) (next : HostProg (SeqResult α)) : HostProg (SeqResult α) :=
  checkedRun (fun _ => decryptError) i next

/-- The pseudo-instruction `ENCB <N>` (R88): the per-block encrypt step. -/
def encb (count : Nat) : Instr := .encBlock count true true

/-- The pseudo-instruction `DECB` (R88): the per-block decrypt step. -/
def decb : Instr := .decBlock true

/-! ## Boot (R234) -/

/-- Issue a step of a program only where it is wanted. -/
def optStep {α : Type} (wanted : Bool) (step : HostProg α → HostProg α) (next : HostProg α) :
    HostProg α :=
  if wanted then step next else next

/-- Steps 2 to 4 of R234: load the RootKey (R186), then lock it and enable the interrupt, each only where
it is wanted. That the lock is the CTRL word 2 and the enable the CTRL word 1 is the model's choice: R234
gives the bits and no whole word (DESIGN CHOICE, A20). -/
def bootLoad {α : Type} (rk : Bytes16) (lock irqEnable : Bool) (next : HostProg α) : HostProg α :=
  wrWords offRkey (words16 rk) <|
  optStep lock (.wr offCtrl 0x00000002) <|
  optStep irqEnable (.wr offCtrl 0x00000001) next

/-- The host's steps before the first call, in the order of R234. Step 1, reading ID and CAPS, is issued
only where `identify` says so; that it reads both, and answers what it read, is the model's choice (DESIGN
CHOICE, A20). -/
def bootSeq (identify : Bool) (rk : Bytes16) (lock irqEnable : Bool) :
    HostProg (Option (Word × Word)) :=
  if identify then
    .rd offId fun id =>
    .rd offCaps fun caps =>
    bootLoad rk lock irqEnable (.done (some (id, caps)))
  else bootLoad rk lock irqEnable (.done none)

/-! ## The encrypt sequence (R175) and the bound sequence (R183) -/

/-- The block loop: `s` is the bit-stream so far. -/
def encryptLoop {α : Type} : List (List Byte) → List Bool →
    (List Bool → HostProg (SeqResult α)) → HostProg (SeqResult α)
  | [], s, next => next s
  | b :: bs, s, next =>
    .wr offBlk (BitVec.ofNat 32 (be b)) <|
    encStep (encb b.length) <|
    rdWords offCt 4 fun ct =>
    .rd offCtlen fun l =>
    encryptLoop bs (s ++ bitstr (be (ct.flatMap wordBytes)) l.toNat) next

/-- The register accesses of R175, and then `answer`, the host's arithmetic on the body and the whole
ciphertext. -/
def encryptSeqWith {α : Type} (x : List Byte) (iv : Bytes16) (answer : List Byte → List Byte → α) :
    HostProg (SeqResult α) :=
  wrWords offIv (words16 iv) <|
  encStep .mdClear <|
  encStep .keyInit <|
  encryptLoop (splitBlocks x) [] fun s =>
  encStep .mdEncrypt <|
  .rd offMdlen fun f =>
  rdWords mbufBase (f.toNat / 4) fun ws =>
  lastStep (.ok (answer (pack s) (pack s ++ ws.flatMap wordBytes ++ toBytes iv)))

/-- The encrypt register sequence (R175). -/
def encryptSeq (x : List Byte) (iv : Bytes16) : HostProg (SeqResult (List Byte)) :=
  encryptSeqWith x iv fun _ ct => ct

/-- The register form of encrypt_bound: the encrypt sequence followed by host arithmetic (R183). -/
def boundSeq (x : List Byte) (wantLower wantUpper : Bool) (iv : Bytes16) :
    HostProg (SeqResult (List Byte × List Byte)) :=
  encryptSeqWith x iv (boundsOf wantLower wantUpper)

/-! ## The decrypt sequence (R180) -/

/-- The words that hold a byte string packed big-endian, the last one zero-filled. -/
def packWords : Nat → List Byte → List Word
  | 0, _ => []
  | n + 1, bs =>
    packWord (bs.getD 0 0) (bs.getD 1 0) (bs.getD 2 0) (bs.getD 3 0) :: packWords n (bs.drop 4)

/-- The block loop: `out` is the plaintext so far. -/
def decryptLoop : List Byte → List Bool → List Byte → HostProg (SeqResult (List Byte))
  | [], _, out => lastStep (.ok out)
  | l :: ls, stream, out =>
    if 128 < l.toNat then lastStep decryptError
    else
      wrWords offCt (words16 (BitVec.ofNat 128 (bitsValue (stream.take l.toNat)))) <|
      decStep decb <|
      .rd offBlk fun v =>
      .rd offBlklen fun n =>
      decryptLoop ls (stream.drop l.toNat) (out ++ beBytes n.toNat v.toNat)

/-- The decrypt register sequence (R180). -/
def decryptSeq (ct : List Byte) : HostProg (SeqResult (List Byte)) :=
  if ct.length < 16 then lastStep decryptError
  else
    let rem := ct.take (ct.length - 16)
    let window := footerWindow rem
    wrWords offIv (words16 (ofBytes (takeLast 16 ct))) <|
    wrWords mbufBase (packWords ((window.length + 3) / 4) window) <|
    .wr offMdlen (BitVec.ofNat 32 window.length) <|
    decStep .mdDecrypt <|
    .rd offMdcount fun m =>
    rdWords lbufBase ((m.toNat + 3) / 4) fun ws =>
    .rd offMdblocks fun nb =>
    let lens := (ws.flatMap wordBytes).take m.toNat
    match bodyStream (bodyOf rem nb.toNat) lens with
    | none => lastStep decryptError
    | some stream => decStep .keyInit (decryptLoop lens stream [])

end Sys2Proof.Machine
end

