-- ==== Sys2Proof/Safety.lean ====
section
/-! DEFINITION. What the machine keeps, and what a safe run is. -/

namespace Sys2Proof.Machine

/-- The invariant of the block: what every rule that writes the state keeps. -/
structure Inv (s : State) : Prop where
  /-- The byte memory is in canonical form (A10). -/
  memCanonical : s.mem.wf = true
  /-- Only LBUF and MBUF hold bytes (R40, R41). -/
  memInside : ∀ a, s.mem.read a ≠ 0 → lbufBase ≤ a ∧ a < mbufBase + bufBytes
  /-- LBUF[i] for i >= MDCOUNT reads 0 (R40). -/
  recordsTailZero : ∀ i, s.mdcount.toNat ≤ i → i < bufBytes → s.mem.read (lbufBase + i) = 0
  /-- BLKLEN is 0..4 (R33). -/
  blklenRange : s.blklen.toNat ≤ 4
  /-- CTLEN is 0..127 (R35). -/
  ctlenRange : s.ctlen.toNat ≤ 127
  /-- MDBLOCKS is 0..16 (R38). -/
  mdblocksRange : s.mdblocks.toNat ≤ 16
  /-- A WorkingKey that is not valid is zero (R45, R106). -/
  wkDestroyed : s.wkValid = false → s.wk = 0
  /-- A valid WorkingKey was set by KEY_INIT, from a fully written RootKey (R28, R30, R104). -/
  wkFromRoot : s.wkValid = true → s.rkValid = true
  /-- PEND holds a word exactly while BUSY = 1 (R43). -/
  pendBusy : s.pend.isSome = s.busy
  /-- The latency counter runs exactly while BUSY = 1 (R43, R244). -/
  counterBusy : 1 ≤ s.cyclesLeft ↔ s.busy = true
  /-- Acceptance clears DONE, so DONE = 1 means that no command is in flight (R26, R239). -/
  doneIdle : s.done = true → s.busy = false
  /-- An RKEY word that was not written since reset is zero (R27, R45). -/
  rkUnwritten : ∀ j : Fin 4, s.rkv.getLsbD j = false → wordAt s.rk j = 0
  /-- An IV word that was not written since reset is zero (R31, R45). -/
  ivUnwritten : ∀ j : Fin 4, s.ivv.getLsbD j = false → wordAt s.iv j = 0

/-- A bus event that reaches the block: it is not an access outside the window (R62). -/
def BusEvent.inWindow : BusEvent → Bool
  | .read offset _ => offset < windowBytes
  | .write offset _ _ => offset < windowBytes
  | .powerOnReset => true
  | .idle => true

/-- A bus event that is no reset: neither the reset input nor a write of 1 to CTRL[31] (R230). -/
def BusEvent.noReset : BusEvent → Bool
  | .read _ _ => true
  | .write offset width v => !(supported offset width && regAt offset == .ctrl && v.getLsbD 31)
  | .powerOnReset => false
  | .idle => true

/-- Every bus event that is waiting reaches the block. -/
abbrev BusSafe (s : State) : Prop := ∀ e ∈ s.bus, e.inWindow = true

/-- A safe run: `n` steps, none of which stops. -/
def SafeRun : Nat → State → Prop
  | 0, _ => True
  | n + 1, s => ∃ t, step s = .next t ∧ SafeRun n t

end Sys2Proof.Machine
end

