-- ==== Sys2Proof/Certificates/Slice0/Obligations.lean ====
section
/-! DEFINITION. The statements for the provers. Each docstring names the rules of spec/ that the
statement rests on. A next state is written as the old one with the fields that change, so every
other field, and with it every other byte of memory, is unchanged. -/

open Sys2Proof Sys2Proof.Machine

/-! ## Encoding (30_encoding.md) -/

/-- R83, R87: decoding the word that assembly gives a well-formed command gives the command back,
with every operand at every value. -/
def Obligations.DecodeOfEncode : Prop := ∀ i : Instr, WellFormed i → decode (encode i) = .ok i

/-- R83, R84, R86: a word that decodes is the word of the command it decodes to, and of no other;
so no bit of a legal word is ignored. -/
def Obligations.EncodeOfDecode : Prop :=
  ∀ (w : Word) (i : Instr), decode w = .ok i → WellFormed i ∧ encode i = w

/-- R84: every 32-bit word either selects exactly one row, and decodes by it, or selects none, and
is illegal. -/
def Obligations.EveryWordSelectsOneRowOrIsIllegal : Prop :=
  ∀ w : Word,
    (∃ r ∈ opcodeTable, w &&& r.mask = r.pattern ∧ decode w = .ok (r.build w) ∧
      ∀ q ∈ opcodeTable, w &&& q.mask = q.pattern → q.pattern = r.pattern) ∨
    ((∀ r ∈ opcodeTable, w &&& r.mask ≠ r.pattern) ∧ ∃ e, decode w = .error e)

/-- R85: a word with a reserved bit set or an unassigned opcode is illegal, and so is a command
that does not use a field and has it not zero. -/
def Obligations.ReservedWordsAreIllegal : Prop :=
  (∀ w : Word, w &&& 0xFF00C800 ≠ 0 → ∃ e, decode w = .error e) ∧
  (∀ w : Word, (0x07 ≤ w.toNat % 256 ∧ w.toNat % 256 ≤ 0x0F) ∨
      (0x12 ≤ w.toNat % 256 ∧ w.toNat % 256 ≤ 0x1F) ∨ 0x24 ≤ w.toNat % 256 →
    ∃ e, decode w = .error e) ∧
  (∀ w : Word, w.extractLsb' 16 8 ≠ 0 → w.toNat % 256 ≠ 0x05 → w.toNat % 256 ≠ 0x06 →
    w.toNat % 256 ≠ 0x21 → ∃ e, decode w = .error e) ∧
  (∀ w : Word, w.extractLsb' 8 3 ≠ 0 ∨ w.getLsbD 13 = true → w.toNat % 256 ≠ 0x10 →
    ∃ e, decode w = .error e) ∧
  (∀ w : Word, w.getLsbD 12 = true → w.toNat % 256 ≠ 0x10 → w.toNat % 256 ≠ 0x11 →
    ∃ e, decode w = .error e)

/-- R83, R87 and the examples of R87: words written out from the encoding, and what they stand for. -/
def Obligations.WrittenOutWordsDecode : Prop :=
  decode 0x00000000 = .ok .nop ∧
  decode 0x00003310 = .ok (.encBlock 3 true true) ∧
  decode 0x00000710 = .ok (.encBlock 7 false false) ∧
  decode 0x00001011 = .ok (.decBlock true) ∧
  decode 0x00090005 = .ok (.rotl8 9) ∧
  decode 0x00FF0006 = .ok (.rotr8 255) ∧
  decode 0x00380021 = .ok (.mdPush 56) ∧
  decode 0x00000023 = .ok .mdDecrypt

/-! ## Acceptance, holding and completion (R26, R66, R84, R202, R203) -/

/-- R66 item 3, R84: when the command in flight has reached its last cycle, the step is the meaning
of the command that its word decodes to. -/
def Obligations.StepRunsDecodedCommand : Prop :=
  ∀ (s : State) (w : Word) (i : Instr), s.busy = true → s.cyclesLeft ≤ 1 → s.pend = some w →
    decode w = .ok i → step s = exec i s

/-- R84: a word that matches no row completes with ILLEGAL_COMMAND, and nothing except STATUS and
the command latch is written. -/
def Obligations.IllegalWordCompletesWithCode5 : Prop :=
  ∀ (s : State) (w : Word) (e : DecodeError), s.busy = true → s.cyclesLeft ≤ 1 → s.pend = some w →
    decode w = .error e →
    step s = .next { s with errcode := .illegalCommand, err := true, done := true, busy := false,
                            pend := none, cyclesLeft := 0 }

/-- R26: a CMD write while BUSY = 0 is accepted: the word is latched, BUSY is set, DONE is cleared,
the latency is at least one cycle, and nothing else changes. -/
def Obligations.CommandWriteIsAccepted : Prop :=
  ∀ (s : State) (w : Word) (rest : List BusEvent), s.busy = false →
    s.bus = .write 0x00C 4 w :: rest →
    ∃ n, 1 ≤ n ∧ step s = .next { s with bus := rest, busy := true, done := false,
                                         pend := some w, cyclesLeft := n }

/-- R66 item 2, R236: while BUSY = 1 a bus event that is no reset changes no operand, no result and
nothing of the command in flight, except that a cycle passes. And a cycle in which nothing completes and
nothing is delivered changes nothing but the latency counter, BUSY or not. -/
def Obligations.OperandsAreHeldWhileBusy : Prop :=
  (∀ (s : State) (e : BusEvent) (rest : List BusEvent), s.busy = true → 1 < s.cyclesLeft →
    s.bus = e :: rest → e.inWindow = true → e.noReset = true →
    ∃ t, step s = .next t ∧
      t = { s with bus := rest, cyclesLeft := s.cyclesLeft - 1, done := t.done, err := t.err,
                   werr := t.werr, rdata := t.rdata, draws := t.draws }) ∧
  ∀ s : State, ¬(s.busy = true ∧ s.cyclesLeft ≤ 1) →
    (s.bus = [] → step s = .next { s with cyclesLeft := s.cyclesLeft - 1 }) ∧
    ∀ rest, s.bus = .idle :: rest →
      step s = .next { s with bus := rest, cyclesLeft := s.cyclesLeft - 1 }

/-- R244: every accepted command completes, unless a reset aborts it, whatever else the bus delivers.
That it does so after as many steps as its latency counter says is the model's choice of what a step and
a latency are (log entries 1 and 15). -/
def Obligations.AcceptedCommandCompletes : Prop :=
  ∀ s : State, Inv s → s.busy = true → (∀ e ∈ s.bus, e.inWindow = true ∧ e.noReset = true) →
    ∃ t : State, Sys2Proof.core.run s.cyclesLeft s = .next t ∧ t.busy = false ∧ t.done = true ∧
      t.pend = none

/-- R202: what every completion writes in STATUS, and what no completion changes: WERR, CTRL, the
RootKey and IV with their written flags, the bus, and WK_VALID but for KEY_INIT and KEY_CLEAR. -/
def Obligations.CompletionWritesStatus : Prop :=
  ∀ (s t : State) (w : Word), s.busy = true → s.cyclesLeft ≤ 1 → s.pend = some w →
    step s = .next t →
    t.done = true ∧ t.busy = false ∧ t.pend = none ∧ t.cyclesLeft = 0 ∧
    (t.err = true ↔ s.err = true ∨ t.errcode ≠ .ok) ∧
    t.werr = s.werr ∧ t.irqEn = s.irqEn ∧ t.rkLock = s.rkLock ∧ t.rk = s.rk ∧ t.rkv = s.rkv ∧
    t.iv = s.iv ∧ t.ivv = s.ivv ∧ t.bus = s.bus ∧ t.rdata = s.rdata ∧ t.draws = s.draws ∧
    (t.wkValid ≠ s.wkValid → decode w = .ok .keyInit ∨ decode w = .ok .keyClear)

/-- R203: a failing command is precise: it writes nothing except STATUS and the command latch. -/
def Obligations.FailingCommandIsPrecise : Prop :=
  ∀ (s t : State) (w : Word), s.busy = true → s.cyclesLeft ≤ 1 → s.pend = some w →
    step s = .next t → t.errcode ≠ .ok →
    t = { s with errcode := t.errcode, err := true, done := true, busy := false, pend := none,
                 cyclesLeft := 0 }

/-! ## Key schedule commands (40_key_schedule.md) -/

/-- R103: NOP is the word 0, changes no state but what a completion with code 0 writes, and after
reset leaves STATUS = 2. -/
def Obligations.NopCompletesAndChangesNothing : Prop :=
  decode 0x00000000 = .ok .nop ∧
  (∀ w : Word, decode w = .ok .nop → w = 0) ∧
  (∀ s : State, exec .nop s = .next { s with errcode := .ok, done := true, busy := false,
                                             pend := none, cyclesLeft := 0 }) ∧
  (∃ t : State, step (withCommand 0 State.reset) = .next t ∧ t.statusWord = 0x00000002)

/-- R104: KEY_INIT with a fully written RootKey copies it to the WorkingKey and makes it valid. -/
def Obligations.KeyInitCopiesRootKey : Prop :=
  ∀ s : State, s.rkValid = true →
    exec .keyInit s = .next { s with wk := s.rk, wkValid := true, errcode := .ok, done := true,
                                     busy := false, pend := none, cyclesLeft := 0 }

/-- R105: KEY_ADV with a valid WorkingKey replaces it by RESHUFFLE of it; it stays valid. -/
def Obligations.KeyAdvReshufflesWorkingKey : Prop :=
  ∀ s : State, s.wkValid = true →
    exec .keyAdv s = .next { s with wk := Config.actual.reshuffle s.wk, errcode := .ok,
                                    done := true, busy := false, pend := none, cyclesLeft := 0 }

/-- R106: KEY_CLEAR is the word 3; in every state it zeroes the WorkingKey and makes it invalid, and
touches nothing else; after it ENC_BLOCK 1 completes with INVALID_KEY. -/
def Obligations.KeyClearDestroysWorkingKey : Prop :=
  decode 0x00000003 = .ok .keyClear ∧
  (∀ s : State, exec .keyClear s =
    .next { s with wk := 0, wkValid := false, errcode := .ok, done := true, busy := false,
                   pend := none, cyclesLeft := 0 }) ∧
  (∀ s t : State, exec .keyClear s = .next t →
    ∃ u, exec (.encBlock 1 false false) t = .next u ∧ u.errcode = .invalidKey)

/-- R107: SPLIT_KEY with a valid WorkingKey puts its parts into CT and its four raw shift bytes into
BLK where KEY_READBACK is true, and completes with ILLEGAL_COMMAND where it is false. -/
def Obligations.SplitKeyExposesKeyParts : Prop :=
  ∀ s : State, s.wkValid = true →
    exec .splitKey s = .next (if Config.actual.keyReadback = true
      then { s with
        ct := ofWords (wordAt s.wk 0) (wordAt s.wk 1) (wordAt s.wk 2)
          (wordAt s.wk 0 ^^^ wordAt s.wk 1 ^^^ wordAt s.wk 2)
        blk := wordAt s.wk 3
        errcode := .ok, done := true, busy := false, pend := none, cyclesLeft := 0 }
      else { s with errcode := .illegalCommand, err := true, done := true, busy := false,
                    pend := none, cyclesLeft := 0 })

/-- R100, R61: split_key in terms of the key's bytes, in every key: the parts are the big-endian
values of bytes 0..11, part 3 is their exclusive or byte by byte, and a shift is a byte mod 32. -/
def Obligations.SplitKeyIsOfTheKeyBytes : Prop :=
  ∀ k : Bytes16,
    (splitKey k).part0.toNat = be ((toBytes k).take 4) ∧
    (splitKey k).part1.toNat = be (((toBytes k).drop 4).take 4) ∧
    (splitKey k).part2.toNat = be (((toBytes k).drop 8).take 4) ∧
    (∀ i, i < 4 → (wordBytes (splitKey k).part3).getD i 0 =
      byteAt k i ^^^ byteAt k (4 + i) ^^^ byteAt k (8 + i)) ∧
    (splitKey k).shift0 = ((toBytes k).getD 12 0).toNat % 32 ∧
    (splitKey k).shift1 = ((toBytes k).getD 13 0).toNat % 32 ∧
    (splitKey k).shift2 = ((toBytes k).getD 14 0).toNat % 32 ∧
    (splitKey k).shift3 = ((toBytes k).getD 15 0).toNat % 32

/-- R101, R108, R109: ROTL8 n moves bit i of BLK[7:0] to bit (i + n) mod 8 and ROTR8 n moves bit
(i + n) mod 8 to bit i, for every n; BLK[31:8] become 0, and nothing else changes. -/
def Obligations.RotationsMoveTheBits : Prop :=
  ∀ (s : State) (n : Nat),
    (∃ t, exec (.rotl8 n) s = .next t ∧
      (∀ i, i < 8 → t.blk.getLsbD ((i + n) % 8) = s.blk.getLsbD i) ∧ t.blk.toNat < 256 ∧
      t = { s with blk := t.blk, errcode := .ok, done := true, busy := false, pend := none,
                   cyclesLeft := 0 }) ∧
    (∃ t, exec (.rotr8 n) s = .next t ∧
      (∀ i, i < 8 → t.blk.getLsbD i = s.blk.getLsbD ((i + n) % 8)) ∧ t.blk.toNat < 256 ∧
      t = { s with blk := t.blk, errcode := .ok, done := true, busy := false, pend := none,
                   cyclesLeft := 0 })

/-- R109, R110: ROTL8 n followed by ROTR8 n restores BLK[7:0] and zeroes BLK[31:8]. -/
def Obligations.RotationsUndoEachOther : Prop :=
  ∀ (s : State) (n : Nat), ∃ t u, exec (.rotl8 n) s = .next t ∧ exec (.rotr8 n) t = .next u ∧
    u.blk = s.blk &&& 0xFF

/-! ## Block cipher commands (41_block_cipher.md) -/

/-- R120, R123: a successful ENC_BLOCK puts the closed form of E into CT and its exact bit length
into CTLEN; with REC it appends the bit length at LBUF[MDCOUNT]; with ADV it advances the
WorkingKey; every other byte of memory and every other field is as before. -/
def Obligations.EncBlockResult : Prop :=
  ∀ (s : State) (count : Nat) (adv record : Bool), s.mem.wf = true → s.wkValid = true →
    count ≤ 4 → (record = true → s.mdcount ≠ 255) →
    ∃ t, exec (.encBlock count adv record) s = .next t ∧
      (let p0 := (wordAt s.wk 0).toNat
       let p1 := (wordAt s.wk 1).toNat
       let p2 := (wordAt s.wk 2).toNat
       let p3 := (wordAt s.wk 0 ^^^ wordAt s.wk 1 ^^^ wordAt s.wk 2).toNat
       let s0 := (byteAt s.wk 12).toNat % 32
       let s1 := (byteAt s.wk 13).toNat % 32
       let s2 := (byteAt s.wk 14).toNat % 32
       t.ct.toNat = (s.blk.toNat % 2 ^ (8 * count) + p0) * 2 ^ (s0 + s1 + s2)
         + p1 * 2 ^ (s1 + s2) + p2 * 2 ^ s2 + p3) ∧
      t.ct.toNat < 2 ^ t.ctlen.toNat ∧
      (t.ct ≠ 0 → 2 ^ (t.ctlen.toNat - 1) ≤ t.ct.toNat) ∧
      (t.ct = 0 → t.ctlen = 0) ∧
      t.wk = (if adv then Config.actual.reshuffle s.wk else s.wk) ∧
      t.mdcount.toNat = s.mdcount.toNat + record.toNat ∧
      (∀ a, t.mem.read a =
        if record = true ∧ a = lbufBase + s.mdcount.toNat then t.ctlen else s.mem.read a) ∧
      (record = false → t.mem = s.mem) ∧
      t = { s with ct := t.ct, ctlen := t.ctlen, wk := t.wk, mdcount := t.mdcount, mem := t.mem,
                   errcode := .ok, done := true, busy := false, pend := none, cyclesLeft := 0 }

/-- R124: a DEC_BLOCK whose CT the inverse D takes to v puts v into BLK and the length of its minimal
byte form into BLKLEN; with ADV it advances the WorkingKey; nothing else changes. -/
def Obligations.DecBlockResult : Prop :=
  ∀ (s : State) (adv : Bool) (v : Nat), s.wkValid = true →
    decryptValue s.wk s.ct.toNat = some v →
    ∃ t, exec (.decBlock adv) s = .next t ∧ t.blk.toNat = v ∧ t.blklen.toNat ≤ 4 ∧
      v < 256 ^ t.blklen.toNat ∧ (v ≠ 0 → 256 ^ (t.blklen.toNat - 1) ≤ v) ∧
      (v = 0 → t.blklen = 0) ∧
      t = { s with blk := t.blk, blklen := t.blklen,
                   wk := if adv then Config.actual.reshuffle s.wk else s.wk,
                   errcode := .ok, done := true, busy := false, pend := none, cyclesLeft := 0 }

/-- R122: D over the integers: subtract and floor-shift with no check, and fail exactly when the end
is negative or 2^32 or more; checking each step gives the same verdict. -/
def Obligations.DecryptValueChecksOnlyTheEnd : Prop :=
  ∀ (k : Bytes16) (c : Nat),
    let kp := splitKey k
    let v3 : Int := (c : Int) - kp.part3.toNat
    let v2 : Int := v3 / (2 ^ kp.shift2 : Nat) - kp.part2.toNat
    let v1 : Int := v2 / (2 ^ kp.shift1 : Nat) - kp.part1.toNat
    let v0 : Int := v1 / (2 ^ kp.shift0 : Nat) - kp.part0.toNat
    decryptValue k c = if 0 ≤ v0 ∧ v0 < 2 ^ 32 then some v0.toNat else none

/-- R121: the width, the largest value, the strict order, the zero values and the identity case
of E. -/
def Obligations.EncryptValueRangeAndOrder : Prop :=
  ∀ k : Bytes16,
    (∀ v, v < 2 ^ 32 → encryptValue k v < 2 ^ 127 ∧ bitlen (encryptValue k v) ≤ 127 ∧
      encryptValue k v ≤ 0x4000000000000000400000007FFFFFFF) ∧
    encryptValue 0xFFFFFFFFFFFFFFFFFFFFFFFF1F1F1F00 0xFFFFFFFF =
      0x4000000000000000400000007FFFFFFF ∧
    (∀ v, encryptValue k (v + 1) = encryptValue k v +
      2 ^ ((splitKey k).shift0 + (splitKey k).shift1 + (splitKey k).shift2)) ∧
    (∀ v v', v < v' → encryptValue k v < encryptValue k v') ∧
    (∀ v, encryptValue k v = 0 ↔
      v = 0 ∧ (splitKey k).part0 = 0 ∧ (splitKey k).part1 = 0 ∧ (splitKey k).part2 = 0) ∧
    (∀ v, encryptValue k v = 0 → (splitKey k).part3 = 0) ∧
    (∀ v, bitlen (encryptValue k v) = 0 ↔ encryptValue k v = 0) ∧
    (k &&& (~~~ 0xFF : Bytes16) = 0 → ∀ v, encryptValue k v = v)

/-- R124, R125: D undoes E under every key, no CT of 2^127 or more decrypts under any key, and CT = 0
fails whenever part 3 is not 0. -/
def Obligations.DecryptValueUndoesEncryptValue : Prop :=
  (∀ (k : Bytes16) (v : Nat), v < 2 ^ 32 → decryptValue k (encryptValue k v) = some v) ∧
  (∀ (k : Bytes16) (c : Nat), 2 ^ 127 ≤ c → decryptValue k c = none) ∧
  (∀ k : Bytes16, (splitKey k).part3 ≠ 0 → decryptValue k 0 = none)

/-- R125: ENC_BLOCK followed by DEC_BLOCK under the same WorkingKey gives back BLK's low 8N bits as a
value, and BLKLEN is the length of its minimal byte form. -/
def Obligations.EncThenDecRestoresBlock : Prop :=
  ∀ (s : State) (count : Nat) (adv record : Bool), s.wkValid = true → count ≤ 4 →
    (record = true → s.mdcount ≠ 255) →
    ∃ t u, exec (.encBlock count false record) s = .next t ∧
      exec (.decBlock adv) t = .next u ∧ u.errcode = .ok ∧
      u.blk.toNat = s.blk.toNat % 2 ^ (8 * count) ∧
      u.blklen.toNat = minbytesLen (s.blk.toNat % 2 ^ (8 * count)) ∧
      u.blklen.toNat ≤ count

/-! ## Metadata codec commands (42_metadata_codec.md) -/

/-- R144: MD_CLEAR is the word 0x20; it zeroes MDCOUNT, MDLEN, MDBLOCKS and every byte of LBUF and MBUF,
in every state, and leaves every other byte and field. -/
def Obligations.MdClearZeroesTheBuffers : Prop :=
  decode 0x00000020 = .ok .mdClear ∧
  ∀ s : State, s.mem.wf = true →
    ∃ t, exec .mdClear s = .next t ∧
      (∀ a, t.mem.read a =
        if lbufBase ≤ a ∧ a < mbufBase + bufBytes then 0 else s.mem.read a) ∧
      t = { s with mem := t.mem, mdcount := 0, mdlen := 0, mdblocks := 0, errcode := .ok,
                   done := true, busy := false, pend := none, cyclesLeft := 0 }

/-- R145: MD_PUSH with room stores its record at LBUF[MDCOUNT] and counts it; every other byte of
memory and every other field is unchanged. -/
def Obligations.MdPushAppendsOneRecord : Prop :=
  ∀ (s : State) (len : Nat), s.mem.wf = true → len ≤ 255 → s.mdcount ≠ 255 →
    ∃ t, exec (.mdPush len) s = .next t ∧
      t.mdcount.toNat = s.mdcount.toNat + 1 ∧
      (t.mem.read (lbufBase + s.mdcount.toNat)).toNat = len ∧
      (∀ a, a ≠ lbufBase + s.mdcount.toNat → t.mem.read a = s.mem.read a) ∧
      t = { s with mem := t.mem, mdcount := t.mdcount, errcode := .ok, done := true,
                   busy := false, pend := none, cyclesLeft := 0 }

/-- R146: MD_ENCRYPT with RK and IV valid writes the footer of the records into MBUF, zeroes the rest
of MBUF, and sets MDLEN and MDBLOCKS; LBUF, MDCOUNT and everything else are unchanged. -/
def Obligations.MdEncryptWritesTheFooter : Prop :=
  ∀ s : State, s.mem.wf = true → s.rkValid = true → s.ivValid = true →
    ∃ t, exec .mdEncrypt s = .next t ∧
      (let nb := s.mdcount.toNat / 16 + 1
       let f := footer Config.actual s.records s.rk s.iv
       f.length = 16 * nb ∧ t.mdlen.toNat = 16 * nb ∧ t.mdblocks.toNat = nb ∧
       (∀ a, t.mem.read a =
         if mbufBase ≤ a ∧ a < mbufBase + bufBytes then f.getD (a - mbufBase) 0
         else s.mem.read a)) ∧
      t = { s with mem := t.mem, mdlen := t.mdlen, mdblocks := t.mdblocks, errcode := .ok,
                   done := true, busy := false, pend := none, cyclesLeft := 0 }

/-- R147: MD_DECRYPT of a footer that decodes writes the records into LBUF, zeroes the rest of LBUF,
and sets MDCOUNT and MDBLOCKS; MBUF, MDLEN and everything else are unchanged. -/
def Obligations.MdDecryptWritesTheRecords : Prop :=
  ∀ (s : State) (recs : List Byte) (nb : Nat), s.mem.wf = true → s.rkValid = true →
    s.ivValid = true → s.mdlen.toNat ≤ 256 →
    undo Config.actual s.footerInput s.rk s.iv = some (recs, nb) →
    ∃ t, exec .mdDecrypt s = .next t ∧ recs.length ≤ 255 ∧ 1 ≤ nb ∧ nb ≤ 16 ∧
      t.mdcount.toNat = recs.length ∧ t.mdblocks.toNat = nb ∧
      (∀ a, t.mem.read a =
        if lbufBase ≤ a ∧ a < lbufBase + bufBytes then recs.getD (a - lbufBase) 0
        else s.mem.read a) ∧
      t = { s with mem := t.mem, mdcount := t.mdcount, mdblocks := t.mdblocks, errcode := .ok,
                   done := true, busy := false, pend := none, cyclesLeft := 0 }

/-- R140: the shape of the padded record: the records, the sentinel, then k pad bytes of value k,
none of them the sentinel; a whole number of 16-byte blocks, ceil((m + 1) / 16) of them. -/
def Obligations.PaddedRecordShape : Prop :=
  ∀ records : List Byte,
    let k := (16 - (records.length + 1) % 16) % 16
    padRecords records = records ++ [0xFF] ++ List.replicate k (BitVec.ofNat 8 k) ∧ k ≤ 15 ∧
    (padRecords records).length = 16 * footerBlocks records.length ∧
    footerBlocks records.length = (records.length + 1 + 15) / 16 ∧
    (k = 0 ↔ 16 ∣ records.length + 1) ∧ BitVec.ofNat 8 k ≠ (0xFF : Byte)

/-- R141, R142: the CBC equations, both ways, for every configuration with the inverse law of AES; and the
footer in terms of its own bytes: read backwards, its 16-byte blocks are the CBC encryption of the padded
record, which is written out from R140. -/
def Obligations.CbcEquationsAndFooterBytes : Prop :=
  (∀ (c : Implementation) (key iv : Bytes16) (ps : List Bytes16),
    let cs := cbcEncrypt c.toConfig key iv ps
    cs.length = ps.length ∧
    ∀ j, j < ps.length →
      cs.getD j 0 = c.aesEnc key (ps.getD j 0 ^^^ (iv :: cs).getD j 0) ∧
      ps.getD j 0 = c.aesDec key (cs.getD j 0) ^^^ (iv :: cs).getD j 0) ∧
  ∀ (c : Config) (records : List Byte) (key iv : Bytes16),
    let k := (16 - (records.length + 1) % 16) % 16
    let p := records ++ [0xFF] ++ List.replicate k (BitVec.ofNat 8 k)
    let nb := (records.length + 1 + k) / 16
    let f := footer c records key iv
    let block (bytes : List Byte) (j : Nat) : Bytes16 := ofBytes ((bytes.drop (16 * j)).take 16)
    f.length = 16 * nb ∧
    ∀ j, j < nb → block f.reverse j =
      c.aesEnc key (block p j ^^^ if j = 0 then iv else block f.reverse (j - 1))

/-- R142, R143, R148: decoding a footer gives the records back when none is the sentinel, consuming
every block, and the records before the first 255 otherwise. -/
def Obligations.FooterRoundTrip : Prop :=
  ∀ (c : Implementation) (records : List Byte) (key iv : Bytes16),
    ((0xFF : Byte) ∉ records →
      undo c.toConfig (footer c.toConfig records key iv) key iv =
        some (records, footerBlocks records.length)) ∧
    ∃ nb, undo c.toConfig (footer c.toConfig records key iv) key iv =
      some (records.takeWhile (· != 0xFF), nb)

/-- R143: what decoding answers on EVERY input: it decrypts the whole 16-byte blocks of the reversed
input in order, stops at the first one that holds 0xFF, answers what stands before the first 0xFF and how
many blocks it took, whatever stands after it, and fails exactly when no whole block holds 0xFF; so the
bytes before the whole blocks are ignored. -/
def Obligations.UndoOnEveryInput : Prop :=
  (∀ (c : Config) (x : List Byte) (key iv : Bytes16),
    let block (j : Nat) : Bytes16 := ofBytes ((x.reverse.drop (16 * j)).take 16)
    let plain (j : Nat) : List Byte :=
      toBytes (c.aesDec key (block j) ^^^ if j = 0 then iv else block (j - 1))
    (undo c x key iv = none ↔ ∀ j, j < x.length / 16 → (0xFF : Byte) ∉ plain j) ∧
    ∀ j, j < x.length / 16 → (0xFF : Byte) ∈ plain j → (∀ i, i < j → (0xFF : Byte) ∉ plain i) →
      undo c x key iv =
        some (((List.range (j + 1)).flatMap plain).takeWhile (· != 0xFF), j + 1)) ∧
  ∀ (c : Config) (junk x : List Byte) (key iv : Bytes16), junk.length < 16 → 16 ∣ x.length →
    undo c (junk ++ x) key iv = undo c x key iv

/-- R148 through the registers: MD_ENCRYPT followed by MD_DECRYPT under the same RK and IV leaves in
LBUF the records before the first 255, which are all of them when none is 255. -/
def Obligations.MdEncryptThenMdDecrypt : Prop :=
  ∀ s : State, Inv s → s.rkValid = true → s.ivValid = true →
    ∃ t u, exec .mdEncrypt s = .next t ∧ exec .mdDecrypt t = .next u ∧ u.errcode = .ok ∧
      u.records = s.records.takeWhile (· != 0xFF)

/-! ## Errors (60_exceptions.md) -/

/-- R201, R205, with the checks of R104, R105, R107, R123, R124, R145 to R147: every error of every
command, each in every state that no earlier check of R205 turns away; SPLIT_KEY without KEY_READBACK
is illegal first. A failing command leaves what `failed` says. -/
def Obligations.ErrorsAndTheirOrder : Prop :=
  ∀ s : State,
    let failed (code : ErrorCode) : State :=
      { s with errcode := code, err := true, done := true, busy := false, pend := none,
               cyclesLeft := 0 }
    (s.rkValid = false → exec .keyInit s = .next (failed .invalidKey)) ∧
    (s.wkValid = false → exec .keyAdv s = .next (failed .invalidKey) ∧
      exec .splitKey s = .next (failed
        (if Config.actual.keyReadback = true then .invalidKey else .illegalCommand)) ∧
      (∀ count adv record, exec (.encBlock count adv record) s = .next (failed .invalidKey)) ∧
      ∀ adv, exec (.decBlock adv) s = .next (failed .invalidKey)) ∧
    (s.rkValid = false ∨ s.ivValid = false →
      exec .mdEncrypt s = .next (failed .invalidKey) ∧
      exec .mdDecrypt s = .next (failed .decodeError)) ∧
    (s.wkValid = true →
      (∀ count adv record, 4 < count →
        exec (.encBlock count adv record) s = .next (failed .blockTooLarge)) ∧
      (∀ count adv, count ≤ 4 → s.mdcount = 255 →
        exec (.encBlock count adv true) s = .next (failed .mdOverflow)) ∧
      (∀ adv, decryptValue s.wk s.ct.toNat = none →
        exec (.decBlock adv) s = .next (failed .decryptionFailure))) ∧
    (s.mdcount = 255 → ∀ len, exec (.mdPush len) s = .next (failed .mdOverflow)) ∧
    (s.rkValid = true → s.ivValid = true →
      (256 < s.mdlen.toNat → exec .mdDecrypt s = .next (failed .decodeError)) ∧
      (s.mdlen.toNat < 16 → exec .mdDecrypt s = .next (failed .decodeError)) ∧
      (undo Config.actual s.footerInput s.rk s.iv = none →
        exec .mdDecrypt s = .next (failed .decodeError)))

/-- R200: nothing a command does stops the block, and no bus event inside the window does: every run
of every length from a state whose waiting bus events are inside the window goes on. -/
def Obligations.BlockNeverStops : Prop := ∀ (n : Nat) (s : State), BusSafe s → SafeRun n s

/-- R46, R206, R208: the line is high exactly when IRQ_EN and one of DONE and ERR are 1, in particular with
ERR alone; every completion, of an illegal word too, raises it exactly when IRQ_EN is set; accepting a
command leaves it high only for ERR; and a STATUS write, BUSY or not, lowers it by the DONE and ERR bits
it clears. -/
def Obligations.InterruptFollowsCompletion : Prop :=
  (∀ s : State, s.irq = true ↔ s.irqEn = true ∧ (s.done = true ∨ s.err = true)) ∧
  (∀ (i : Instr) (s t : State), exec i s = .next t → t.irq = s.irqEn) ∧
  (∀ (s t : State) (w : Word), s.busy = true → s.cyclesLeft ≤ 1 → s.pend = some w →
    step s = .next t → t.irq = s.irqEn) ∧
  (∀ (s t : State) (w : Word) (rest : List BusEvent), s.busy = false →
    s.bus = .write 0x00C 4 w :: rest → step s = .next t →
    (t.irq = true ↔ s.irqEn = true ∧ s.err = true)) ∧
  (∀ (s : State) (v : Word) (rest : List BusEvent), ¬(s.busy = true ∧ s.cyclesLeft ≤ 1) →
    s.bus = .write 0x008 4 v :: rest →
    ∃ t, step s = .next t ∧ t.irqEn = s.irqEn ∧
      (t.irq = true ↔ s.irqEn = true ∧
        ((s.done = true ∧ v.getLsbD 1 = false) ∨ (s.err = true ∧ v.getLsbD 2 = false))))

/-! ## The register window (10_state.md, 20_memory.md) -/

/-- R25, R28, R31, R201: the layout of the STATUS word; the numbers of the completion codes; and RK_VALID is
1 exactly when all four RKEY words have been written, IV_VALID exactly when all four IV words have, so a
key or an IV written in part is not valid. -/
def Obligations.StatusWordLayout : Prop :=
  ∀ s : State,
    s.statusWord.getLsbD 0 = s.busy ∧ s.statusWord.getLsbD 1 = s.done ∧
    s.statusWord.getLsbD 2 = s.err ∧ s.statusWord.getLsbD 3 = s.werr ∧
    s.statusWord.getLsbD 4 = s.rkValid ∧ s.statusWord.getLsbD 5 = s.wkValid ∧
    s.statusWord.getLsbD 6 = s.ivValid ∧ s.statusWord.getLsbD 7 = s.rkLock ∧
    s.statusWord.extractLsb' 8 8 = s.errcode.toByte ∧ s.statusWord.toNat < 2 ^ 16 ∧
    (s.rkValid = true ↔ ∀ j : Fin 4, s.rkv.getLsbD j.val = true) ∧
    (s.ivValid = true ↔ ∀ j : Fin 4, s.ivv.getLsbD j.val = true) ∧
    ErrorCode.ok.toByte = 0 ∧ ErrorCode.invalidKey.toByte = 1 ∧
    ErrorCode.blockTooLarge.toByte = 2 ∧ ErrorCode.decodeError.toByte = 3 ∧
    ErrorCode.decryptionFailure.toByte = 4 ∧ ErrorCode.illegalCommand.toByte = 5 ∧
    ErrorCode.mdOverflow.toByte = 6

/-- R25: a STATUS write clears the DONE, ERR and WERR bits it has a 1 for, at any time, BUSY or not,
and changes nothing else. -/
def Obligations.StatusWriteClearsOnes : Prop :=
  ∀ (s : State) (v : Word) (rest : List BusEvent), ¬(s.busy = true ∧ s.cyclesLeft ≤ 1) →
    s.bus = .write 0x008 4 v :: rest →
    ∃ t, step s = .next t ∧
      (t.done = true ↔ s.done = true ∧ v.getLsbD 1 = false) ∧
      (t.err = true ↔ s.err = true ∧ v.getLsbD 2 = false) ∧
      (t.werr = true ↔ s.werr = true ∧ v.getLsbD 3 = false) ∧
      t = { s with bus := rest, cyclesLeft := s.cyclesLeft - 1, done := t.done, err := t.err,
                   werr := t.werr }

/-- R24: a CTRL write without bit 31 while BUSY = 0 sets IRQ_EN to bit 0 and RK_LOCK if bit 1 is 1
(writing 0 does not clear it), and changes nothing else; while BUSY = 1 it is dropped with WERR. -/
def Obligations.ControlWrite : Prop :=
  ∀ (s : State) (v : Word) (rest : List BusEvent), ¬(s.busy = true ∧ s.cyclesLeft ≤ 1) →
    s.bus = .write 0x004 4 v :: rest → v.getLsbD 31 = false →
    step s = .next (if s.busy = true
      then { s with bus := rest, cyclesLeft := s.cyclesLeft - 1, werr := true }
      else { s with bus := rest, cyclesLeft := s.cyclesLeft - 1, irqEn := v.getLsbD 0,
                    rkLock := s.rkLock || v.getLsbD 1 })

/-- R62: an access of another width or alignment reads 0 without effect, or is a dropped write that
sets WERR. That this is so for every register and while BUSY = 1, so that such a read of a busy result
register is 0 and no draw, is read from R62 by inference and is the model's choice (log entry 18); so is
the fault at 1024 or more, where R62 leaves the access to the platform (log entry 7). -/
def Obligations.UnsupportedAccess : Prop :=
  ∀ (s : State) (offset width : Nat) (v : Word) (rest : List BusEvent),
    ¬(s.busy = true ∧ s.cyclesLeft ≤ 1) →
    (offset < 1024 → width ≠ 4 ∨ ¬ 4 ∣ offset →
      (s.bus = .read offset width :: rest →
        step s = .next { s with bus := rest, cyclesLeft := s.cyclesLeft - 1, rdata := 0 }) ∧
      (s.bus = .write offset width v :: rest →
        step s = .next { s with bus := rest, cyclesLeft := s.cyclesLeft - 1, werr := true })) ∧
    (1024 ≤ offset →
      (s.bus = .read offset width :: rest → step s = .fault (.outsideWindow offset)) ∧
      (s.bus = .write offset width v :: rest → step s = .fault (.outsideWindow offset)))

/-- R204, R22, R40, R42: the only cases in which a write sets WERR; and a supported write to a read-only
register, to the LBUF window or to a reserved offset changes nothing, BUSY or not. That an unsupported
write sets WERR also at read-only and reserved offsets, at STATUS and at CTRL with bit 31 set is read from
R62 and case 5 of R204 by inference and is the model's choice (log entry 18). -/
def Obligations.WriteErrorCases : Prop :=
  ∀ (s : State) (offset width : Nat) (v : Word) (rest : List BusEvent),
    ¬(s.busy = true ∧ s.cyclesLeft ≤ 1) → offset < 1024 →
    s.bus = .write offset width v :: rest →
    ∃ t, step s = .next t ∧
      (s.werr = false →
        (t.werr = true ↔
          (width ≠ 4 ∨ ¬ 4 ∣ offset) ∨
          (s.busy = true ∧ (offset = 0x00C ∨ (0x010 ≤ offset ∧ offset < 0x020) ∨
            (0x030 ≤ offset ∧ offset < 0x044) ∨ (0x050 ≤ offset ∧ offset < 0x060) ∨
            offset = 0x074 ∨ 0x300 ≤ offset)) ∨
          (s.busy = true ∧ offset = 0x004 ∧ v.getLsbD 31 = false) ∨
          (s.rkLock = true ∧ 0x010 ≤ offset ∧ offset < 0x020)) ∧
        (t.werr = true → t = { s with bus := rest, cyclesLeft := s.cyclesLeft - 1, werr := true })) ∧
      (width = 4 → 4 ∣ offset →
        offset = 0x000 ∨ (0x020 ≤ offset ∧ offset < 0x030) ∨ (0x044 ≤ offset ∧ offset < 0x050) ∨
          (0x060 ≤ offset ∧ offset < 0x074) ∨ (0x078 ≤ offset ∧ offset < 0x300) →
        t = { s with bus := rest, cyclesLeft := s.cyclesLeft - 1 })

/-- R63: a read has no side effect: it changes only what the model holds of the bus itself. -/
def Obligations.ReadsHaveNoSideEffect : Prop :=
  ∀ (s : State) (offset width : Nat) (rest : List BusEvent),
    ¬(s.busy = true ∧ s.cyclesLeft ≤ 1) → offset < 1024 → s.bus = .read offset width :: rest →
    ∃ t, step s = .next t ∧
      t = { s with bus := rest, cyclesLeft := s.cyclesLeft - 1, rdata := t.rdata,
                   draws := t.draws }

/-- R22 to R42, R66, R237: what a read of every offset of the window returns. ID, CTRL, STATUS, CMD, RKEY,
IV, CAPS and the reserved offsets show the stored word at all times; the result registers show it while
BUSY = 0 (RKEY and WKEY 0 without KEY_READBACK), and while BUSY = 1 a read of one is a draw within the bits
that are not reserved. That the draws are numbered and one is used up by each read is the model's form of
a free value (log entry 3); that WKEY is drawn also without KEY_READBACK is its reading of R237 (log entry
11). -/
def Obligations.ReadsReturnStoredWordOrDraw : Prop :=
  ∀ (s : State) (rest : List BusEvent), ¬(s.busy = true ∧ s.cyclesLeft ≤ 1) →
    let shows (offset : Nat) (v : Word) : Prop :=
      step { s with bus := .read offset 4 :: rest } =
        .next { s with bus := rest, cyclesLeft := s.cyclesLeft - 1, rdata := v }
    let draws (offset : Nat) (mask : Word) : Prop :=
      step { s with bus := .read offset 4 :: rest } =
        .next { s with bus := rest, cyclesLeft := s.cyclesLeft - 1,
                       rdata := Config.actual.draw s.draws &&& mask, draws := s.draws + 1 }
    let word (v : Bytes16) (j : Fin 4) : Word := v.extractLsb' (96 - 32 * j.val) 32
    let key (v : Bytes16) (j : Fin 4) : Word :=
      if Config.actual.keyReadback = true then word v j else 0
    shows 0x000 0x424D4407 ∧
    shows 0x004 (BitVec.ofNat 32 (s.irqEn.toNat + 2 * s.rkLock.toNat)) ∧
    shows 0x008 s.statusWord ∧
    shows 0x00C 0 ∧
    (∀ j : Fin 4, shows (0x010 + 4 * j.val) (key s.rk j)) ∧
    (∀ j : Fin 4, shows (0x030 + 4 * j.val) (word s.iv j)) ∧
    shows 0x07C (if Config.actual.keyReadback = true then 0x1FF else 0xFF) ∧
    (∀ offset, 4 ∣ offset → offset = 0x048 ∨ offset = 0x04C ∨ (0x064 ≤ offset ∧ offset ≤ 0x06C) ∨
      (0x080 ≤ offset ∧ offset ≤ 0x1FC) → shows offset 0) ∧
    (s.busy = false →
      (∀ j : Fin 4, shows (0x020 + 4 * j.val) (key s.wk j)) ∧
      shows 0x040 s.blk ∧
      shows 0x044 (BitVec.ofNat 32 s.blklen.toNat) ∧
      (∀ j : Fin 4, shows (0x050 + 4 * j.val) (word s.ct j)) ∧
      shows 0x060 (BitVec.ofNat 32 s.ctlen.toNat) ∧
      shows 0x070 (BitVec.ofNat 32 s.mdcount.toNat) ∧
      shows 0x074 (BitVec.ofNat 32 s.mdlen.toNat) ∧
      shows 0x078 (BitVec.ofNat 32 s.mdblocks.toNat) ∧
      ∀ offset, 4 ∣ offset → 0x200 ≤ offset → offset ≤ 0x3FC →
        shows offset (s.mem.read offset ++ s.mem.read (offset + 1) ++ s.mem.read (offset + 2)
          ++ s.mem.read (offset + 3))) ∧
    (s.busy = true →
      (∀ j : Fin 4, draws (0x020 + 4 * j.val) 0xFFFFFFFF) ∧
      draws 0x040 0xFFFFFFFF ∧
      draws 0x044 0x00000007 ∧
      (∀ j : Fin 4, draws (0x050 + 4 * j.val) 0xFFFFFFFF) ∧
      draws 0x060 0x000000FF ∧
      draws 0x070 0x000000FF ∧
      draws 0x074 0x000001FF ∧
      draws 0x078 0x0000001F ∧
      ∀ offset, 4 ∣ offset → 0x200 ≤ offset → offset ≤ 0x3FC → draws offset 0xFFFFFFFF)

/-- R27, R31, R32, R34, R37, R41: an idle write of an RKEY (not locked), IV, BLK, CT, MDLEN or MBUF word
stores it (an RKEY or IV write also sets its own written flag) and leaves every other word and flag, every
other byte of memory and every other field; and a read after an IV, BLK, CT, MDLEN or MBUF write returns
what was written (its low 9 bits for MDLEN). -/
def Obligations.RegisterWritesStoreAndReadBack : Prop :=
  (∀ (s : State) (v : Word) (rest : List BusEvent), s.mem.wf = true → s.busy = false →
    let after (offset : Nat) (p : State → Prop) : Prop :=
      ∃ t, step { s with bus := .write offset 4 v :: rest } = .next t ∧ p t
    let word (x : Bytes16) (j : Fin 4) : Word := x.extractLsb' (96 - 32 * j.val) 32
    (s.rkLock = false → ∀ j : Fin 4, after (0x010 + 4 * j.val) fun t =>
      (∀ i : Fin 4, word t.rk i = if i = j then v else word s.rk i) ∧
      (∀ i : Fin 4, t.rkv.getLsbD i = (i == j || s.rkv.getLsbD i)) ∧
      t = { s with bus := rest, cyclesLeft := s.cyclesLeft - 1, rk := t.rk, rkv := t.rkv }) ∧
    (∀ j : Fin 4, after (0x030 + 4 * j.val) fun t =>
      (∀ i : Fin 4, word t.iv i = if i = j then v else word s.iv i) ∧
      (∀ i : Fin 4, t.ivv.getLsbD i = (i == j || s.ivv.getLsbD i)) ∧
      t = { s with bus := rest, cyclesLeft := s.cyclesLeft - 1, iv := t.iv, ivv := t.ivv }) ∧
    (after 0x040 fun t => t = { s with bus := rest, cyclesLeft := s.cyclesLeft - 1, blk := v }) ∧
    (∀ j : Fin 4, after (0x050 + 4 * j.val) fun t =>
      (∀ i : Fin 4, word t.ct i = if i = j then v else word s.ct i) ∧
      t = { s with bus := rest, cyclesLeft := s.cyclesLeft - 1, ct := t.ct }) ∧
    (after 0x074 fun t =>
      t = { s with bus := rest, cyclesLeft := s.cyclesLeft - 1,
                   mdlen := BitVec.ofNat 9 (v.toNat % 512) }) ∧
    ∀ offset, 4 ∣ offset → 0x300 ≤ offset → offset ≤ 0x3FC → after offset fun t =>
      t.mem.read offset = v.extractLsb' 24 8 ∧ t.mem.read (offset + 1) = v.extractLsb' 16 8 ∧
      t.mem.read (offset + 2) = v.extractLsb' 8 8 ∧ t.mem.read (offset + 3) = v.extractLsb' 0 8 ∧
      (∀ a, a < offset ∨ offset + 4 ≤ a → t.mem.read a = s.mem.read a) ∧
      t = { s with bus := rest, cyclesLeft := s.cyclesLeft - 1, mem := t.mem }) ∧
  ∀ (s : State) (offset : Nat) (v : Word), s.mem.wf = true → s.busy = false →
    s.bus = [.write offset 4 v, .read offset 4] → 4 ∣ offset →
    (0x030 ≤ offset ∧ offset < 0x044) ∨ (0x050 ≤ offset ∧ offset < 0x060) ∨ offset = 0x074 ∨
      (0x300 ≤ offset ∧ offset < 0x400) →
    ∃ t : State, Sys2Proof.core.run 2 s = .next t ∧
      t.rdata = (if offset = 0x074 then v &&& 0x1FF else v)

/-- R27, R28, R31: writing the four RKEY words of an idle, unlocked block loads the RootKey, packed
big-endian, and makes it valid; writing the four IV words of an idle block does the same for the IV. -/
def Obligations.RootKeyAndIvLoad : Prop :=
  ∀ (s : State) (w0 w1 w2 w3 : Word), s.busy = false →
    (s.rkLock = false →
      s.bus = [.write 0x010 4 w0, .write 0x014 4 w1, .write 0x018 4 w2, .write 0x01C 4 w3] →
      ∃ t : State, Sys2Proof.core.run 4 s = .next t ∧ t.rkValid = true ∧
        t = { s with bus := [], cyclesLeft := s.cyclesLeft - 4, rk := w0 ++ w1 ++ w2 ++ w3,
                     rkv := 0b1111 }) ∧
    (s.bus = [.write 0x030 4 w0, .write 0x034 4 w1, .write 0x038 4 w2, .write 0x03C 4 w3] →
      ∃ t : State, Sys2Proof.core.run 4 s = .next t ∧ t.ivValid = true ∧
        t = { s with bus := [], cyclesLeft := s.cyclesLeft - 4, iv := w0 ++ w1 ++ w2 ++ w3,
                     ivv := 0b1111 })

/-- R24, R27, R210: once RK_LOCK is set the RootKey is unwritable until a reset: in a run of any
length with no reset neither it nor its written flags change, whatever the host writes. -/
def Obligations.LockedRootKeyIsImmutable : Prop :=
  ∀ (n : Nat) (s t : State), s.rkLock = true → (∀ e ∈ s.bus, e.noReset = true) →
    Sys2Proof.core.run n s = .next t → t.rk = s.rk ∧ t.rkv = s.rkv ∧ t.rkLock = true

/-- R27, R29, R210: without KEY_READBACK no read of a stored value tells one RootKey or WorkingKey from
another. A read that takes a free draw is not covered: its value is open (log entry 3). -/
def Obligations.KeysAreHiddenWithoutReadback : Prop :=
  ∀ (c : Config) (s : State) (rk wk : Bytes16) (offset width : Nat) (rest : List BusEvent)
    (t : State), c.keyReadback = false → ¬(s.busy = true ∧ s.cyclesLeft ≤ 1) →
    s.bus = .read offset width :: rest → cycle c exec s = .next t → t.draws = s.draws →
    cycle c exec { s with rk := rk, wk := wk } = .next { t with rk := rk, wk := wk }

/-- R29: only the completion of KEY_INIT, KEY_ADV, KEY_CLEAR or the ADV form of ENC_BLOCK or DEC_BLOCK, or
a reset that is handled in a step that completes no command, writes the WorkingKey. -/
def Obligations.OnlyKeyCommandsWriteWorkingKey : Prop :=
  ∀ s t : State, step s = .next t → t.wk ≠ s.wk →
    (∃ w i, s.busy = true ∧ s.cyclesLeft ≤ 1 ∧ s.pend = some w ∧ decode w = .ok i ∧
      (i = .keyInit ∨ i = .keyAdv ∨ i = .keyClear ∨ i = .decBlock true ∨
        ∃ count record, i = .encBlock count true record)) ∨
    (¬(s.busy = true ∧ s.cyclesLeft ≤ 1 ∧ s.pend.isSome = true) ∧
      ∃ e rest, s.bus = e :: rest ∧ e.noReset = false)

/-! ## Reset (70_reset_and_hazards.md) -/

/-- R45, R231, R232: the reset value of every piece of state, as the fields and as the words the
host reads; and the power-on reset and the soft reset, BUSY or not and with any other bits of the CTRL
value, both set them all, so that a command in flight is aborted and WERR is not set. What is not the
block's state, the bus, stays (the model's choice, log entry 9). -/
def Obligations.ResetsGiveTheResetState : Prop :=
  (State.reset.ctrlWord = 0 ∧ State.reset.statusWord = 0x00000000 ∧ State.reset.rk = 0 ∧
    State.reset.rkv = 0 ∧ State.reset.ivv = 0 ∧ State.reset.wk = 0 ∧ State.reset.iv = 0 ∧
    State.reset.blk = 0 ∧ State.reset.blklen = 0 ∧ State.reset.ct = 0 ∧ State.reset.ctlen = 0 ∧
    State.reset.mdcount = 0 ∧ State.reset.mdlen = 0 ∧ State.reset.mdblocks = 0 ∧
    (∀ a, State.reset.mem.read a = 0) ∧ State.reset.pend = none ∧ State.reset.cyclesLeft = 0 ∧
    State.reset.irq = false ∧
    readReg Config.actual State.reset (regAt 0x000) = 0x424D4407 ∧
    readReg Config.actual State.reset (regAt 0x07C) =
      (if Config.actual.keyReadback = true then 0x000001FF else 0x000000FF)) ∧
  ∀ (s : State) (v : Word) (rest : List BusEvent), ¬(s.busy = true ∧ s.cyclesLeft ≤ 1) →
    (s.bus = .powerOnReset :: rest ∨ (s.bus = .write 0x004 4 v :: rest ∧ v.getLsbD 31 = true)) →
    step s = .next { State.reset with bus := rest, rdata := s.rdata, draws := s.draws }

/-- The invariant `Inv` (its clauses name their rules) holds at reset. -/
def Obligations.InvHoldsAtReset : Prop := Inv State.reset

/-- Every step keeps the invariant `Inv`, from every state that has it. -/
def Obligations.StepKeepsInv : Prop := ∀ s t : State, Inv s → step s = .next t → Inv t

/-! ## Host procedures (45_host_orchestration.md) -/

/-- R172: splitting: the blocks make up the plaintext, each has 1..4 bytes, all but the first have 4,
their number is ceil(|x|/4), and the examples. -/
def Obligations.SplitBlocksShape : Prop :=
  (∀ x : List Byte,
    (splitBlocks x).flatten = x ∧ (∀ b ∈ splitBlocks x, 1 ≤ b.length ∧ b.length ≤ 4) ∧
    (∀ b ∈ (splitBlocks x).tail, b.length = 4) ∧
    (splitBlocks x).length = (x.length + 3) / 4 ∧
    (x ≠ [] → ∃ b, (splitBlocks x).head? = some b ∧
      b.length = if x.length % 4 ≠ 0 then x.length % 4 else 4)) ∧
  splitBlocks [0x61, 0x70, 0x70, 0x6C, 0x65] = [[0x61], [0x70, 0x70, 0x6C, 0x65]] ∧
  splitBlocks [0x61, 0x62, 0x63, 0x64] = [[0x61, 0x62, 0x63, 0x64]] ∧
  splitBlocks [0x61, 0x62, 0x63, 0x64, 0x65, 0x66, 0x67, 0x68, 0x69] =
    [[0x61], [0x62, 0x63, 0x64, 0x65], [0x66, 0x67, 0x68, 0x69]]

/-- R181: a plaintext of at most 1020 bytes encrypts, and decrypting gives the minimal forms of its
blocks, which is the plaintext exactly when no block begins with a zero byte. -/
def Obligations.DecryptUndoesEncrypt : Prop :=
  ∀ (c : Implementation) (rk iv : Bytes16) (x : List Byte), x.length ≤ 1020 →
    ∃ ct, encrypt c.toConfig rk x iv = .ok ct ∧
      decrypt c.toConfig rk ct = .ok ((splitBlocks x).flatMap fun b => minbytes (be b)) ∧
      (((splitBlocks x).flatMap fun b => minbytes (be b)) = x ↔
        ∀ b ∈ splitBlocks x, b.head? ≠ some 0) ∧
      (x = [0x00] → decrypt c.toConfig rk ct = .ok [])

/-- R176: of two plaintexts of one length whose blocks have the same bit lengths at every position,
the byte-wise smaller has the smaller ciphertext, with any IVs. -/
def Obligations.EqualLayoutPreservesOrder : Prop :=
  ∀ (c : Config) (rk iv iv' : Bytes16) (x y a b : List Byte), x.length = y.length →
    bytesLt x y = true →
    (encryptBlocks c rk (splitBlocks x)).2 = (encryptBlocks c rk (splitBlocks y)).2 →
    encrypt c rk x iv = .ok a → encrypt c rk y iv' = .ok b → bytesLt a b = true

/-- R176, C2: order is not preserved in general: the counterexample, in every configuration and with
any IVs. -/
def Obligations.OrderCounterexample : Prop :=
  ∀ (c : Config) (iv iv' : Bytes16),
    let rk : Bytes16 := 0x000102030405060708090A0B0C0D0E0F
    let x : List Byte := [0x01, 0xFE, 0xBD, 0xA8]
    let y : List Byte := [0x01, 0xFE, 0xBD, 0xA9]
    bytesLt x y = true ∧
    ∃ a b, encrypt c rk x iv = .ok a ∧ encrypt c rk y iv' = .ok b ∧ bytesLt b a = true

/-- R173, R174, R178, R182, R183, R184, R185: the body of a ciphertext has ceil(S/8) bytes, S the sum of the bit
lengths of the block outputs, and its big-endian value is the integer whose digits are the outputs one
after the other, so the pad bits are zeros at the most significant end; reading a body back fails exactly
when its length is not ceil(S/8) or a pad bit is 1, and else gives its low S digits. Encrypt succeeds for
at most 1020 bytes and answers CapacityExceeded for more. Whenever encrypt succeeds, its ciphertext is the body, the footer and the IV; each bound that is wanted is that body with
every byte after it replaced, by 0x00 below and 0xFF above, and one that is not wanted is the ciphertext,
in all four cases; the bounds lie on either side of the ciphertext, have its length and do not depend on
the IV; and an error of encrypt passes through unchanged. -/
def Obligations.BodyPackingAndBounds : Prop :=
  (∀ (c : Config) (rk : Bytes16) (x : List Byte),
    let outputs := (splitBlocks x).mapIdx fun i b =>
      encryptValue (Nat.repeat c.reshuffle i rk) (be b)
    let body := (encryptBody c rk x).1
    body.length = ((outputs.map bitlen).sum + 7) / 8 ∧
    be body = outputs.foldl (fun n v => n * 2 ^ bitlen v + v) 0 ∧
    (encryptBody c rk x).2 = outputs.map fun v => BitVec.ofNat 8 (bitlen v)) ∧
  (∀ body lens : List Byte,
    let total := (lens.map BitVec.toNat).sum
    (bodyStream body lens = none ↔
      body.length ≠ (total + 7) / 8 ∨
      ∃ i, total ≤ i ∧ i < 8 * body.length ∧ (be body).testBit i = true) ∧
    ∀ stream, bodyStream body lens = some stream →
      stream.length = total ∧
      ∀ i, i < total → stream[total - 1 - i]? = some ((be body).testBit i)) ∧
  (∀ (c : Config) (rk iv : Bytes16) (x : List Byte),
    (x.length ≤ 1020 → ∃ ct, encrypt c rk x iv = .ok ct) ∧
    (1020 < x.length → encrypt c rk x iv = .error .capacityExceeded)) ∧
  ∀ (c : Config) (rk iv iv' : Bytes16) (x : List Byte),
    (∀ ct, encrypt c rk x iv = .ok ct →
      let body := (encryptBody c rk x).1
      let f := (footer c (encryptBody c rk x).2 rk iv).length + 16
      let lower := body ++ List.replicate f 0x00
      let upper := body ++ List.replicate f 0xFF
      ct = body ++ footer c (encryptBody c rk x).2 rk iv ++ toBytes iv ∧
      encryptBound c rk x true true iv = .ok (lower, upper) ∧
      encryptBound c rk x true false iv = .ok (lower, ct) ∧
      encryptBound c rk x false true iv = .ok (ct, upper) ∧
      encryptBound c rk x false false iv = .ok (ct, ct) ∧
      encryptBound c rk x true true iv' = .ok (lower, upper) ∧
      lower.length = ct.length ∧ upper.length = ct.length ∧
      bytesLe lower ct = true ∧ bytesLe ct upper = true) ∧
    ∀ e wantLower wantUpper, encrypt c rk x iv = .error e →
      encryptBound c rk x wantLower wantUpper iv = .error e

/-- R175, R182, R183, R187: the encrypt and the bound register sequences, run on the block from an idle
state with a valid RootKey and no other agent, answer what `encrypt` and `encrypt_bound` answer, and leave
no WorkingKey. That a WERR of before the sequence would count as a host bug, hence the premise WERR = 0, and
how often WAIT polls are the model's choice (log entry 16). -/
def Obligations.EncryptSequenceAgrees : Prop :=
  ∀ (s : State) (x : List Byte) (iv : Bytes16), Inv s → s.busy = false → s.bus = [] →
    s.rkValid = true → s.werr = false →
    (∃ t, runProg step (encryptSeq x iv) s =
        some (match encrypt Config.actual s.rk x iv with
          | .ok b => SeqResult.ok b
          | .error e => SeqResult.err e, t) ∧
      t.busy = false ∧ t.wkValid = false ∧ t.wk = 0) ∧
    ∀ wantLower wantUpper, ∃ t, runProg step (boundSeq x wantLower wantUpper iv) s =
        some (match encryptBound Config.actual s.rk x wantLower wantUpper iv with
          | .ok b => SeqResult.ok b
          | .error e => SeqResult.err e, t) ∧
      t.busy = false ∧ t.wkValid = false ∧ t.wk = 0

/-- R180, R182, R187: every failure of decrypt is DecryptionFailure; and the decrypt register sequence, run
on the block from an idle state with a valid RootKey and no other agent, answers what `decrypt` answers,
and leaves no WorkingKey. That a WERR of
before the sequence would count as a host bug, hence the premise WERR = 0, and how often WAIT polls are the
model's choice (log entry 16). -/
def Obligations.DecryptSequenceAgrees : Prop :=
  (∀ (c : Config) (rk : Bytes16) (ct : List Byte) (e : HostError),
    decrypt c rk ct = .error e → e = .decryptionFailure) ∧
  ∀ (s : State) (ct : List Byte), Inv s → s.busy = false → s.bus = [] → s.rkValid = true →
    s.werr = false →
    ∃ t, runProg step (decryptSeq ct) s =
        some (match decrypt Config.actual s.rk ct with
          | .ok b => SeqResult.ok b
          | .error e => SeqResult.err e, t) ∧
      t.busy = false ∧ t.wkValid = false ∧ t.wk = 0
end

