-- ==== Sys2Proof/Laws/Bytes.lean ====
section
/-! SUPPORT. The laws of bytes, words and big-endian integers (R13, R61). -/

namespace Sys2Proof.Machine

/-! ## Words of a four-word register -/

@[simp] theorem wordAt_ofWords_0 (w0 w1 w2 w3 : Word) : wordAt (ofWords w0 w1 w2 w3) 0 = w0 := by
  simp only [wordAt, ofWords]; ext i; simp; grind

@[simp] theorem wordAt_ofWords_1 (w0 w1 w2 w3 : Word) : wordAt (ofWords w0 w1 w2 w3) 1 = w1 := by
  simp only [wordAt, ofWords]; ext i; simp; grind

@[simp] theorem wordAt_ofWords_2 (w0 w1 w2 w3 : Word) : wordAt (ofWords w0 w1 w2 w3) 2 = w2 := by
  simp only [wordAt, ofWords]; ext i; simp; grind

@[simp] theorem wordAt_ofWords_3 (w0 w1 w2 w3 : Word) : wordAt (ofWords w0 w1 w2 w3) 3 = w3 := by
  simp only [wordAt, ofWords]; ext i; simp; grind

/-- A four-word register is its four words. -/
theorem ofWords_wordAt (v : Bytes16) :
    ofWords (wordAt v 0) (wordAt v 1) (wordAt v 2) (wordAt v 3) = v := by
  simp only [wordAt, ofWords]; ext i; simp; grind

/-- After word `j` is replaced it reads as written and the other three as before (R64). -/
theorem wordAt_setWordAt (v : Bytes16) (j i : Fin 4) (w : Word) :
    wordAt (setWordAt v j w) i = if i = j then w else wordAt v i := by
  fin_cases i <;> simp [setWordAt]

/-- Writing the four words in turn loads the register. -/
theorem setWordAt_all (v : Bytes16) (w0 w1 w2 w3 : Word) :
    setWordAt (setWordAt (setWordAt (setWordAt v 0 w0) 1 w1) 2 w2) 3 w3 = ofWords w0 w1 w2 w3 := by
  simp [setWordAt]

/-! ## Bytes of a register word -/

/-- Packing the bytes of a word gives the word. -/
@[simp] theorem packWord_bytes (w : Word) :
    packWord (w.extractLsb' 24 8) (w.extractLsb' 16 8) (w.extractLsb' 8 8) (w.extractLsb' 0 8) =
      w := by
  simp only [packWord]; ext i; simp; grind

/-- The bytes of a packed word. -/
@[simp] theorem wordBytes_packWord (b0 b1 b2 b3 : Byte) :
    wordBytes (packWord b0 b1 b2 b3) = [b0, b1, b2, b3] := by
  simp only [wordBytes, packWord, List.cons.injEq, and_true]
  refine ⟨?_, ?_, ?_, ?_⟩ <;> (ext i; simp; grind)

@[simp] theorem length_wordBytes (w : Word) : (wordBytes w).length = 4 := rfl

/-! ## Big-endian values -/

theorem be_foldl (n : Nat) (bs : List Byte) :
    bs.foldl (fun n b => 256 * n + b.toNat) n = n * 256 ^ bs.length + be bs := by
  induction bs generalizing n with
  | nil => simp [be]
  | cons b bs ih =>
    have hbe : be (b :: bs) = (256 * 0 + b.toNat) * 256 ^ bs.length + be bs := ih _
    rw [List.foldl_cons, ih, hbe, List.length_cons, Nat.pow_succ]
    ring

@[simp] theorem be_nil : be [] = 0 := rfl

/-- The defining sum of `be` (R13), one byte at a time. -/
theorem be_cons (b : Byte) (bs : List Byte) : be (b :: bs) = b.toNat * 256 ^ bs.length + be bs := by
  rw [be, List.foldl_cons, be_foldl]
  simp

theorem be_append (xs ys : List Byte) : be (xs ++ ys) = be xs * 256 ^ ys.length + be ys := by
  rw [be, List.foldl_append, be_foldl]
  rfl

/-- A byte string of n bytes has a value below 256^n. -/
theorem be_lt (bs : List Byte) : be bs < 256 ^ bs.length := by
  induction bs with
  | nil => simp
  | cons b bs ih =>
    rw [be_cons, List.length_cons, Nat.pow_succ]
    have hb := b.isLt
    have : b.toNat * 256 ^ bs.length ≤ 255 * 256 ^ bs.length :=
      Nat.mul_le_mul_right _ (by omega)
    omega

@[simp] theorem length_beBytes (n v : Nat) : (beBytes n v).length = n := by simp [beBytes]

theorem beBytes_succ (n v : Nat) :
    beBytes (n + 1) v = BitVec.ofNat 8 (v / 256 ^ n) :: beBytes n v := by
  simp only [beBytes, List.range_succ_eq_map, List.map_cons, List.map_map, List.cons.injEq]
  refine ⟨by simp, List.map_congr_left fun i _ => ?_⟩
  simp only [Function.comp_apply]
  congr 3
  omega

/-- The value of the `n`-byte representation: the number itself, modulo 256^n. -/
theorem be_beBytes (n v : Nat) : be (beBytes n v) = v % 256 ^ n := by
  induction n with
  | zero => simp [beBytes, Nat.mod_one]
  | succ n ih =>
    have hmul : v % (256 ^ n * 256) = v % 256 ^ n + 256 ^ n * (v / 256 ^ n % 256) := Nat.mod_mul
    rw [beBytes_succ, be_cons, ih, length_beBytes, BitVec.toNat_ofNat, Nat.pow_succ 256 n, hmul,
      Nat.mul_comm, Nat.add_comm]

/-- A byte string is the representation of its value in its own length. -/
theorem beBytes_be (bs : List Byte) : beBytes bs.length (be bs) = bs := by
  induction bs with
  | nil => rfl
  | cons b bs ih =>
    have hlt := be_lt bs
    rw [List.length_cons, beBytes_succ, be_cons]
    congr 1
    · rw [Nat.mul_comm, Nat.mul_add_div (by positivity), Nat.div_eq_of_lt hlt]
      simp
    · rw [← ih]
      simp only [beBytes, List.length_map, List.length_range]
      refine List.map_congr_left fun i hi => ?_
      have hi : i < bs.length := List.mem_range.1 hi
      have hbe : be (beBytes bs.length (be bs)) = be bs := by rw [ih]
      have hbe' : be (List.map (fun i => BitVec.ofNat 8 (be bs / 256 ^ (bs.length - 1 - i)))
          (List.range bs.length)) = be bs := hbe
      rw [hbe']
      apply BitVec.eq_of_toNat_eq
      simp only [BitVec.toNat_ofNat]
      have hp : 256 ^ bs.length = 256 ^ (bs.length - 1 - i) * (256 * 256 ^ i) := by
        rw [← Nat.pow_succ', ← Nat.pow_add]
        congr 1
        omega
      rw [hp, show b.toNat * (256 ^ (bs.length - 1 - i) * (256 * 256 ^ i)) =
        256 ^ (bs.length - 1 - i) * (256 * (b.toNat * 256 ^ i)) by ring,
        Nat.mul_add_div (by positivity)]
      norm_num [Nat.mul_add_mod]

/-! ## 16-byte strings -/

@[simp] theorem length_toBytes (v : Bytes16) : (toBytes v).length = 16 := by simp [toBytes]

theorem toBytes_eq_beBytes (v : Bytes16) : toBytes v = beBytes 16 v.toNat := by
  refine List.map_congr_left fun i hi => ?_
  have hi : i < 16 := List.mem_range.1 hi
  apply BitVec.eq_of_toNat_eq
  simp only [byteAt, BitVec.extractLsb'_toNat, BitVec.toNat_ofNat, Nat.shiftRight_eq_div_pow]
  rw [show (256 : Nat) = 2 ^ 8 by rfl, ← Nat.pow_mul]

/-- The value of the bytes of a 16-byte string is the string read as a number. -/
@[simp] theorem be_toBytes (v : Bytes16) : be (toBytes v) = v.toNat := by
  rw [toBytes_eq_beBytes, be_beBytes]
  exact Nat.mod_eq_of_lt v.isLt

/-- A 16-byte string is rebuilt from its bytes. -/
@[simp] theorem ofBytes_toBytes (v : Bytes16) : ofBytes (toBytes v) = v := by
  simp [ofBytes]

/-- Sixteen bytes are the bytes of the string built from them. -/
theorem toBytes_ofBytes {bs : List Byte} (h : bs.length = 16) : toBytes (ofBytes bs) = bs := by
  have hlt := be_lt bs
  rw [h] at hlt
  rw [toBytes_eq_beBytes, ofBytes, BitVec.toNat_ofNat, Nat.mod_eq_of_lt (by simpa using hlt), ← h,
    beBytes_be]

/-! ## Lengths -/

@[simp] theorem bitlen_zero : bitlen 0 = 0 := rfl

/-- The bit length is the least l with v < 2^l. -/
theorem bitlen_le_iff (v l : Nat) : bitlen v ≤ l ↔ v < 2 ^ l := by
  unfold bitlen
  split
  · next h => simp [h]
  · next h => rw [Nat.succ_le_iff, Nat.log2_lt h]

theorem lt_two_pow_bitlen (v : Nat) : v < 2 ^ bitlen v := (bitlen_le_iff v _).1 le_rfl

theorem two_pow_bitlen_le {v : Nat} (h : v ≠ 0) : 2 ^ (bitlen v - 1) ≤ v := by
  simp only [bitlen, if_neg h, Nat.add_sub_cancel]
  exact Nat.log2_self_le h

/-- A value of n bytes has at most n bytes in its minimal form. -/
theorem minbytesLen_le_iff (v n : Nat) : minbytesLen v ≤ n ↔ v < 256 ^ n := by
  rw [show (256 : Nat) = 2 ^ 8 by rfl, ← Nat.pow_mul, ← bitlen_le_iff, minbytesLen]
  omega

/-- The minimal form stands for the value. -/
theorem be_minbytes (v : Nat) : be (minbytes v) = v := by
  rw [minbytes, be_beBytes]
  exact Nat.mod_eq_of_lt ((minbytesLen_le_iff v _).1 le_rfl)

end Sys2Proof.Machine
end

