-- ==== Sys2Proof/Laws/Memory.lean ====
section
/-! SUPPORT. The laws of the byte memory: read after write, and every operation keeps the canonical
form (A10). -/

namespace Sys2Proof.Machine

@[simp] theorem Memory.read_nil (a : Nat) : Memory.read [] a = 0 := rfl

@[simp] theorem Memory.wf_nil : Memory.wf [] = true := rfl

theorem Memory.read_cons (x : Nat) (b : Byte) (m : Memory) (a : Nat) :
    Memory.read ((x, b) :: m) a = if x = a then b else m.read a := rfl

/-- What the canonical form says of a list with a first cell. -/
theorem Memory.wf_cons {x : Nat} {b : Byte} {m : Memory} :
    Memory.wf ((x, b) :: m) = true ↔ b ≠ 0 ∧ (∀ c ∈ m, x < c.1) ∧ m.wf = true := by
  simp [Memory.wf, Memory.unlisted, and_assoc]

/-- An address below every listed one is not listed. -/
theorem Memory.read_below {m : Memory} {a : Nat} (h : ∀ c ∈ m, a < c.1) : m.read a = 0 := by
  induction m with
  | nil => rfl
  | cons c m ih =>
    have hc := h c (by simp)
    rw [Memory.read_cons, if_neg (by omega), ih fun d hd => h d (by simp [hd])]

/-- Every address listed after a write is the written one or was listed before. -/
theorem Memory.mem_write {m : Memory} {a : Nat} {v : Byte} {c : Host.Cell}
    (h : c ∈ m.write a v) : c.1 = a ∨ c ∈ m := by
  induction m with
  | nil =>
    unfold Memory.write at h
    split at h
    · cases h
    · simp_all
  | cons d m ih =>
    obtain ⟨x, b⟩ := d
    simp only [Memory.write] at h
    split at h
    · rcases List.mem_cons.1 h with rfl | h
      · simp
      · rcases ih h with h | h
        · exact .inl h
        · exact .inr (by simp [h])
    · have above : c ∈ (if x = a then m else (x, b) :: m) → c ∈ (x, b) :: m := by
        split
        · exact fun h => List.mem_cons_of_mem _ h
        · exact id
      split at h
      · exact .inr (above h)
      · rcases List.mem_cons.1 h with rfl | h
        · exact .inl rfl
        · exact .inr (above h)

/-- A write keeps the canonical form. -/
theorem Memory.wf_write {m : Memory} (a : Nat) (v : Byte) (h : m.wf = true) :
    (m.write a v).wf = true := by
  induction m with
  | nil =>
    unfold Memory.write
    split
    · rfl
    · simp_all [Memory.wf]
  | cons d m ih =>
    obtain ⟨x, b⟩ := d
    obtain ⟨hb, hx, hm⟩ := Memory.wf_cons.1 h
    simp only [Memory.write]
    split
    · next hlt =>
      refine Memory.wf_cons.2 ⟨hb, fun c hc => ?_, ih hm⟩
      rcases Memory.mem_write hc with h | h
      · omega
      · exact hx c h
    · next hge =>
      split
      · split
        · exact hm
        · exact h
      · next hv =>
        split
        · next hxa => exact Memory.wf_cons.2 ⟨hv, fun c hc => hxa ▸ hx c hc, hm⟩
        · next hxa =>
          refine Memory.wf_cons.2 ⟨hv, fun c hc => ?_, h⟩
          rcases List.mem_cons.1 hc with rfl | hc
          · show a < x; omega
          · have := hx c hc; omega

/-- Read after write: the written byte is read back, and every other address reads as before. -/
theorem Memory.read_write {m : Memory} (a : Nat) (v : Byte) (b : Nat) (h : m.wf = true) :
    (m.write a v).read b = if b = a then v else m.read b := by
  induction m with
  | nil =>
    unfold Memory.write
    by_cases hv : v = Memory.unlisted
    · rw [if_pos hv]; simp_all [Memory.unlisted]
    · rw [if_neg hv, Memory.read_cons]; simp [eq_comm]
  | cons d m ih =>
    obtain ⟨x, y⟩ := d
    obtain ⟨-, hx, hm⟩ := Memory.wf_cons.1 h
    simp only [Memory.write]
    split
    · next hlt =>
      rw [Memory.read_cons, Memory.read_cons, ih hm]
      by_cases h1 : x = b
      · rw [if_pos h1, if_pos h1, if_neg (by omega)]
      · rw [if_neg h1, if_neg h1]
    · next hge =>
      have habove : Memory.read (if x = a then m else (x, y) :: m) b =
          if b = a then 0 else Memory.read ((x, y) :: m) b := by
        by_cases hxa : x = a
        · subst hxa
          rw [if_pos rfl, Memory.read_cons]
          by_cases hb : b = x
          · subst hb
            rw [if_pos rfl, Memory.read_below hx]
          · rw [if_neg hb, if_neg (Ne.symm hb)]
        · rw [if_neg hxa]
          by_cases hb : b = a
          · subst hb
            rw [if_pos rfl, Memory.read_below fun c hc => ?_]
            rcases List.mem_cons.1 hc with rfl | hc
            · show b < x; omega
            · have := hx c hc; omega
          · rw [if_neg hb]
      by_cases hv : v = Memory.unlisted
      · rw [if_pos hv, habove, hv]
        rfl
      · rw [if_neg hv, Memory.read_cons, habove]
        by_cases hb : b = a
        · simp [hb]
        · rw [if_neg (Ne.symm hb), if_neg hb, if_neg hb]

@[simp] theorem Memory.read_write_same {m : Memory} (a : Nat) (v : Byte) (h : m.wf = true) :
    (m.write a v).read a = v := by simp [Memory.read_write, h]

theorem Memory.read_write_other {m : Memory} {a b : Nat} (v : Byte) (h : m.wf = true)
    (hb : b ≠ a) : (m.write a v).read b = m.read b := by simp [Memory.read_write, h, hb]

/-- Storing a byte string keeps the canonical form. -/
theorem Memory.wf_writeBytes {m : Memory} (a : Nat) (vs : List Byte) (h : m.wf = true) :
    (m.writeBytes a vs).wf = true := by
  induction vs generalizing m a with
  | nil => exact h
  | cons v vs ih => exact ih (a + 1) (Memory.wf_write a v h)

/-- Reading after a byte string was stored: its own bytes, and every other byte as before. -/
theorem Memory.read_writeBytes {m : Memory} (a : Nat) (vs : List Byte) (b : Nat)
    (h : m.wf = true) :
    (m.writeBytes a vs).read b =
      if a ≤ b ∧ b < a + vs.length then vs.getD (b - a) 0 else m.read b := by
  induction vs generalizing m a with
  | nil =>
    rw [if_neg (by simp)]
    rfl
  | cons v vs ih =>
    simp only [Memory.writeBytes, ih (a + 1) (Memory.wf_write a v h), List.length_cons,
      Memory.read_write a v b h]
    by_cases h1 : a + 1 ≤ b ∧ b < a + 1 + vs.length
    · obtain ⟨k, rfl⟩ : ∃ k, b = a + 1 + k := ⟨b - (a + 1), by omega⟩
      rw [if_pos h1, if_pos (by omega), show a + 1 + k - (a + 1) = k by omega,
        show a + 1 + k - a = k + 1 by omega, List.getD_cons_succ]
    · by_cases h2 : b = a
      · subst h2
        simp
      · rw [if_neg h1, if_neg h2, if_neg (by omega)]

/-- A register word of MBUF keeps the canonical form. -/
theorem Memory.wf_writeWord {m : Memory} (a : Nat) (w : Word) (h : m.wf = true) :
    (m.writeWord a w).wf = true := Memory.wf_writeBytes a _ h

/-- Two memories in canonical form that read alike are the same data. -/
theorem Memory.ext_read {m n : Memory} (hm : m.wf = true) (hn : n.wf = true)
    (h : ∀ a, m.read a = n.read a) : m = n := by
  induction m generalizing n with
  | nil =>
    cases n with
    | nil => rfl
    | cons d n =>
      obtain ⟨x, y⟩ := d
      have := h x
      simp [Memory.read_cons] at this
      exact absurd this.symm (Memory.wf_cons.1 hn).1
  | cons d m ih =>
    obtain ⟨x, y⟩ := d
    obtain ⟨hy, hx, hm'⟩ := Memory.wf_cons.1 hm
    cases n with
    | nil =>
      have := h x
      simp [Memory.read_cons] at this
      exact absurd this hy
    | cons e n =>
      obtain ⟨z, w⟩ := e
      obtain ⟨hw, hz, hn'⟩ := Memory.wf_cons.1 hn
      have hxz : x = z := by
        rcases Nat.lt_trichotomy x z with hlt | rfl | hlt
        · have := h x
          rw [Memory.read_cons, if_pos rfl, Memory.read_below] at this
          · exact absurd this hy
          · intro c hc
            rcases List.mem_cons.1 hc with rfl | hc
            · exact hlt
            · exact hlt.trans (hz c hc)
        · rfl
        · have := h z
          rw [Memory.read_cons (x := z), if_pos rfl, Memory.read_below] at this
          · exact absurd this.symm hw
          · intro c hc
            rcases List.mem_cons.1 hc with rfl | hc
            · exact hlt
            · exact hlt.trans (hx c hc)
      subst hxz
      have hyw : y = w := by simpa [Memory.read_cons] using h x
      subst hyw
      rw [ih hm' hn' fun a => ?_]
      have ha := h a
      by_cases hxa : x = a
      · subst hxa
        rw [Memory.read_below hx, Memory.read_below hz]
      · simpa [Memory.read_cons, hxa] using ha

end Sys2Proof.Machine
end

