-- ==== Sys2Proof/Laws/State.lean ====
section
/-! SUPPORT. What each state update does to each field: one lemma per field per update, so that no
later proof unfolds an update. -/

namespace Sys2Proof.Machine

/-! ## complete -/

@[simp] theorem complete_rk (code : ErrorCode) (s : State) : (complete code s).rk = s.rk := rfl
@[simp] theorem complete_rkv (code : ErrorCode) (s : State) : (complete code s).rkv = s.rkv := rfl
@[simp] theorem complete_rkLock (code : ErrorCode) (s : State) :
    (complete code s).rkLock = s.rkLock := rfl
@[simp] theorem complete_wk (code : ErrorCode) (s : State) : (complete code s).wk = s.wk := rfl
@[simp] theorem complete_wkValid (code : ErrorCode) (s : State) :
    (complete code s).wkValid = s.wkValid := rfl
@[simp] theorem complete_iv (code : ErrorCode) (s : State) : (complete code s).iv = s.iv := rfl
@[simp] theorem complete_ivv (code : ErrorCode) (s : State) : (complete code s).ivv = s.ivv := rfl
@[simp] theorem complete_blk (code : ErrorCode) (s : State) : (complete code s).blk = s.blk := rfl
@[simp] theorem complete_blklen (code : ErrorCode) (s : State) :
    (complete code s).blklen = s.blklen := rfl
@[simp] theorem complete_ct (code : ErrorCode) (s : State) : (complete code s).ct = s.ct := rfl
@[simp] theorem complete_ctlen (code : ErrorCode) (s : State) :
    (complete code s).ctlen = s.ctlen := rfl
@[simp] theorem complete_mem (code : ErrorCode) (s : State) : (complete code s).mem = s.mem := rfl
@[simp] theorem complete_mdcount (code : ErrorCode) (s : State) :
    (complete code s).mdcount = s.mdcount := rfl
@[simp] theorem complete_mdlen (code : ErrorCode) (s : State) :
    (complete code s).mdlen = s.mdlen := rfl
@[simp] theorem complete_mdblocks (code : ErrorCode) (s : State) :
    (complete code s).mdblocks = s.mdblocks := rfl
@[simp] theorem complete_irqEn (code : ErrorCode) (s : State) :
    (complete code s).irqEn = s.irqEn := rfl
@[simp] theorem complete_busy (code : ErrorCode) (s : State) : (complete code s).busy = false := rfl
@[simp] theorem complete_done (code : ErrorCode) (s : State) : (complete code s).done = true := rfl
@[simp] theorem complete_err (code : ErrorCode) (s : State) :
    (complete code s).err = (s.err || code != .ok) := rfl
@[simp] theorem complete_werr (code : ErrorCode) (s : State) :
    (complete code s).werr = s.werr := rfl
@[simp] theorem complete_errcode (code : ErrorCode) (s : State) :
    (complete code s).errcode = code := rfl
@[simp] theorem complete_pend (code : ErrorCode) (s : State) : (complete code s).pend = none := rfl
@[simp] theorem complete_cyclesLeft (code : ErrorCode) (s : State) :
    (complete code s).cyclesLeft = 0 := rfl
@[simp] theorem complete_bus (code : ErrorCode) (s : State) : (complete code s).bus = s.bus := rfl
@[simp] theorem complete_rdata (code : ErrorCode) (s : State) :
    (complete code s).rdata = s.rdata := rfl
@[simp] theorem complete_draws (code : ErrorCode) (s : State) :
    (complete code s).draws = s.draws := rfl

/-! ## accept -/

@[simp] theorem accept_rk (w : Word) (n : Nat) (s : State) : (accept w n s).rk = s.rk := rfl
@[simp] theorem accept_rkv (w : Word) (n : Nat) (s : State) : (accept w n s).rkv = s.rkv := rfl
@[simp] theorem accept_rkLock (w : Word) (n : Nat) (s : State) :
    (accept w n s).rkLock = s.rkLock := rfl
@[simp] theorem accept_wk (w : Word) (n : Nat) (s : State) : (accept w n s).wk = s.wk := rfl
@[simp] theorem accept_wkValid (w : Word) (n : Nat) (s : State) :
    (accept w n s).wkValid = s.wkValid := rfl
@[simp] theorem accept_iv (w : Word) (n : Nat) (s : State) : (accept w n s).iv = s.iv := rfl
@[simp] theorem accept_ivv (w : Word) (n : Nat) (s : State) : (accept w n s).ivv = s.ivv := rfl
@[simp] theorem accept_blk (w : Word) (n : Nat) (s : State) : (accept w n s).blk = s.blk := rfl
@[simp] theorem accept_blklen (w : Word) (n : Nat) (s : State) :
    (accept w n s).blklen = s.blklen := rfl
@[simp] theorem accept_ct (w : Word) (n : Nat) (s : State) : (accept w n s).ct = s.ct := rfl
@[simp] theorem accept_ctlen (w : Word) (n : Nat) (s : State) :
    (accept w n s).ctlen = s.ctlen := rfl
@[simp] theorem accept_mem (w : Word) (n : Nat) (s : State) : (accept w n s).mem = s.mem := rfl
@[simp] theorem accept_mdcount (w : Word) (n : Nat) (s : State) :
    (accept w n s).mdcount = s.mdcount := rfl
@[simp] theorem accept_mdlen (w : Word) (n : Nat) (s : State) :
    (accept w n s).mdlen = s.mdlen := rfl
@[simp] theorem accept_mdblocks (w : Word) (n : Nat) (s : State) :
    (accept w n s).mdblocks = s.mdblocks := rfl
@[simp] theorem accept_irqEn (w : Word) (n : Nat) (s : State) :
    (accept w n s).irqEn = s.irqEn := rfl
@[simp] theorem accept_busy (w : Word) (n : Nat) (s : State) : (accept w n s).busy = true := rfl
@[simp] theorem accept_done (w : Word) (n : Nat) (s : State) : (accept w n s).done = false := rfl
@[simp] theorem accept_err (w : Word) (n : Nat) (s : State) : (accept w n s).err = s.err := rfl
@[simp] theorem accept_werr (w : Word) (n : Nat) (s : State) : (accept w n s).werr = s.werr := rfl
@[simp] theorem accept_errcode (w : Word) (n : Nat) (s : State) :
    (accept w n s).errcode = s.errcode := rfl
@[simp] theorem accept_pend (w : Word) (n : Nat) (s : State) : (accept w n s).pend = some w := rfl
@[simp] theorem accept_cyclesLeft (w : Word) (n : Nat) (s : State) :
    (accept w n s).cyclesLeft = n := rfl
@[simp] theorem accept_bus (w : Word) (n : Nat) (s : State) : (accept w n s).bus = s.bus := rfl
@[simp] theorem accept_rdata (w : Word) (n : Nat) (s : State) :
    (accept w n s).rdata = s.rdata := rfl
@[simp] theorem accept_draws (w : Word) (n : Nat) (s : State) :
    (accept w n s).draws = s.draws := rfl

/-! ## dropWrite -/

@[simp] theorem dropWrite_rk (s : State) : (s.dropWrite).rk = s.rk := rfl
@[simp] theorem dropWrite_rkv (s : State) : (s.dropWrite).rkv = s.rkv := rfl
@[simp] theorem dropWrite_rkLock (s : State) : (s.dropWrite).rkLock = s.rkLock := rfl
@[simp] theorem dropWrite_wk (s : State) : (s.dropWrite).wk = s.wk := rfl
@[simp] theorem dropWrite_wkValid (s : State) : (s.dropWrite).wkValid = s.wkValid := rfl
@[simp] theorem dropWrite_iv (s : State) : (s.dropWrite).iv = s.iv := rfl
@[simp] theorem dropWrite_ivv (s : State) : (s.dropWrite).ivv = s.ivv := rfl
@[simp] theorem dropWrite_blk (s : State) : (s.dropWrite).blk = s.blk := rfl
@[simp] theorem dropWrite_blklen (s : State) : (s.dropWrite).blklen = s.blklen := rfl
@[simp] theorem dropWrite_ct (s : State) : (s.dropWrite).ct = s.ct := rfl
@[simp] theorem dropWrite_ctlen (s : State) : (s.dropWrite).ctlen = s.ctlen := rfl
@[simp] theorem dropWrite_mem (s : State) : (s.dropWrite).mem = s.mem := rfl
@[simp] theorem dropWrite_mdcount (s : State) : (s.dropWrite).mdcount = s.mdcount := rfl
@[simp] theorem dropWrite_mdlen (s : State) : (s.dropWrite).mdlen = s.mdlen := rfl
@[simp] theorem dropWrite_mdblocks (s : State) : (s.dropWrite).mdblocks = s.mdblocks := rfl
@[simp] theorem dropWrite_irqEn (s : State) : (s.dropWrite).irqEn = s.irqEn := rfl
@[simp] theorem dropWrite_busy (s : State) : (s.dropWrite).busy = s.busy := rfl
@[simp] theorem dropWrite_done (s : State) : (s.dropWrite).done = s.done := rfl
@[simp] theorem dropWrite_err (s : State) : (s.dropWrite).err = s.err := rfl
@[simp] theorem dropWrite_werr (s : State) : (s.dropWrite).werr = true := rfl
@[simp] theorem dropWrite_errcode (s : State) : (s.dropWrite).errcode = s.errcode := rfl
@[simp] theorem dropWrite_pend (s : State) : (s.dropWrite).pend = s.pend := rfl
@[simp] theorem dropWrite_cyclesLeft (s : State) : (s.dropWrite).cyclesLeft = s.cyclesLeft := rfl
@[simp] theorem dropWrite_bus (s : State) : (s.dropWrite).bus = s.bus := rfl
@[simp] theorem dropWrite_rdata (s : State) : (s.dropWrite).rdata = s.rdata := rfl
@[simp] theorem dropWrite_draws (s : State) : (s.dropWrite).draws = s.draws := rfl

/-! ## clearStatus -/

@[simp] theorem clearStatus_rk (s : State) (v : Word) : (s.clearStatus v).rk = s.rk := rfl
@[simp] theorem clearStatus_rkv (s : State) (v : Word) : (s.clearStatus v).rkv = s.rkv := rfl
@[simp] theorem clearStatus_rkLock (s : State) (v : Word) :
    (s.clearStatus v).rkLock = s.rkLock := rfl
@[simp] theorem clearStatus_wk (s : State) (v : Word) : (s.clearStatus v).wk = s.wk := rfl
@[simp] theorem clearStatus_wkValid (s : State) (v : Word) :
    (s.clearStatus v).wkValid = s.wkValid := rfl
@[simp] theorem clearStatus_iv (s : State) (v : Word) : (s.clearStatus v).iv = s.iv := rfl
@[simp] theorem clearStatus_ivv (s : State) (v : Word) : (s.clearStatus v).ivv = s.ivv := rfl
@[simp] theorem clearStatus_blk (s : State) (v : Word) : (s.clearStatus v).blk = s.blk := rfl
@[simp] theorem clearStatus_blklen (s : State) (v : Word) :
    (s.clearStatus v).blklen = s.blklen := rfl
@[simp] theorem clearStatus_ct (s : State) (v : Word) : (s.clearStatus v).ct = s.ct := rfl
@[simp] theorem clearStatus_ctlen (s : State) (v : Word) : (s.clearStatus v).ctlen = s.ctlen := rfl
@[simp] theorem clearStatus_mem (s : State) (v : Word) : (s.clearStatus v).mem = s.mem := rfl
@[simp] theorem clearStatus_mdcount (s : State) (v : Word) :
    (s.clearStatus v).mdcount = s.mdcount := rfl
@[simp] theorem clearStatus_mdlen (s : State) (v : Word) : (s.clearStatus v).mdlen = s.mdlen := rfl
@[simp] theorem clearStatus_mdblocks (s : State) (v : Word) :
    (s.clearStatus v).mdblocks = s.mdblocks := rfl
@[simp] theorem clearStatus_irqEn (s : State) (v : Word) : (s.clearStatus v).irqEn = s.irqEn := rfl
@[simp] theorem clearStatus_busy (s : State) (v : Word) : (s.clearStatus v).busy = s.busy := rfl
@[simp] theorem clearStatus_done (s : State) (v : Word) :
    (s.clearStatus v).done = (s.done && !v.getLsbD 1) := rfl
@[simp] theorem clearStatus_err (s : State) (v : Word) :
    (s.clearStatus v).err = (s.err && !v.getLsbD 2) := rfl
@[simp] theorem clearStatus_werr (s : State) (v : Word) :
    (s.clearStatus v).werr = (s.werr && !v.getLsbD 3) := rfl
@[simp] theorem clearStatus_errcode (s : State) (v : Word) :
    (s.clearStatus v).errcode = s.errcode := rfl
@[simp] theorem clearStatus_pend (s : State) (v : Word) : (s.clearStatus v).pend = s.pend := rfl
@[simp] theorem clearStatus_cyclesLeft (s : State) (v : Word) :
    (s.clearStatus v).cyclesLeft = s.cyclesLeft := rfl
@[simp] theorem clearStatus_bus (s : State) (v : Word) : (s.clearStatus v).bus = s.bus := rfl
@[simp] theorem clearStatus_rdata (s : State) (v : Word) : (s.clearStatus v).rdata = s.rdata := rfl
@[simp] theorem clearStatus_draws (s : State) (v : Word) : (s.clearStatus v).draws = s.draws := rfl

/-! ## tick -/

@[simp] theorem tick_rk (s : State) : (tick s).rk = s.rk := rfl
@[simp] theorem tick_rkv (s : State) : (tick s).rkv = s.rkv := rfl
@[simp] theorem tick_rkLock (s : State) : (tick s).rkLock = s.rkLock := rfl
@[simp] theorem tick_wk (s : State) : (tick s).wk = s.wk := rfl
@[simp] theorem tick_wkValid (s : State) : (tick s).wkValid = s.wkValid := rfl
@[simp] theorem tick_iv (s : State) : (tick s).iv = s.iv := rfl
@[simp] theorem tick_ivv (s : State) : (tick s).ivv = s.ivv := rfl
@[simp] theorem tick_blk (s : State) : (tick s).blk = s.blk := rfl
@[simp] theorem tick_blklen (s : State) : (tick s).blklen = s.blklen := rfl
@[simp] theorem tick_ct (s : State) : (tick s).ct = s.ct := rfl
@[simp] theorem tick_ctlen (s : State) : (tick s).ctlen = s.ctlen := rfl
@[simp] theorem tick_mem (s : State) : (tick s).mem = s.mem := rfl
@[simp] theorem tick_mdcount (s : State) : (tick s).mdcount = s.mdcount := rfl
@[simp] theorem tick_mdlen (s : State) : (tick s).mdlen = s.mdlen := rfl
@[simp] theorem tick_mdblocks (s : State) : (tick s).mdblocks = s.mdblocks := rfl
@[simp] theorem tick_irqEn (s : State) : (tick s).irqEn = s.irqEn := rfl
@[simp] theorem tick_busy (s : State) : (tick s).busy = s.busy := rfl
@[simp] theorem tick_done (s : State) : (tick s).done = s.done := rfl
@[simp] theorem tick_err (s : State) : (tick s).err = s.err := rfl
@[simp] theorem tick_werr (s : State) : (tick s).werr = s.werr := rfl
@[simp] theorem tick_errcode (s : State) : (tick s).errcode = s.errcode := rfl
@[simp] theorem tick_pend (s : State) : (tick s).pend = s.pend := rfl
@[simp] theorem tick_cyclesLeft (s : State) : (tick s).cyclesLeft = s.cyclesLeft - 1 := rfl
@[simp] theorem tick_bus (s : State) : (tick s).bus = s.bus := rfl
@[simp] theorem tick_rdata (s : State) : (tick s).rdata = s.rdata := rfl
@[simp] theorem tick_draws (s : State) : (tick s).draws = s.draws := rfl

/-! ## resetBlock -/

@[simp] theorem resetBlock_rk (s : State) : (resetBlock s).rk = 0 := rfl
@[simp] theorem resetBlock_rkv (s : State) : (resetBlock s).rkv = 0 := rfl
@[simp] theorem resetBlock_rkLock (s : State) : (resetBlock s).rkLock = false := rfl
@[simp] theorem resetBlock_wk (s : State) : (resetBlock s).wk = 0 := rfl
@[simp] theorem resetBlock_wkValid (s : State) : (resetBlock s).wkValid = false := rfl
@[simp] theorem resetBlock_iv (s : State) : (resetBlock s).iv = 0 := rfl
@[simp] theorem resetBlock_ivv (s : State) : (resetBlock s).ivv = 0 := rfl
@[simp] theorem resetBlock_blk (s : State) : (resetBlock s).blk = 0 := rfl
@[simp] theorem resetBlock_blklen (s : State) : (resetBlock s).blklen = 0 := rfl
@[simp] theorem resetBlock_ct (s : State) : (resetBlock s).ct = 0 := rfl
@[simp] theorem resetBlock_ctlen (s : State) : (resetBlock s).ctlen = 0 := rfl
@[simp] theorem resetBlock_mem (s : State) : (resetBlock s).mem = [] := rfl
@[simp] theorem resetBlock_mdcount (s : State) : (resetBlock s).mdcount = 0 := rfl
@[simp] theorem resetBlock_mdlen (s : State) : (resetBlock s).mdlen = 0 := rfl
@[simp] theorem resetBlock_mdblocks (s : State) : (resetBlock s).mdblocks = 0 := rfl
@[simp] theorem resetBlock_irqEn (s : State) : (resetBlock s).irqEn = false := rfl
@[simp] theorem resetBlock_busy (s : State) : (resetBlock s).busy = false := rfl
@[simp] theorem resetBlock_done (s : State) : (resetBlock s).done = false := rfl
@[simp] theorem resetBlock_err (s : State) : (resetBlock s).err = false := rfl
@[simp] theorem resetBlock_werr (s : State) : (resetBlock s).werr = false := rfl
@[simp] theorem resetBlock_errcode (s : State) : (resetBlock s).errcode = .ok := rfl
@[simp] theorem resetBlock_pend (s : State) : (resetBlock s).pend = none := rfl
@[simp] theorem resetBlock_cyclesLeft (s : State) : (resetBlock s).cyclesLeft = 0 := rfl
@[simp] theorem resetBlock_bus (s : State) : (resetBlock s).bus = s.bus := rfl
@[simp] theorem resetBlock_rdata (s : State) : (resetBlock s).rdata = s.rdata := rfl
@[simp] theorem resetBlock_draws (s : State) : (resetBlock s).draws = s.draws := rfl

/-! ## advanceKey -/

@[simp] theorem advanceKey_rk (c : Config) (s : State) : (s.advanceKey c).rk = s.rk := rfl
@[simp] theorem advanceKey_rkv (c : Config) (s : State) : (s.advanceKey c).rkv = s.rkv := rfl
@[simp] theorem advanceKey_rkLock (c : Config) (s : State) :
    (s.advanceKey c).rkLock = s.rkLock := rfl
@[simp] theorem advanceKey_wk (c : Config) (s : State) :
    (s.advanceKey c).wk = c.reshuffle s.wk := rfl
@[simp] theorem advanceKey_wkValid (c : Config) (s : State) :
    (s.advanceKey c).wkValid = s.wkValid := rfl
@[simp] theorem advanceKey_iv (c : Config) (s : State) : (s.advanceKey c).iv = s.iv := rfl
@[simp] theorem advanceKey_ivv (c : Config) (s : State) : (s.advanceKey c).ivv = s.ivv := rfl
@[simp] theorem advanceKey_blk (c : Config) (s : State) : (s.advanceKey c).blk = s.blk := rfl
@[simp] theorem advanceKey_blklen (c : Config) (s : State) :
    (s.advanceKey c).blklen = s.blklen := rfl
@[simp] theorem advanceKey_ct (c : Config) (s : State) : (s.advanceKey c).ct = s.ct := rfl
@[simp] theorem advanceKey_ctlen (c : Config) (s : State) : (s.advanceKey c).ctlen = s.ctlen := rfl
@[simp] theorem advanceKey_mem (c : Config) (s : State) : (s.advanceKey c).mem = s.mem := rfl
@[simp] theorem advanceKey_mdcount (c : Config) (s : State) :
    (s.advanceKey c).mdcount = s.mdcount := rfl
@[simp] theorem advanceKey_mdlen (c : Config) (s : State) : (s.advanceKey c).mdlen = s.mdlen := rfl
@[simp] theorem advanceKey_mdblocks (c : Config) (s : State) :
    (s.advanceKey c).mdblocks = s.mdblocks := rfl
@[simp] theorem advanceKey_irqEn (c : Config) (s : State) : (s.advanceKey c).irqEn = s.irqEn := rfl
@[simp] theorem advanceKey_busy (c : Config) (s : State) : (s.advanceKey c).busy = s.busy := rfl
@[simp] theorem advanceKey_done (c : Config) (s : State) : (s.advanceKey c).done = s.done := rfl
@[simp] theorem advanceKey_err (c : Config) (s : State) : (s.advanceKey c).err = s.err := rfl
@[simp] theorem advanceKey_werr (c : Config) (s : State) : (s.advanceKey c).werr = s.werr := rfl
@[simp] theorem advanceKey_errcode (c : Config) (s : State) :
    (s.advanceKey c).errcode = s.errcode := rfl
@[simp] theorem advanceKey_pend (c : Config) (s : State) : (s.advanceKey c).pend = s.pend := rfl
@[simp] theorem advanceKey_cyclesLeft (c : Config) (s : State) :
    (s.advanceKey c).cyclesLeft = s.cyclesLeft := rfl
@[simp] theorem advanceKey_bus (c : Config) (s : State) : (s.advanceKey c).bus = s.bus := rfl
@[simp] theorem advanceKey_rdata (c : Config) (s : State) : (s.advanceKey c).rdata = s.rdata := rfl
@[simp] theorem advanceKey_draws (c : Config) (s : State) : (s.advanceKey c).draws = s.draws := rfl

/-! ## advanceKeyIf -/

@[simp] theorem advanceKeyIf_rk (c : Config) (adv : Bool) (s : State) :
    (s.advanceKeyIf c adv).rk = s.rk := by cases adv <;> rfl
@[simp] theorem advanceKeyIf_rkv (c : Config) (adv : Bool) (s : State) :
    (s.advanceKeyIf c adv).rkv = s.rkv := by cases adv <;> rfl
@[simp] theorem advanceKeyIf_rkLock (c : Config) (adv : Bool) (s : State) :
    (s.advanceKeyIf c adv).rkLock = s.rkLock := by cases adv <;> rfl
@[simp] theorem advanceKeyIf_wk (c : Config) (adv : Bool) (s : State) :
    (s.advanceKeyIf c adv).wk = if adv then c.reshuffle s.wk else s.wk := by cases adv <;> rfl
@[simp] theorem advanceKeyIf_wkValid (c : Config) (adv : Bool) (s : State) :
    (s.advanceKeyIf c adv).wkValid = s.wkValid := by cases adv <;> rfl
@[simp] theorem advanceKeyIf_iv (c : Config) (adv : Bool) (s : State) :
    (s.advanceKeyIf c adv).iv = s.iv := by cases adv <;> rfl
@[simp] theorem advanceKeyIf_ivv (c : Config) (adv : Bool) (s : State) :
    (s.advanceKeyIf c adv).ivv = s.ivv := by cases adv <;> rfl
@[simp] theorem advanceKeyIf_blk (c : Config) (adv : Bool) (s : State) :
    (s.advanceKeyIf c adv).blk = s.blk := by cases adv <;> rfl
@[simp] theorem advanceKeyIf_blklen (c : Config) (adv : Bool) (s : State) :
    (s.advanceKeyIf c adv).blklen = s.blklen := by cases adv <;> rfl
@[simp] theorem advanceKeyIf_ct (c : Config) (adv : Bool) (s : State) :
    (s.advanceKeyIf c adv).ct = s.ct := by cases adv <;> rfl
@[simp] theorem advanceKeyIf_ctlen (c : Config) (adv : Bool) (s : State) :
    (s.advanceKeyIf c adv).ctlen = s.ctlen := by cases adv <;> rfl
@[simp] theorem advanceKeyIf_mem (c : Config) (adv : Bool) (s : State) :
    (s.advanceKeyIf c adv).mem = s.mem := by cases adv <;> rfl
@[simp] theorem advanceKeyIf_mdcount (c : Config) (adv : Bool) (s : State) :
    (s.advanceKeyIf c adv).mdcount = s.mdcount := by cases adv <;> rfl
@[simp] theorem advanceKeyIf_mdlen (c : Config) (adv : Bool) (s : State) :
    (s.advanceKeyIf c adv).mdlen = s.mdlen := by cases adv <;> rfl
@[simp] theorem advanceKeyIf_mdblocks (c : Config) (adv : Bool) (s : State) :
    (s.advanceKeyIf c adv).mdblocks = s.mdblocks := by cases adv <;> rfl
@[simp] theorem advanceKeyIf_irqEn (c : Config) (adv : Bool) (s : State) :
    (s.advanceKeyIf c adv).irqEn = s.irqEn := by cases adv <;> rfl
@[simp] theorem advanceKeyIf_busy (c : Config) (adv : Bool) (s : State) :
    (s.advanceKeyIf c adv).busy = s.busy := by cases adv <;> rfl
@[simp] theorem advanceKeyIf_done (c : Config) (adv : Bool) (s : State) :
    (s.advanceKeyIf c adv).done = s.done := by cases adv <;> rfl
@[simp] theorem advanceKeyIf_err (c : Config) (adv : Bool) (s : State) :
    (s.advanceKeyIf c adv).err = s.err := by cases adv <;> rfl
@[simp] theorem advanceKeyIf_werr (c : Config) (adv : Bool) (s : State) :
    (s.advanceKeyIf c adv).werr = s.werr := by cases adv <;> rfl
@[simp] theorem advanceKeyIf_errcode (c : Config) (adv : Bool) (s : State) :
    (s.advanceKeyIf c adv).errcode = s.errcode := by cases adv <;> rfl
@[simp] theorem advanceKeyIf_pend (c : Config) (adv : Bool) (s : State) :
    (s.advanceKeyIf c adv).pend = s.pend := by cases adv <;> rfl
@[simp] theorem advanceKeyIf_cyclesLeft (c : Config) (adv : Bool) (s : State) :
    (s.advanceKeyIf c adv).cyclesLeft = s.cyclesLeft := by cases adv <;> rfl
@[simp] theorem advanceKeyIf_bus (c : Config) (adv : Bool) (s : State) :
    (s.advanceKeyIf c adv).bus = s.bus := by cases adv <;> rfl
@[simp] theorem advanceKeyIf_rdata (c : Config) (adv : Bool) (s : State) :
    (s.advanceKeyIf c adv).rdata = s.rdata := by cases adv <;> rfl
@[simp] theorem advanceKeyIf_draws (c : Config) (adv : Bool) (s : State) :
    (s.advanceKeyIf c adv).draws = s.draws := by cases adv <;> rfl

/-! ## pushRecord -/

@[simp] theorem pushRecord_rk (l : Byte) (s : State) : (s.pushRecord l).rk = s.rk := rfl
@[simp] theorem pushRecord_rkv (l : Byte) (s : State) : (s.pushRecord l).rkv = s.rkv := rfl
@[simp] theorem pushRecord_rkLock (l : Byte) (s : State) : (s.pushRecord l).rkLock = s.rkLock := rfl
@[simp] theorem pushRecord_wk (l : Byte) (s : State) : (s.pushRecord l).wk = s.wk := rfl
@[simp] theorem pushRecord_wkValid (l : Byte) (s : State) :
    (s.pushRecord l).wkValid = s.wkValid := rfl
@[simp] theorem pushRecord_iv (l : Byte) (s : State) : (s.pushRecord l).iv = s.iv := rfl
@[simp] theorem pushRecord_ivv (l : Byte) (s : State) : (s.pushRecord l).ivv = s.ivv := rfl
@[simp] theorem pushRecord_blk (l : Byte) (s : State) : (s.pushRecord l).blk = s.blk := rfl
@[simp] theorem pushRecord_blklen (l : Byte) (s : State) : (s.pushRecord l).blklen = s.blklen := rfl
@[simp] theorem pushRecord_ct (l : Byte) (s : State) : (s.pushRecord l).ct = s.ct := rfl
@[simp] theorem pushRecord_ctlen (l : Byte) (s : State) : (s.pushRecord l).ctlen = s.ctlen := rfl
@[simp] theorem pushRecord_mem (l : Byte) (s : State) :
    (s.pushRecord l).mem = s.mem.write (lbufBase + s.mdcount.toNat) l := rfl
@[simp] theorem pushRecord_mdcount (l : Byte) (s : State) :
    (s.pushRecord l).mdcount = s.mdcount + 1 := rfl
@[simp] theorem pushRecord_mdlen (l : Byte) (s : State) : (s.pushRecord l).mdlen = s.mdlen := rfl
@[simp] theorem pushRecord_mdblocks (l : Byte) (s : State) :
    (s.pushRecord l).mdblocks = s.mdblocks := rfl
@[simp] theorem pushRecord_irqEn (l : Byte) (s : State) : (s.pushRecord l).irqEn = s.irqEn := rfl
@[simp] theorem pushRecord_busy (l : Byte) (s : State) : (s.pushRecord l).busy = s.busy := rfl
@[simp] theorem pushRecord_done (l : Byte) (s : State) : (s.pushRecord l).done = s.done := rfl
@[simp] theorem pushRecord_err (l : Byte) (s : State) : (s.pushRecord l).err = s.err := rfl
@[simp] theorem pushRecord_werr (l : Byte) (s : State) : (s.pushRecord l).werr = s.werr := rfl
@[simp] theorem pushRecord_errcode (l : Byte) (s : State) :
    (s.pushRecord l).errcode = s.errcode := rfl
@[simp] theorem pushRecord_pend (l : Byte) (s : State) : (s.pushRecord l).pend = s.pend := rfl
@[simp] theorem pushRecord_cyclesLeft (l : Byte) (s : State) :
    (s.pushRecord l).cyclesLeft = s.cyclesLeft := rfl
@[simp] theorem pushRecord_bus (l : Byte) (s : State) : (s.pushRecord l).bus = s.bus := rfl
@[simp] theorem pushRecord_rdata (l : Byte) (s : State) : (s.pushRecord l).rdata = s.rdata := rfl
@[simp] theorem pushRecord_draws (l : Byte) (s : State) : (s.pushRecord l).draws = s.draws := rfl

/-! ## pushRecordIf -/

@[simp] theorem pushRecordIf_rk (r : Bool) (l : Byte) (s : State) :
    (s.pushRecordIf r l).rk = s.rk := by cases r <;> rfl
@[simp] theorem pushRecordIf_rkv (r : Bool) (l : Byte) (s : State) :
    (s.pushRecordIf r l).rkv = s.rkv := by cases r <;> rfl
@[simp] theorem pushRecordIf_rkLock (r : Bool) (l : Byte) (s : State) :
    (s.pushRecordIf r l).rkLock = s.rkLock := by cases r <;> rfl
@[simp] theorem pushRecordIf_wk (r : Bool) (l : Byte) (s : State) :
    (s.pushRecordIf r l).wk = s.wk := by cases r <;> rfl
@[simp] theorem pushRecordIf_wkValid (r : Bool) (l : Byte) (s : State) :
    (s.pushRecordIf r l).wkValid = s.wkValid := by cases r <;> rfl
@[simp] theorem pushRecordIf_iv (r : Bool) (l : Byte) (s : State) :
    (s.pushRecordIf r l).iv = s.iv := by cases r <;> rfl
@[simp] theorem pushRecordIf_ivv (r : Bool) (l : Byte) (s : State) :
    (s.pushRecordIf r l).ivv = s.ivv := by cases r <;> rfl
@[simp] theorem pushRecordIf_blk (r : Bool) (l : Byte) (s : State) :
    (s.pushRecordIf r l).blk = s.blk := by cases r <;> rfl
@[simp] theorem pushRecordIf_blklen (r : Bool) (l : Byte) (s : State) :
    (s.pushRecordIf r l).blklen = s.blklen := by cases r <;> rfl
@[simp] theorem pushRecordIf_ct (r : Bool) (l : Byte) (s : State) :
    (s.pushRecordIf r l).ct = s.ct := by cases r <;> rfl
@[simp] theorem pushRecordIf_ctlen (r : Bool) (l : Byte) (s : State) :
    (s.pushRecordIf r l).ctlen = s.ctlen := by cases r <;> rfl
@[simp] theorem pushRecordIf_mem (r : Bool) (l : Byte) (s : State) :
    (s.pushRecordIf r l).mem = if r then s.mem.write (lbufBase + s.mdcount.toNat) l else s.mem := by cases r <;> rfl
@[simp] theorem pushRecordIf_mdcount (r : Bool) (l : Byte) (s : State) :
    (s.pushRecordIf r l).mdcount = if r then s.mdcount + 1 else s.mdcount := by cases r <;> rfl
@[simp] theorem pushRecordIf_mdlen (r : Bool) (l : Byte) (s : State) :
    (s.pushRecordIf r l).mdlen = s.mdlen := by cases r <;> rfl
@[simp] theorem pushRecordIf_mdblocks (r : Bool) (l : Byte) (s : State) :
    (s.pushRecordIf r l).mdblocks = s.mdblocks := by cases r <;> rfl
@[simp] theorem pushRecordIf_irqEn (r : Bool) (l : Byte) (s : State) :
    (s.pushRecordIf r l).irqEn = s.irqEn := by cases r <;> rfl
@[simp] theorem pushRecordIf_busy (r : Bool) (l : Byte) (s : State) :
    (s.pushRecordIf r l).busy = s.busy := by cases r <;> rfl
@[simp] theorem pushRecordIf_done (r : Bool) (l : Byte) (s : State) :
    (s.pushRecordIf r l).done = s.done := by cases r <;> rfl
@[simp] theorem pushRecordIf_err (r : Bool) (l : Byte) (s : State) :
    (s.pushRecordIf r l).err = s.err := by cases r <;> rfl
@[simp] theorem pushRecordIf_werr (r : Bool) (l : Byte) (s : State) :
    (s.pushRecordIf r l).werr = s.werr := by cases r <;> rfl
@[simp] theorem pushRecordIf_errcode (r : Bool) (l : Byte) (s : State) :
    (s.pushRecordIf r l).errcode = s.errcode := by cases r <;> rfl
@[simp] theorem pushRecordIf_pend (r : Bool) (l : Byte) (s : State) :
    (s.pushRecordIf r l).pend = s.pend := by cases r <;> rfl
@[simp] theorem pushRecordIf_cyclesLeft (r : Bool) (l : Byte) (s : State) :
    (s.pushRecordIf r l).cyclesLeft = s.cyclesLeft := by cases r <;> rfl
@[simp] theorem pushRecordIf_bus (r : Bool) (l : Byte) (s : State) :
    (s.pushRecordIf r l).bus = s.bus := by cases r <;> rfl
@[simp] theorem pushRecordIf_rdata (r : Bool) (l : Byte) (s : State) :
    (s.pushRecordIf r l).rdata = s.rdata := by cases r <;> rfl
@[simp] theorem pushRecordIf_draws (r : Bool) (l : Byte) (s : State) :
    (s.pushRecordIf r l).draws = s.draws := by cases r <;> rfl

/-! ## setLbuf -/

@[simp] theorem setLbuf_rk (s : State) (bs : List Byte) : (s.setLbuf bs).rk = s.rk := rfl
@[simp] theorem setLbuf_rkv (s : State) (bs : List Byte) : (s.setLbuf bs).rkv = s.rkv := rfl
@[simp] theorem setLbuf_rkLock (s : State) (bs : List Byte) :
    (s.setLbuf bs).rkLock = s.rkLock := rfl
@[simp] theorem setLbuf_wk (s : State) (bs : List Byte) : (s.setLbuf bs).wk = s.wk := rfl
@[simp] theorem setLbuf_wkValid (s : State) (bs : List Byte) :
    (s.setLbuf bs).wkValid = s.wkValid := rfl
@[simp] theorem setLbuf_iv (s : State) (bs : List Byte) : (s.setLbuf bs).iv = s.iv := rfl
@[simp] theorem setLbuf_ivv (s : State) (bs : List Byte) : (s.setLbuf bs).ivv = s.ivv := rfl
@[simp] theorem setLbuf_blk (s : State) (bs : List Byte) : (s.setLbuf bs).blk = s.blk := rfl
@[simp] theorem setLbuf_blklen (s : State) (bs : List Byte) :
    (s.setLbuf bs).blklen = s.blklen := rfl
@[simp] theorem setLbuf_ct (s : State) (bs : List Byte) : (s.setLbuf bs).ct = s.ct := rfl
@[simp] theorem setLbuf_ctlen (s : State) (bs : List Byte) : (s.setLbuf bs).ctlen = s.ctlen := rfl
@[simp] theorem setLbuf_mem (s : State) (bs : List Byte) :
    (s.setLbuf bs).mem = s.mem.writeBytes lbufBase (bs ++ List.replicate (bufBytes - bs.length) 0) := rfl
@[simp] theorem setLbuf_mdcount (s : State) (bs : List Byte) :
    (s.setLbuf bs).mdcount = s.mdcount := rfl
@[simp] theorem setLbuf_mdlen (s : State) (bs : List Byte) : (s.setLbuf bs).mdlen = s.mdlen := rfl
@[simp] theorem setLbuf_mdblocks (s : State) (bs : List Byte) :
    (s.setLbuf bs).mdblocks = s.mdblocks := rfl
@[simp] theorem setLbuf_irqEn (s : State) (bs : List Byte) : (s.setLbuf bs).irqEn = s.irqEn := rfl
@[simp] theorem setLbuf_busy (s : State) (bs : List Byte) : (s.setLbuf bs).busy = s.busy := rfl
@[simp] theorem setLbuf_done (s : State) (bs : List Byte) : (s.setLbuf bs).done = s.done := rfl
@[simp] theorem setLbuf_err (s : State) (bs : List Byte) : (s.setLbuf bs).err = s.err := rfl
@[simp] theorem setLbuf_werr (s : State) (bs : List Byte) : (s.setLbuf bs).werr = s.werr := rfl
@[simp] theorem setLbuf_errcode (s : State) (bs : List Byte) :
    (s.setLbuf bs).errcode = s.errcode := rfl
@[simp] theorem setLbuf_pend (s : State) (bs : List Byte) : (s.setLbuf bs).pend = s.pend := rfl
@[simp] theorem setLbuf_cyclesLeft (s : State) (bs : List Byte) :
    (s.setLbuf bs).cyclesLeft = s.cyclesLeft := rfl
@[simp] theorem setLbuf_bus (s : State) (bs : List Byte) : (s.setLbuf bs).bus = s.bus := rfl
@[simp] theorem setLbuf_rdata (s : State) (bs : List Byte) : (s.setLbuf bs).rdata = s.rdata := rfl
@[simp] theorem setLbuf_draws (s : State) (bs : List Byte) : (s.setLbuf bs).draws = s.draws := rfl

/-! ## setMbuf -/

@[simp] theorem setMbuf_rk (s : State) (bs : List Byte) : (s.setMbuf bs).rk = s.rk := rfl
@[simp] theorem setMbuf_rkv (s : State) (bs : List Byte) : (s.setMbuf bs).rkv = s.rkv := rfl
@[simp] theorem setMbuf_rkLock (s : State) (bs : List Byte) :
    (s.setMbuf bs).rkLock = s.rkLock := rfl
@[simp] theorem setMbuf_wk (s : State) (bs : List Byte) : (s.setMbuf bs).wk = s.wk := rfl
@[simp] theorem setMbuf_wkValid (s : State) (bs : List Byte) :
    (s.setMbuf bs).wkValid = s.wkValid := rfl
@[simp] theorem setMbuf_iv (s : State) (bs : List Byte) : (s.setMbuf bs).iv = s.iv := rfl
@[simp] theorem setMbuf_ivv (s : State) (bs : List Byte) : (s.setMbuf bs).ivv = s.ivv := rfl
@[simp] theorem setMbuf_blk (s : State) (bs : List Byte) : (s.setMbuf bs).blk = s.blk := rfl
@[simp] theorem setMbuf_blklen (s : State) (bs : List Byte) :
    (s.setMbuf bs).blklen = s.blklen := rfl
@[simp] theorem setMbuf_ct (s : State) (bs : List Byte) : (s.setMbuf bs).ct = s.ct := rfl
@[simp] theorem setMbuf_ctlen (s : State) (bs : List Byte) : (s.setMbuf bs).ctlen = s.ctlen := rfl
@[simp] theorem setMbuf_mem (s : State) (bs : List Byte) :
    (s.setMbuf bs).mem = s.mem.writeBytes mbufBase (bs ++ List.replicate (bufBytes - bs.length) 0) := rfl
@[simp] theorem setMbuf_mdcount (s : State) (bs : List Byte) :
    (s.setMbuf bs).mdcount = s.mdcount := rfl
@[simp] theorem setMbuf_mdlen (s : State) (bs : List Byte) : (s.setMbuf bs).mdlen = s.mdlen := rfl
@[simp] theorem setMbuf_mdblocks (s : State) (bs : List Byte) :
    (s.setMbuf bs).mdblocks = s.mdblocks := rfl
@[simp] theorem setMbuf_irqEn (s : State) (bs : List Byte) : (s.setMbuf bs).irqEn = s.irqEn := rfl
@[simp] theorem setMbuf_busy (s : State) (bs : List Byte) : (s.setMbuf bs).busy = s.busy := rfl
@[simp] theorem setMbuf_done (s : State) (bs : List Byte) : (s.setMbuf bs).done = s.done := rfl
@[simp] theorem setMbuf_err (s : State) (bs : List Byte) : (s.setMbuf bs).err = s.err := rfl
@[simp] theorem setMbuf_werr (s : State) (bs : List Byte) : (s.setMbuf bs).werr = s.werr := rfl
@[simp] theorem setMbuf_errcode (s : State) (bs : List Byte) :
    (s.setMbuf bs).errcode = s.errcode := rfl
@[simp] theorem setMbuf_pend (s : State) (bs : List Byte) : (s.setMbuf bs).pend = s.pend := rfl
@[simp] theorem setMbuf_cyclesLeft (s : State) (bs : List Byte) :
    (s.setMbuf bs).cyclesLeft = s.cyclesLeft := rfl
@[simp] theorem setMbuf_bus (s : State) (bs : List Byte) : (s.setMbuf bs).bus = s.bus := rfl
@[simp] theorem setMbuf_rdata (s : State) (bs : List Byte) : (s.setMbuf bs).rdata = s.rdata := rfl
@[simp] theorem setMbuf_draws (s : State) (bs : List Byte) : (s.setMbuf bs).draws = s.draws := rfl

end Sys2Proof.Machine
end

