-- ==== Sys2Proof/Laws/Ops.lean ====
section
/-! SUPPORT. What the shared operations and the commands can do, said once each: inversion lemmas
that later proofs cite instead of unfolding. -/

namespace Sys2Proof.Machine

/-! ## Completion -/

/-- Everything `finish` can do: apply the command's writes and complete with code 0, or write nothing
but STATUS (R202, R203). -/
theorem finish_next {s t : State} {r : Except ErrorCode State} :
    finish s r = .next t ↔
      (∃ u, r = .ok u ∧ t = complete .ok u) ∨ ∃ code, r = .error code ∧ t = complete code s := by
  cases r <;> simp [finish, eq_comm]

@[simp] theorem finish_ok (s t : State) : finish s (.ok t) = .next (complete .ok t) := rfl

@[simp] theorem finish_error (s : State) (code : ErrorCode) :
    finish s (.error code) = .next (complete code s) := rfl

/-- A completion with code 0 as a record update. -/
theorem complete_ok (s : State) :
    complete .ok s = { s with errcode := .ok, done := true, busy := false, pend := none,
                              cyclesLeft := 0 } := by
  simp [complete]

/-- A completion with a nonzero code as a record update. -/
theorem complete_error {code : ErrorCode} (h : code ≠ .ok) (s : State) :
    complete code s = { s with errcode := code, err := true, done := true, busy := false,
                               pend := none, cyclesLeft := 0 } := by
  simp [complete, h]

/-! ## Commands -/

/-- The pseudocode of a command: its state writes, or the code it raises. -/
def effectOf (c : Config) (i : Instr) (s : State) : Except ErrorCode State :=
  match i with
  | .nop => .ok s
  | .keyInit => keyInit s
  | .keyAdv => keyAdv c s
  | .keyClear => keyClear s
  | .splitKey => splitKeyCmd c s
  | .rotl8 amount => rotl8Cmd amount s
  | .rotr8 amount => rotr8Cmd amount s
  | .encBlock count adv record => encBlock c count adv record s
  | .decBlock adv => decBlock c adv s
  | .mdClear => mdClear s
  | .mdPush len => mdPush len s
  | .mdEncrypt => mdEncrypt c s
  | .mdDecrypt => mdDecrypt c s

/-- The answer of a successful command, read from right to left. -/
theorem ok_eq_ok {t u : State} :
    ((Except.ok u : Except ErrorCode State) = .ok t) ↔ t = u := by
  rw [Except.ok.injEq]
  exact eq_comm

/-- A command completes with the outcome of its pseudocode. -/
theorem exec_eq_finish (i : Instr) (s : State) :
    exec i s = finish s (effectOf Config.actual i s) := by cases i <;> rfl

/-- Every command gives a next state in every state: none stops the block (R200). -/
theorem exec_is_next (i : Instr) (s : State) : ∃ t, exec i s = .next t :=
  ⟨_, exec_eq_finish i s⟩

/-- KEY_INIT's pseudocode, when it succeeds (R104). -/
theorem keyInit_ok {s t : State} :
    keyInit s = .ok t ↔ s.rkValid = true ∧ t = { s with wk := s.rk, wkValid := true } := by
  unfold keyInit; split <;> simp_all only [ok_eq_ok, reduceCtorEq] <;> simp

/-- KEY_ADV's pseudocode, when it succeeds (R105). -/
theorem keyAdv_ok {c : Config} {s t : State} :
    keyAdv c s = .ok t ↔ s.wkValid = true ∧ t = s.advanceKey c := by
  unfold keyAdv; split <;> simp_all only [ok_eq_ok, reduceCtorEq] <;> simp

/-- SPLIT_KEY's pseudocode, when it succeeds (R107). -/
theorem splitKeyCmd_ok {c : Config} {s t : State} :
    splitKeyCmd c s = .ok t ↔ c.keyReadback = true ∧ s.wkValid = true ∧
      t = { s with
        ct := ofWords (splitKey s.wk).part0 (splitKey s.wk).part1 (splitKey s.wk).part2
          (splitKey s.wk).part3
        blk := wordAt s.wk 3 } := by
  unfold splitKeyCmd
  cases h1 : c.keyReadback <;> cases h2 : s.wkValid <;> simp [ok_eq_ok, -Except.ok.injEq]

/-- ENC_BLOCK's pseudocode, when it succeeds (R123). -/
theorem encBlock_ok {c : Config} {count : Nat} {adv record : Bool} {s t : State} :
    encBlock c count adv record s = .ok t ↔
      s.wkValid = true ∧ count ≤ 4 ∧ (record = true → s.recordsFull = false) ∧
      t = (({ s with
        ct := BitVec.ofNat 128 (encryptValue s.wk (blockValue count s.blk))
        ctlen := BitVec.ofNat 8 (bitlen (encryptValue s.wk (blockValue count s.blk))) }).pushRecordIf
          record (BitVec.ofNat 8 (bitlen (encryptValue s.wk (blockValue count s.blk))))).advanceKeyIf
          c adv := by
  unfold encBlock
  have h4 : count ≤ 4 ↔ ¬ 4 < count := Nat.not_lt.symm
  rw [h4]
  cases h1 : s.wkValid <;> by_cases h2 : 4 < count <;> cases record <;>
    cases h3 : s.recordsFull <;> simp [h2, ok_eq_ok, -Except.ok.injEq]

/-- DEC_BLOCK's pseudocode, when it succeeds (R124). -/
theorem decBlock_ok {c : Config} {adv : Bool} {s t : State} :
    decBlock c adv s = .ok t ↔
      s.wkValid = true ∧ ∃ r, decryptValue s.wk s.ct.toNat = some r ∧
      t = ({ s with
        blk := BitVec.ofNat 32 r
        blklen := BitVec.ofNat 3 (minbytesLen r) }).advanceKeyIf c adv := by
  unfold decBlock
  cases h1 : s.wkValid <;> cases h2 : decryptValue s.wk s.ct.toNat <;>
    simp [ok_eq_ok, -Except.ok.injEq]

/-- MD_PUSH's pseudocode, when it succeeds (R145). -/
theorem mdPush_ok {len : Nat} {s t : State} :
    mdPush len s = .ok t ↔ s.recordsFull = false ∧ t = s.pushRecord (BitVec.ofNat 8 len) := by
  unfold mdPush
  cases h : s.recordsFull <;> simp [ok_eq_ok, -Except.ok.injEq]

/-- MD_ENCRYPT's pseudocode, when it succeeds (R146). -/
theorem mdEncrypt_ok {c : Config} {s t : State} :
    mdEncrypt c s = .ok t ↔ s.rkValid = true ∧ s.ivValid = true ∧
      t = { s.setMbuf (footer c s.records s.rk s.iv) with
        mdlen := BitVec.ofNat 9 (16 * footerBlocks s.records.length)
        mdblocks := BitVec.ofNat 5 (footerBlocks s.records.length) } := by
  unfold mdEncrypt
  cases h1 : s.rkValid <;> cases h2 : s.ivValid <;> simp [ok_eq_ok, -Except.ok.injEq]

/-- MD_DECRYPT's pseudocode, when it succeeds (R147). -/
theorem mdDecrypt_ok {c : Config} {s t : State} :
    mdDecrypt c s = .ok t ↔ s.rkValid = true ∧ s.ivValid = true ∧ s.mdlen.toNat ≤ bufBytes ∧
      ∃ recs nb, undo c s.footerInput s.rk s.iv = some (recs, nb) ∧
        t = { s.setLbuf recs with
          mdcount := BitVec.ofNat 8 recs.length
          mdblocks := BitVec.ofNat 5 nb } := by
  unfold mdDecrypt
  by_cases h3 : bufBytes < s.mdlen.toNat
  · have := Nat.not_le.2 h3
    cases h1 : s.rkValid <;> cases h2 : s.ivValid <;> simp [h3]
  · have := Nat.not_lt.1 h3
    cases h1 : s.rkValid <;> cases h2 : s.ivValid <;>
      rcases h4 : undo c s.footerInput s.rk s.iv with _ | ⟨recs, nb⟩ <;>
      simp [h3, this, ok_eq_ok, -Except.ok.injEq]

/-- The errors of a command have nonzero codes (R201). -/
theorem effectOf_error_ne_ok {c : Config} {i : Instr} {s : State} {code : ErrorCode}
    (h : effectOf c i s = .error code) : code ≠ .ok := by
  rintro rfl
  cases i <;>
    simp only [effectOf, keyInit, keyAdv, keyClear, splitKeyCmd, rotl8Cmd, rotr8Cmd, encBlock,
      decBlock, mdClear, mdPush, mdEncrypt, mdDecrypt] at h <;>
    (repeat' split at h) <;> simp at h

/-! ## Sizes of the codec -/

@[simp] theorem length_takeBlocks (n : Nat) (bs : List Byte) : (takeBlocks n bs).length = n := by
  induction n generalizing bs with
  | zero => rfl
  | succ n ih => simp [takeBlocks, ih]

@[simp] theorem length_wholeBlocks (bs : List Byte) :
    (wholeBlocks bs).length = bs.length / 16 := by simp [wholeBlocks]

@[simp] theorem length_cbcEncrypt (c : Config) (key iv : Bytes16) (ps : List Bytes16) :
    (cbcEncrypt c key iv ps).length = ps.length := by
  induction ps generalizing iv with
  | nil => rfl
  | cons p ps ih => simp [cbcEncrypt, ih]

@[simp] theorem length_flatMap_toBytes (bs : List Bytes16) :
    (bs.flatMap toBytes).length = 16 * bs.length := by
  induction bs with
  | nil => rfl
  | cons b bs ih => simp [ih]; ring

@[simp] theorem length_readBytes (m : Memory) (a n : Nat) : (m.readBytes a n).length = n := by
  simp [Memory.readBytes]

/-- Cutting the concatenation of blocks into blocks gives the blocks back. -/
theorem wholeBlocks_flatMap_toBytes (bs : List Bytes16) :
    wholeBlocks (bs.flatMap toBytes) = bs := by
  rw [wholeBlocks, length_flatMap_toBytes, Nat.mul_div_cancel_left _ (by norm_num)]
  induction bs with
  | nil => rfl
  | cons b bs ih => simp [takeBlocks, ih]

/-- The bytes of the blocks of a string of whole blocks are the string. -/
theorem flatMap_toBytes_takeBlocks (n : Nat) {bs : List Byte} (h : bs.length = 16 * n) :
    (takeBlocks n bs).flatMap toBytes = bs := by
  induction n generalizing bs with
  | zero => simp_all [takeBlocks]
  | succ n ih =>
    rw [takeBlocks, List.flatMap_cons, ih (by simp; omega),
      toBytes_ofBytes (by simp; omega), List.take_append_drop]

/-- The AES inverse law of the configuration that `step` models (R12). -/
@[simp] theorem actual_aesDec_aesEnc (k b : Bytes16) :
    Config.actual.aesDec k (Config.actual.aesEnc k b) = b :=
  Config.implementation.aesDec_aesEnc k b

end Sys2Proof.Machine
end

