-- ==== Sys2Proof/Laws/Step.lean ====
section
/-! SUPPORT. What a step can do, said once: the inversion lemmas of the bus and of the cycle. -/

namespace Sys2Proof.Machine

/-! ## The register map -/

theorem regAt_lbuf {offset a : Nat} (h : regAt offset = .lbuf a) :
    a = offset ∧ lbufBase ≤ offset ∧ offset < lbufBase + bufBytes := by
  unfold regAt at h
  split at h
  · simp_all
  · split at h
    · simp_all
    · split at h <;> cases h

theorem regAt_mbuf {offset a : Nat} (h : regAt offset = .mbuf a) :
    a = offset ∧ mbufBase ≤ offset ∧ offset < mbufBase + bufBytes := by
  unfold regAt at h
  split at h
  · simp_all
  · split at h
    · simp_all
    · split at h <;> cases h

theorem regAt_of_mbuf {offset : Nat} (h : mbufBase ≤ offset) (h' : offset < mbufBase + bufBytes) :
    regAt offset = .mbuf offset := by
  unfold regAt
  rw [if_neg (by simp only [mbufBase, lbufBase, bufBytes] at *; omega), if_pos ⟨h, h'⟩]

theorem supported_iff {offset width : Nat} :
    supported offset width = true ↔ width = 4 ∧ 4 ∣ offset := by
  simp [supported, Nat.dvd_iff_mod_eq_zero]

/-! ## Writes -/

@[simp] theorem writeInput_busy {s t : State} (h : s.busy = true) :
    writeInput s t = s.dropWrite := by simp [writeInput, h]

@[simp] theorem writeInput_idle {s t : State} (h : s.busy = false) : writeInput s t = t := by
  simp [writeInput, h]

/-- Everything a supported write can do: nothing, be dropped, clear STATUS bits, reset the block, or,
while BUSY = 0, write one register (R22 to R42). -/
theorem writeAccess_cases (c : Config) (r : Reg) (v : Word) (s : State) :
    writeAccess c r v s = s ∨
    (writeAccess c r v s = s.dropWrite ∧ (s.busy = true ∨ s.rkLock = true)) ∨
    (r = .status ∧ writeAccess c r v s = s.clearStatus v) ∨
    (r = .ctrl ∧ v.getLsbD 31 = true ∧ writeAccess c r v s = resetBlock s) ∨
    (s.busy = false ∧
      ((r = .ctrl ∧ writeAccess c r v s =
          { s with irqEn := v.getLsbD 0, rkLock := s.rkLock || v.getLsbD 1 }) ∨
       (r = .cmd ∧ writeAccess c r v s = accept v (c.latency v s) s) ∨
       (∃ j, r = .rkey j ∧ s.rkLock = false ∧ writeAccess c r v s =
          { s with rk := setWordAt s.rk j v, rkv := s.rkv ||| 1#4 <<< j.val }) ∨
       (∃ j, r = .iv j ∧ writeAccess c r v s =
          { s with iv := setWordAt s.iv j v, ivv := s.ivv ||| 1#4 <<< j.val }) ∨
       (r = .blk ∧ writeAccess c r v s = { s with blk := v }) ∨
       (∃ j, r = .ct j ∧ writeAccess c r v s = { s with ct := setWordAt s.ct j v }) ∨
       (r = .mdlen ∧ writeAccess c r v s = { s with mdlen := v.setWidth 9 }) ∨
       (∃ o, r = .mbuf o ∧ writeAccess c r v s = { s with mem := s.mem.writeWord o v }))) := by
  cases hb : s.busy <;> cases r <;>
    simp [writeAccess, writeCtrl, writeCmd, writeRkey, writeIv, writeInput, hb] <;>
    (try cases hl : s.rkLock) <;> (try cases h31 : v.getLsbD 31) <;> simp_all

/-- What a supported read can do: only the bus word and the count of draws change (R63). -/
theorem readAccess_eq (c : Config) (r : Reg) (s : State) :
    readAccess c r s =
      { s with rdata := (readAccess c r s).rdata, draws := (readAccess c r s).draws } := by
  unfold readAccess
  split
  · split <;> rfl
  · rfl

/-! ## Bus events -/

/-- Everything a bus event can do, when it does not stop the machine. -/
theorem handleEvent_next {c : Config} {e : BusEvent} {s t : State}
    (h : handleEvent c e s = .next t) :
    (∃ o w, e = .read o w ∧ o < windowBytes ∧ supported o w = true ∧
      t = readAccess c (regAt o) s) ∨
    (∃ o w, e = .read o w ∧ o < windowBytes ∧ supported o w = false ∧ t = { s with rdata := 0 }) ∨
    (∃ o w v, e = .write o w v ∧ o < windowBytes ∧ supported o w = true ∧
      t = writeAccess c (regAt o) v s) ∨
    (∃ o w v, e = .write o w v ∧ o < windowBytes ∧ supported o w = false ∧ t = s.dropWrite) ∨
    (e = .powerOnReset ∧ t = resetBlock s) ∨
    (e = .idle ∧ t = s) := by
  cases e with
  | read o w =>
    simp only [handleEvent] at h
    split at h
    · cases h
    · split at h <;> simp_all
  | write o w v =>
    simp only [handleEvent] at h
    split at h
    · cases h
    · split at h <;> simp_all
  | powerOnReset =>
    obtain rfl : resetBlock s = t := by simpa [handleEvent] using h
    simp
  | idle =>
    obtain rfl : s = t := by simpa [handleEvent] using h
    simp

/-- A bus event inside the window does not stop the machine. -/
theorem handleEvent_inWindow (c : Config) {e : BusEvent} (s : State) (h : e.inWindow = true) :
    ∃ t, handleEvent c e s = .next t := by
  cases e with
  | read o w =>
    simp only [BusEvent.inWindow, decide_eq_true_eq] at h
    simp only [handleEvent, if_neg (Nat.not_le.2 h)]
    split <;> exact ⟨_, rfl⟩
  | write o w v =>
    simp only [BusEvent.inWindow, decide_eq_true_eq] at h
    simp only [handleEvent, if_neg (Nat.not_le.2 h)]
    split <;> exact ⟨_, rfl⟩
  | powerOnReset => exact ⟨_, rfl⟩
  | idle => exact ⟨_, rfl⟩

/-! ## The cycle -/

theorem completing_eq_some {s : State} {w : Word} :
    completing s = some w ↔ s.busy = true ∧ s.cyclesLeft ≤ 1 ∧ s.pend = some w := by
  unfold completing
  split <;> simp_all

theorem completing_eq_none {s : State} (h : ¬(s.busy = true ∧ s.cyclesLeft ≤ 1)) :
    completing s = none := by
  unfold completing
  rw [if_neg (by simpa using h)]

/-- A step with nothing to complete is a bus cycle. -/
theorem step_bus {s : State} (h : completing s = none) :
    step s = busCycle Config.actual s := by simp [step, cycle, h]

/-- A step with a bus event and nothing to complete handles the event. -/
theorem step_event {s : State} {e : BusEvent} {rest : List BusEvent} (h : completing s = none)
    (hb : s.bus = e :: rest) :
    step s = handleEvent Config.actual e { tick s with bus := rest } := by
  simp [step_bus h, busCycle, hb]

/-- Everything a step can do, when it does not stop the machine. -/
theorem step_next {s t : State} (h : step s = .next t) :
    (∃ w i, completing s = some w ∧ decode w = .ok i ∧ exec i s = .next t) ∨
    (∃ w e, completing s = some w ∧ decode w = .error e ∧ t = complete .illegalCommand s) ∨
    (completing s = none ∧ s.bus = [] ∧ t = tick s) ∨
    (∃ e rest, completing s = none ∧ s.bus = e :: rest ∧
      handleEvent Config.actual e { tick s with bus := rest } = .next t) := by
  cases hc : completing s with
  | some w =>
    simp only [step, cycle, hc, completeWord] at h
    cases hd : decode w with
    | ok i => exact .inl ⟨w, i, rfl, hd, by simpa [hd] using h⟩
    | error e => exact .inr (.inl ⟨w, e, rfl, hd, by simpa [hd, eq_comm] using h⟩)
  | none =>
    rw [step_bus hc, busCycle] at h
    cases hb : s.bus with
    | nil => exact .inr (.inr (.inl ⟨rfl, rfl, by simpa [hb, eq_comm] using h⟩))
    | cons e rest => exact .inr (.inr (.inr ⟨e, rest, rfl, rfl, by simpa [hb] using h⟩))

end Sys2Proof.Machine
end

