-- ==== Sys2Proof/Laws/HostProgram.lean ====
section
/-! SUPPORT. What a host program's accesses do to the block, said once: the unfolding of `runProg`, the
delivery of one bus event, and the bounds. -/

namespace Sys2Proof.Machine

/-! ## Running a program -/

@[simp] theorem runProg_done {α : Type} (f : StepFn) (a : α) (s : State) :
    runProg f (.done a) s = some (a, s) := rfl

@[simp] theorem runProg_wr {α : Type} (f : StepFn) (o : Nat) (v : Word) (p : HostProg α)
    (s : State) :
    runProg f (.wr o v p) s = (deliver f (.write o 4 v) s).bind (runProg f p) := rfl

@[simp] theorem runProg_rd {α : Type} (f : StepFn) (o : Nat) (p : Word → HostProg α) (s : State) :
    runProg f (.rd o p) s =
      (deliver f (.read o 4) s).bind fun t => runProg f (p t.rdata) t := rfl

@[simp] theorem runProg_wait {α : Type} (f : StepFn) (p : HostProg α) (s : State) :
    runProg f (.wait p) s = (waitIdle f (s.cyclesLeft + 1) s).bind (runProg f p) := rfl

@[simp] theorem optStep_true {α : Type} (f : HostProg α → HostProg α) (p : HostProg α) :
    optStep true f p = f p := rfl

@[simp] theorem optStep_false {α : Type} (f : HostProg α → HostProg α) (p : HostProg α) :
    optStep false f p = p := rfl

/-! ## Delivering one bus event -/

/-- Handling an event leaves the events behind it where they are. -/
theorem handleEvent_bus {c : Config} {e : BusEvent} {s t : State}
    (h : handleEvent c e s = .next t) : t.bus = s.bus := by
  rcases handleEvent_next h with ⟨o, w, -, -, -, rfl⟩ | ⟨o, w, -, -, -, rfl⟩ |
    ⟨o, w, v, -, -, -, rfl⟩ | ⟨o, w, v, -, -, -, rfl⟩ | ⟨-, rfl⟩ | ⟨-, rfl⟩
  · rw [readAccess_eq]
  · rfl
  · rcases writeAccess_cases c (regAt o) v s with h | ⟨h, -⟩ | ⟨-, h⟩ | ⟨-, -, h⟩ | ⟨-, h⟩
    · rw [h]
    · rw [h]; rfl
    · rw [h]; rfl
    · rw [h]; rfl
    · rcases h with ⟨-, h⟩ | ⟨-, h⟩ | ⟨j, -, -, h⟩ | ⟨j, -, h⟩ | ⟨-, h⟩ | ⟨j, -, h⟩ | ⟨-, h⟩ |
        ⟨o, -, h⟩ <;> simp [h, accept]
  · rfl
  · rfl
  · rfl

/-- Where no command completes, an event that does not stop the block is handled in one cycle. -/
theorem deliver_bus {s t : State} {e : BusEvent} (hc : completing s = none)
    (h : handleEvent Config.actual e { tick s with bus := [] } = .next t) :
    deliver step e s = some t := by
  have hs : step { s with bus := [e] } = .next t :=
    (step_event (s := { s with bus := [e] }) hc rfl).trans h
  have hb : t.bus = [] := handleEvent_bus h
  simp [deliver, hs, hb]

/-- Where a command completes to `u`, the event is handled in the cycle after it. -/
theorem deliver_completing {s u t : State} {e : BusEvent}
    (hs : step { s with bus := [e] } = .next u) (hu : u.bus = [e]) (hc : completing u = none)
    (h : handleEvent Config.actual e { tick u with bus := [] } = .next t) :
    deliver step e s = some t := by
  have hu' : step u = .next t := (step_event hc hu).trans h
  simp [deliver, hs, hu, hu']

/-! ## The bounds -/

/-- `encrypt_bound` succeeds exactly where `encrypt` does (R183). -/
theorem encryptBound_ok {c : Config} {rk iv : Bytes16} {x : List Byte} {wl wu : Bool}
    {b : List Byte × List Byte} :
    encryptBound c rk x wl wu iv = .ok b ↔
      ∃ ct, encrypt c rk x iv = .ok ct ∧ b = boundsOf wl wu (encryptBody c rk x).1 ct := by
  unfold encryptBound
  cases encrypt c rk x iv <;> simp [Except.map, eq_comm]

end Sys2Proof.Machine
end

