-- ==== Sys2Proof/Laws/PerInstr.lean ====
section
/-! SUPPORT. Facts about every command, one lemma per constructor of `Instr`. -/

namespace Sys2Proof.Laws

/-- R81, R85: the word of a well-formed command has every reserved bit 0. -/
def ReservedBitsZero.Statement (i : Instr) : Prop := WellFormed i → encode i &&& reservedMask = 0

theorem ReservedBitsZero.nop : ReservedBitsZero.Statement .nop := fun _ => by decide

theorem ReservedBitsZero.keyInit : ReservedBitsZero.Statement .keyInit := fun _ => by decide

theorem ReservedBitsZero.keyAdv : ReservedBitsZero.Statement .keyAdv := fun _ => by decide

theorem ReservedBitsZero.keyClear : ReservedBitsZero.Statement .keyClear := fun _ => by decide

theorem ReservedBitsZero.splitKey : ReservedBitsZero.Statement .splitKey := fun _ => by decide

/-- A byte in the IMM8 field leaves every reserved bit 0, under each opcode that uses the field. -/
theorem imm8_reserved {a : Nat} (h : a ≤ 255) :
    assemble 0x05 0 false false a &&& reservedMask = 0 ∧
    assemble 0x06 0 false false a &&& reservedMask = 0 ∧
    assemble 0x21 0 false false a &&& reservedMask = 0 := by
  have hall : ∀ b : Fin 256,
      assemble 0x05 0 false false b &&& reservedMask = 0 ∧
      assemble 0x06 0 false false b &&& reservedMask = 0 ∧
      assemble 0x21 0 false false b &&& reservedMask = 0 := by decide +kernel
  exact hall ⟨a, by omega⟩

theorem ReservedBitsZero.rotl8 (amount : Nat) : ReservedBitsZero.Statement (.rotl8 amount) :=
  fun h => (imm8_reserved (by simpa [WellFormed, Instr.wellFormed] using h)).1

theorem ReservedBitsZero.rotr8 (amount : Nat) : ReservedBitsZero.Statement (.rotr8 amount) :=
  fun h => (imm8_reserved (by simpa [WellFormed, Instr.wellFormed] using h)).2.1

theorem ReservedBitsZero.encBlock (count : Nat) (adv record : Bool) :
    ReservedBitsZero.Statement (.encBlock count adv record) := fun h => by
  have hall : ∀ (n : Fin 8) (a r : Bool), encode (.encBlock n a r) &&& reservedMask = 0 := by decide
  have hn : count ≤ 7 := by simpa [WellFormed, Instr.wellFormed] using h
  exact hall ⟨count, by omega⟩ adv record

theorem ReservedBitsZero.decBlock (adv : Bool) : ReservedBitsZero.Statement (.decBlock adv) :=
  fun _ => by revert adv; decide

theorem ReservedBitsZero.mdClear : ReservedBitsZero.Statement .mdClear := fun _ => by decide

theorem ReservedBitsZero.mdPush (len : Nat) : ReservedBitsZero.Statement (.mdPush len) :=
  fun h => (imm8_reserved (by simpa [WellFormed, Instr.wellFormed] using h)).2.2

theorem ReservedBitsZero.mdEncrypt : ReservedBitsZero.Statement .mdEncrypt := fun _ => by decide

theorem ReservedBitsZero.mdDecrypt : ReservedBitsZero.Statement .mdDecrypt := fun _ => by decide

end Sys2Proof.Laws
end

