-- ==== Sys2Proof/Tests/Aes.lean ====
section
/-! SUPPORT. AES-128 as FIPS-197 defines it, for the tests alone: the model takes AES as a parameter
(R12, A5), and the spec's vectors with AES values (V-A0, V-M, V-H) need the standard's values. -/

namespace Sys2Proof.Tests

open Machine

/-- The S-box as one number, entry 0 its most significant byte. -/
def sbox : Nat :=
  0x637c777bf26b6fc53001672bfed7ab76ca82c97dfa5947f0add4a2af9ca472c0b7fd9326363ff7cc34a5e5f171d8311504c723c31896059a071280e2eb27b27509832c1a1b6e5aa0523bd6b329e32f8453d100ed20fcb15b6acbbe394a4c58cfd0efaafb434d338545f9027f503c9fa851a3408f929d38f5bcb6da2110fff3d2cd0c13ec5f974417c4a77e3d645d197360814fdc222a908846eeb814de5e0bdbe0323a0a4906245cc2d3ac629195e479e7c8376d8dd54ea96c56f4ea657aae08ba78252e1ca6b4c6e8dd741f4bbd8b8a703eb5664803f60e613557b986c11d9ee1f8981169d98e949b1e87e9ce5528df8ca1890dbfe6426841992d0fb054bb16

/-- The inverse S-box as one number, entry 0 its most significant byte. -/
def invSbox : Nat :=
  0x52096ad53036a538bf40a39e81f3d7fb7ce339829b2fff87348e4344c4dee9cb547b9432a6c2233dee4c950b42fac34e082ea16628d924b2765ba2496d8bd12572f8f66486689816d4a45ccc5d65b6926c704850fdedb9da5e154657a78d9d8490d8ab008cbcd30af7e45805b8b34506d02c1e8fca3f0f02c1afbd0301138a6b3a9111414f67dcea97f2cfcef0b4e67396ac7422e7ad3585e2f937e81c75df6e47f11a711d29c5896fb7620eaa18be1bfc563e4bc6d279209adbc0fe78cd5af41fdda8338807c731b11210592780ec5f60517fa919b54a0d2de57a9f93c99cefa0e03b4dae2af5b0c8ebbb3c83539961172b047eba77d626e169146355210c7d

/-- Entry `x` of a table of 256 bytes. -/
def lookup (table : Nat) (x : Byte) : Byte := BitVec.ofNat 8 (table >>> (8 * (255 - x.toNat)))

/-- Multiplication by x in GF(2^8). -/
def xtime (b : Byte) : Byte := if b.getLsbD 7 then b <<< 1 ^^^ 0x1B else b <<< 1

/-- Multiplication by a constant below 16 in GF(2^8). -/
def gmul (n : Nat) (b : Byte) : Byte :=
  let b2 := xtime b
  let b4 := xtime b2
  let b8 := xtime b4
  (if n.testBit 0 then b else 0) ^^^ (if n.testBit 1 then b2 else 0)
    ^^^ (if n.testBit 2 then b4 else 0) ^^^ (if n.testBit 3 then b8 else 0)

/-- Build a block from its bytes. -/
def ofFn16 (f : Nat → Byte) : Bytes16 := ofBytes ((List.range 16).map f)

/-- SubBytes then ShiftRows. -/
def subShift (s : Bytes16) : Bytes16 :=
  ofFn16 fun i => lookup sbox (byteAt s ((i + 4 * (i % 4)) % 16))

/-- The inverse of `subShift`. -/
def invSubShift (s : Bytes16) : Bytes16 :=
  ofFn16 fun i => lookup invSbox (byteAt s ((i + 12 * (i % 4)) % 16))

/-- MixColumns with the circulant row `m0 m1 m2 m3`. -/
def mix (m0 m1 m2 m3 : Nat) (s : Bytes16) : Bytes16 :=
  ofFn16 fun i =>
    let at4 (r : Nat) := byteAt s (i / 4 * 4 + (i + r) % 4)
    gmul m0 (at4 0) ^^^ gmul m1 (at4 1) ^^^ gmul m2 (at4 2) ^^^ gmul m3 (at4 3)

/-- The next round key. -/
def nextKey (k : Bytes16) (rcon : Byte) : Bytes16 :=
  let w := wordAt k 3
  let t := packWord (lookup sbox (byteAt k 13) ^^^ rcon) (lookup sbox (byteAt k 14))
    (lookup sbox (byteAt k 15)) (lookup sbox (byteAt k 12))
  let w0 := wordAt k 0 ^^^ t
  let w1 := wordAt k 1 ^^^ w0
  let w2 := wordAt k 2 ^^^ w1
  ofWords w0 w1 w2 (w ^^^ w2)

/-- The round constants. -/
def rcons : List Byte := [0x01, 0x02, 0x04, 0x08, 0x10, 0x20, 0x40, 0x80, 0x1B, 0x36]

/-- The round keys after the first, in order. -/
def roundKeys (k : Bytes16) : List Byte → List Bytes16
  | [] => []
  | r :: rs => nextKey k r :: roundKeys (nextKey k r) rs

/-- The rounds of encryption; the last one has no MixColumns. -/
def encRounds : Bytes16 → List Bytes16 → Bytes16
  | s, [] => s
  | s, [k] => subShift s ^^^ k
  | s, k :: ks => encRounds (mix 2 3 1 1 (subShift s) ^^^ k) ks

/-- AES-128 encryption. -/
def aesEnc (k b : Bytes16) : Bytes16 := encRounds (b ^^^ k) (roundKeys k rcons)

/-- The rounds of decryption over the round keys in reverse order. -/
def decRounds : Bytes16 → List Bytes16 → Bytes16
  | s, [] => s
  | s, [k] => invSubShift s ^^^ k
  | s, k :: ks => decRounds (mix 14 11 13 9 (invSubShift s ^^^ k)) ks

/-- AES-128 decryption. -/
def aesDec (k b : Bytes16) : Bytes16 :=
  match (k :: roundKeys k rcons).reverse with
  | [] => b
  | last :: ks => decRounds (b ^^^ last) ks

end Sys2Proof.Tests
end

