-- ==== Sys2Proof/Tests/Slice0.lean ====
section
/-! SUPPORT. Tests of the model against values written out in spec/ (the vector of
`95_test_vectors.md` is named in each docstring), and for every statement that has hypotheses a
witness: a concrete state and operands that meet them. -/

-- The tests are many small kernel evaluations: checked one after another they need one stack.
set_option Elab.async false

namespace Sys2Proof.Tests

open Machine

/-! ## The test configuration of `95_test_vectors.md` section 0 -/

/-- RESHUFFLE_T. -/
def reshuffleT (k : Bytes16) : Bytes16 :=
  ofFn16 fun i => rotl8 (byteAt k ((i + 1) % 16)) 1 ^^^ 0x5A

/-- RESHUFFLE_T, FIPS-197 AES, KEY_READBACK = true, latency 1. -/
def testConfig : Config where
  reshuffle := reshuffleT
  aesEnc := aesEnc
  aesDec := aesDec
  keyReadback := true
  extraLatency := fun _ _ => 0
  basePage := 0
  draw := fun n => BitVec.ofNat 32 n

/-- A configuration that is easy to evaluate, with KEY_READBACK = false. -/
def plain : Implementation where
  reshuffle := id
  keyReadback := false
  extraLatency := fun _ _ => 2
  basePage := 1
  draw := fun n => BitVec.ofNat 32 n

def k1 : Bytes16 := 0x000102030405060708090A0B0C0D0E0F
def k2 : Bytes16 := 0x010000000000000200000003203FFF77
def kMax : Bytes16 := 0xFFFFFFFFFFFFFFFFFFFFFFFF1F1F1F00
def iv1 : Bytes16 := 0x101112131415161718191A1B1C1D1E1F

/-- The RootKey and the IV are loaded; there is no WorkingKey. -/
def loaded : State := { State.reset with rk := k1, rkv := 0b1111, iv := iv1, ivv := 0b1111 }

/-- RootKey and WorkingKey are K1, the IV is IV1. -/
def keyed : State := { loaded with wk := k1, wkValid := true }

/-- `s` with these bus events waiting. -/
def onBus (es : List BusEvent) (s : State) : State := { s with bus := es }

/-- The outcome is a next state that has the property. -/
def nextHas (p : State → Bool) : Host.Outcome State Fault Refusal → Bool
  | .next t => p t
  | .fault _ => false
  | .refused _ => false

/-- The pseudocode's answer is a success whose state has the property. -/
def okHas (p : State → Bool) : Except ErrorCode State → Bool
  | .ok t => p t
  | .error _ => false

/-- `s` with the records `bs`, in LBUF. -/
def withRecords (bs : List Byte) (s : State) : State :=
  { s.setLbuf bs with mdcount := BitVec.ofNat 8 bs.length }

/-- `s` with the bytes `bs` in MBUF and their number in MDLEN. -/
def withFooter (bs : List Byte) (s : State) : State :=
  { s.setMbuf bs with mdlen := BitVec.ofNat 9 bs.length }

/-- The invariant of a state that holds no byte, from facts that can be evaluated. -/
theorem inv_of_no_bytes {s : State} (hm : s.mem = [])
    (h : s.blklen.toNat ≤ 4 ∧ s.ctlen.toNat ≤ 127 ∧ s.mdblocks.toNat ≤ 16 ∧
      (s.wkValid = false → s.wk = 0) ∧ (s.wkValid = true → s.rkValid = true) ∧
      s.pend.isSome = s.busy ∧ (1 ≤ s.cyclesLeft ↔ s.busy = true) ∧
      (s.done = true → s.busy = false) ∧
      (∀ j : Fin 4, s.rkv.getLsbD j = false → wordAt s.rk j = 0) ∧
      (∀ j : Fin 4, s.ivv.getLsbD j = false → wordAt s.iv j = 0)) : Inv s := by
  obtain ⟨h1, h2, h3, h4, h5, h6, h7, h8, h9, h10⟩ := h
  constructor <;> simp_all

/-! ## Well-formedness smoke: an ill-formed term for each check -/

theorem test_wellformed_refuses_rotl8_256 : (Instr.rotl8 256).wellFormed = false := by decide
theorem test_wellformed_refuses_rotr8_256 : (Instr.rotr8 256).wellFormed = false := by decide
theorem test_wellformed_refuses_mdPush_256 : (Instr.mdPush 256).wellFormed = false := by decide
theorem test_wellformed_refuses_encBlock_8 : (Instr.encBlock 8 true true).wellFormed = false := by
  decide

/-! ## Decoding: words written out from R83 and R87, and the vectors V-C1 to V-C19 -/

theorem test_decode_nop : decode 0x00000000 = .ok .nop := rfl
theorem test_decode_keyInit : decode 0x00000001 = .ok .keyInit := rfl
theorem test_decode_keyAdv : decode 0x00000002 = .ok .keyAdv := rfl
theorem test_decode_keyClear : decode 0x00000003 = .ok .keyClear := rfl
theorem test_decode_splitKey : decode 0x00000004 = .ok .splitKey := rfl
/-- IMM8 = 9 is bits 23:16 = 0000_1001, OPC = 0000_0101. -/
theorem test_decode_rotl8 : decode 0b00000000_00001001_00000000_00000101 = .ok (.rotl8 9) := rfl
/-- IMM8 = 255, OPC = 0000_0110. -/
theorem test_decode_rotr8 : decode 0b00000000_11111111_00000000_00000110 = .ok (.rotr8 255) := rfl
/-- REC is bit 13, ADV bit 12, N = 011 bits 10:8, OPC = 0001_0000. -/
theorem test_decode_encBlock :
    decode 0b00000000_00000000_00110011_00010000 = .ok (.encBlock 3 true true) := rfl
/-- ADV alone, and REC alone. -/
theorem test_decode_encBlock_flags :
    decode 0x00001110 = .ok (.encBlock 1 true false) ∧
    decode 0x00002110 = .ok (.encBlock 1 false true) := ⟨rfl, rfl⟩
theorem test_decode_encBlock_7 : decode 0x00000710 = .ok (.encBlock 7 false false) := rfl
theorem test_decode_decBlock :
    decode 0x00001011 = .ok (.decBlock true) ∧ decode 0x00000011 = .ok (.decBlock false) :=
  ⟨rfl, rfl⟩
theorem test_decode_mdClear : decode 0x00000020 = .ok .mdClear := rfl
/-- IMM8 = 56 is bits 23:16 = 0011_1000, OPC = 0010_0001. -/
theorem test_decode_mdPush : decode 0b00000000_00111000_00000000_00100001 = .ok (.mdPush 56) := rfl
theorem test_decode_mdEncrypt : decode 0x00000022 = .ok .mdEncrypt := rfl
theorem test_decode_mdDecrypt : decode 0x00000023 = .ok .mdDecrypt := rfl

/-- V-C14, V-C17, V-C19: unassigned opcodes. -/
theorem test_decode_unassigned :
    decode 0x00000024 = .error (.unassignedOpcode 0x24) ∧
    decode 0x00000012 = .error (.unassignedOpcode 0x12) ∧
    decode 0x00000007 = .error (.unassignedOpcode 0x07) := ⟨rfl, rfl, rfl⟩

/-- V-C9, V-C12, V-C16, V-C18: reserved bits. -/
theorem test_decode_reserved :
    decode 0x00000800 = .error .reservedBit ∧ decode 0x01000000 = .error .reservedBit ∧
    decode 0x00004010 = .error .reservedBit ∧ decode 0x00008000 = .error .reservedBit :=
  ⟨rfl, rfl, rfl, rfl⟩

/-- V-C10, V-C11, V-C13, V-C15: fields the command does not use. -/
theorem test_decode_unused :
    decode 0x00000111 = .error .unusedField ∧ decode 0x00002011 = .error .unusedField ∧
    decode 0x00010001 = .error .unusedField ∧ decode 0x00001005 = .error .unusedField :=
  ⟨rfl, rfl, rfl, rfl⟩

/-- The table's numbering: one row, and the opcode byte alone. -/
theorem test_decodeTableWord :
    decodeTableWord 32 0x00380021 = some (.mdPush 56) ∧ decodeTableWord 8 0x23 = some .mdDecrypt :=
  ⟨rfl, rfl⟩

/-! ## Key schedule commands -/

/-- V-B2, V-C1: NOP after reset completes with code 0. -/
theorem test_nop : nextHas (fun t => t.statusWord == 0x00000002)
    (step (State.reset.withFetchWord 32 0)) = true := by decide

/-- P1: KEY_INIT copies K1; STATUS shows DONE, RK_VALID, WK_VALID and IV_VALID. -/
theorem test_keyInit : nextHas (fun t => t.wk == k1 && t.statusWord == 0x00000072)
    (exec .keyInit loaded) = true := by decide

/-- V-B3: KEY_INIT after one RKEY write gives STATUS 0x00000106. -/
theorem test_keyInit_partial : nextHas (fun t => t.wk == 0 && t.statusWord == 0x00000106)
    (exec .keyInit { State.reset with rkv := 0b0001 }) = true := by decide

/-- V-S1, V-S5: KEY_ADV under RESHUFFLE_T. -/
theorem test_keyAdv : okHas (fun t => t.wk == 0x585E5C525056544A484E4C424046445A)
    (keyAdv testConfig keyed) = true := by decide +kernel

/-- V-S6: KEY_ADV without a WorkingKey gives code 1. -/
theorem test_keyAdv_no_key : nextHas (fun t => t.errcode == .invalidKey && t.wk == 0)
    (exec .keyAdv loaded) = true := by decide

/-- P1: KEY_CLEAR leaves STATUS 0x00000052. -/
theorem test_keyClear : nextHas (fun t => t.wk == 0 && t.statusWord == 0x00000052)
    (exec .keyClear keyed) = true := by decide

/-- V-K2: SPLIT_KEY under K2 (the raw shift bytes are not reduced). -/
theorem test_splitKey :
    okHas (fun t => t.ct == 0x01000000000000020000000301000001 && t.blk == 0x203FFF77)
      (splitKeyCmd testConfig { keyed with wk := k2 }) = true ∧
    (splitKey k2).shift0 = 0 ∧ (splitKey k2).shift1 = 31 ∧ (splitKey k2).shift2 = 31 := by decide

/-- V-K6: SPLIT_KEY without KEY_READBACK is code 5, checked before the key. -/
theorem test_splitKey_hidden :
    splitKeyCmd plain.toConfig State.reset = .error .illegalCommand := rfl

/-- V-R2, V-R8: ROTL8 9 and ROTL8 3; bits 31:8 become 0. -/
theorem test_rotl8 :
    nextHas (fun t => t.blk == 0x03) (exec (.rotl8 9) { State.reset with blk := 0x81 }) = true ∧
    nextHas (fun t => t.blk == 0xE4) (exec (.rotl8 3) { State.reset with blk := 0xFFFFFF9C }) = true
    := by decide

/-- V-R6, V-R3: ROTL8 255 and ROTL8 0. -/
theorem test_rotl8_edges :
    nextHas (fun t => t.blk == 0x80) (exec (.rotl8 255) { State.reset with blk := 0x01 }) = true ∧
    nextHas (fun t => t.blk == 0x12) (exec (.rotl8 0) { State.reset with blk := 0x12 }) = true := by
  decide

/-- V-R7, V-R9: ROTR8 255 and ROTR8 3. -/
theorem test_rotr8 :
    nextHas (fun t => t.blk == 0x01) (exec (.rotr8 255) { State.reset with blk := 0x80 }) = true ∧
    nextHas (fun t => t.blk == 0x9C) (exec (.rotr8 3) { State.reset with blk := 0xE4 }) = true := by
  decide

/-! ## Block cipher commands -/

/-- V-E19, V-E20: ENC_BLOCK 1 uses the low byte only, and N = 2 gives the same value. -/
theorem test_encBlock :
    nextHas (fun t => t.ct == 0xA15C32868FCE0F && t.ctlen == 56)
      (exec (.encBlock 1 false false) { keyed with blk := 0xFFFFFF61 }) = true ∧
    nextHas (fun t => t.ct == 0xA15C32868FCE0F && t.ctlen == 56)
      (exec (.encBlock 2 false false) { keyed with blk := 0x61 }) = true := by decide +kernel

/-- V-E25: ENC_BLOCK 3, adv, rec. -/
theorem test_encBlock_adv_rec :
    okHas (fun t => t.ct == 0x31525D32868FCE0F && t.ctlen == 62 && t.mem == [(0x200, 62)]
        && t.mdcount == 1 && t.wk == 0x585E5C525056544A484E4C424046445A)
      (encBlock testConfig 3 true true { keyed with blk := 0x00616263 }) = true := by decide +kernel

/-- V-E11, V-E17, V-E18: the block transform under K2 and KM. -/
theorem test_encryptValue :
    encryptValue k2 0 = 0x4000008000000181000001 ∧
    encryptValue kMax 0 = 0x2000000020000000400000007FFFFFFF ∧
    encryptValue kMax 0xFFFFFFFF = 0x4000000000000000400000007FFFFFFF := by decide +kernel

/-- V-D4, V-D5: DEC_BLOCK of E(0x61) and of E(0x616263). -/
theorem test_decBlock :
    nextHas (fun t => t.blk == 0x61 && t.blklen == 1)
      (exec (.decBlock false) { keyed with ct := 0xA15C32868FCE0F }) = true ∧
    nextHas (fun t => t.blk == 0x616263 && t.blklen == 3)
      (exec (.decBlock false) { keyed with ct := 0x31525D32868FCE0F }) = true := by decide +kernel

/-- V-D16, V-D7: a failing DEC_BLOCK with adv leaves the WorkingKey and BLK. -/
theorem test_decBlock_fails :
    nextHas (fun t => t.errcode == .decryptionFailure && t.wk == k1 && t.blk == 7)
      (exec (.decBlock true) { keyed with blk := 7 }) = true := by decide +kernel

/-- V-D2, V-D3, V-D8, V-D10, V-D12: the inverse. -/
theorem test_decryptValue :
    decryptValue k1 0xA12C32868FCE10 = some 1 ∧ decryptValue k1 0xA12C32868FCE0E = some 0 ∧
    decryptValue k1 0x0C0D0E0F = none ∧ decryptValue kMax (2 ^ 127) = none ∧
    decryptValue k1 (0x8000A12B32868FCE0F + 2 ^ 39) = none := by decide +kernel

/-! ## Metadata codec commands -/

/-- V-A0: the AES known answer, and its inverse. -/
theorem test_aes :
    aesEnc k1 0x00112233445566778899AABBCCDDEEFF = 0x69C4E0D86A7B0430D8CDB78070B4C55A ∧
    aesDec k1 0x69C4E0D86A7B0430D8CDB78070B4C55A = 0x00112233445566778899AABBCCDDEEFF := by
  decide +kernel

/-- R144: MD_CLEAR empties both buffers and the counts. -/
theorem test_mdClear : nextHas (fun t => t.mem == [] && t.mdcount == 0 && t.mdlen == 0)
    (exec .mdClear { keyed with mem := [(0x200, 1), (0x3FF, 2)], mdcount := 1, mdlen := 5 }) = true
    := by decide +kernel

/-- V-M17: a third MD_PUSH gives LBUF word 0 = 0x03070C00 and MDCOUNT 3. -/
theorem test_mdPush : nextHas (fun t => t.mem.readWord 0x200 == 0x03070C00 && t.mdcount == 3)
    (exec (.mdPush 12) { State.reset with mem := [(0x200, 3), (0x201, 7)], mdcount := 2 }) = true := by
  decide

/-- V-M18: the 256th MD_PUSH gives code 6 and MDCOUNT stays 255. -/
theorem test_mdPush_full : nextHas (fun t => t.errcode == .mdOverflow && t.mdcount == 255)
    (exec (.mdPush 1) { State.reset with mdcount := 255 }) = true := by decide

/-- V-M3: MD_ENCRYPT of the record [56]. -/
theorem test_mdEncrypt :
    okHas (fun t => ofBytes (t.mem.readBytes 0x300 16) == 0x00ADC45B7A1125CC6266BBE3F7816542
        && t.mdlen == 16 && t.mdblocks == 1)
      (mdEncrypt testConfig (withRecords [56] loaded)) = true := by decide +kernel

/-- V-M6: sixteen records 127 make a footer of two blocks. -/
theorem test_footer_two_blocks :
    footer testConfig (List.replicate 16 127) k1 iv1 =
      beBytes 32 0x0801826ED1D5CE9486856972C590C7D9BDC8F3C668F8E4793F1A25C4AF52F872 := by
  decide +kernel

/-- V-M14: four junk bytes before the footer of [3, 7, 12] are ignored. -/
theorem test_mdDecrypt :
    okHas (fun t => t.mem.readWord 0x200 == 0x03070C00 && t.mdcount == 3 && t.mdblocks == 1)
      (mdDecrypt testConfig
        (withFooter (beBytes 20 0x5C936F235825263EC940BCBF15AC002E) loaded)) = true := by
  decide +kernel

/-- V-M12: the same footer under another IV fails with code 3. -/
theorem test_mdDecrypt_wrong_iv :
    undo testConfig (beBytes 16 0x5C936F235825263EC940BCBF15AC002E) k1 0 = none := by
  decide +kernel

/-! ## Bus -/

/-- V-B4, V-B8, V-B13: STATUS is cleared by ones, MDLEN keeps 9 bits, a locked RKEY write is dropped. -/
theorem test_bus_writes :
    nextHas (fun t => t.statusWord == 0x00000110) (step (onBus [.write 0x008 4 0xFFFFFFFF]
      { State.reset with rkv := 0b1111, done := true, err := true, errcode := .invalidKey })) = true ∧
    nextHas (fun t => t.mdlen == 0x1FF) (step (onBus [.write 0x074 4 0xFFFFFFFF] State.reset)) = true ∧
    nextHas (fun t => t.rk == k1 && t.werr)
      (step (onBus [.write 0x010 4 0] { keyed with rkLock := true })) = true := by decide

/-- V-B1, V-B10: ID and CAPS after reset; a misaligned read gives 0 and a byte write sets WERR. -/
theorem test_bus_reads :
    readReg testConfig State.reset (regAt 0x000) = 0x424D4407 ∧
    readReg testConfig State.reset (regAt 0x07C) = 0x000001FF ∧
    readReg plain.toConfig State.reset (regAt 0x07C) = 0x000000FF ∧
    nextHas (fun t => t.rdata == 0) (step (onBus [.read 0x001 4] keyed)) = true ∧
    nextHas (fun t => t.werr && t.blk == 0) (step (onBus [.write 0x040 1 7] keyed)) = true := by
  decide

/-! ## Host procedures -/

/-- V-H1: the body and the records of "abc"; with the footer of V-M9 and IV1 they are its ciphertext. -/
theorem test_encrypt_abc :
    encryptBody testConfig k1 [0x61, 0x62, 0x63] = (beBytes 8 0x31525D32868FCE0F, [62]) ∧
    footer testConfig [62] k1 iv1 = beBytes 16 0x8E8AFA90963B1B0D2008E45BDE65A732 := by
  decide +kernel

/-- V-H2: the body and the records of "apple" (99 bits, right-aligned). -/
theorem test_encrypt_apple :
    encryptBody testConfig k1 [0x61, 0x70, 0x70, 0x6C, 0x65] =
      (beBytes 13 0x050AE194347E707C69599F0C7A, [56, 43]) := by decide +kernel

/-- V-H12: the bounds of "abc"; a bound that is not wanted is the ciphertext. -/
theorem test_bound_abc :
    let body := beBytes 8 0x31525D32868FCE0F
    let ct := body ++ beBytes 16 0x8E8AFA90963B1B0D2008E45BDE65A732 ++ toBytes iv1
    boundsOf true true body ct = (body ++ List.replicate 32 0x00, body ++ List.replicate 32 0xFF) ∧
    (boundsOf false true body ct).1 = ct := by decide +kernel

/-- V-H11: "abc" with bit 0 of byte 7 flipped decrypts to "abb". -/
theorem test_decrypt_tampered :
    decryptBytes testConfig k1 (beBytes 8 0x31525D32868FCE0E
      ++ beBytes 16 0x8E8AFA90963B1B0D2008E45BDE65A732 ++ toBytes iv1) =
      some [0x61, 0x62, 0x62] := by decide +kernel

/-- V-H5, V-H24: a zero byte decrypts to nothing, and 15 bytes fail. -/
theorem test_decrypt_edges :
    decryptBytes testConfig k1 (beBytes 7 0xA12BB2868FCE0F
      ++ beBytes 16 0x00ADC45B7A1125CC6266BBE3F7816542 ++ toBytes iv1) = some [] ∧
    decryptBytes testConfig k1 (List.replicate 15 0) = none := by decide +kernel

/-- R182: a WERR seen by the STATUS read of the last step is a host bug, a short input alone is not. -/
theorem test_sequence_werr :
    (runProg (cycle testConfig exec) (decryptSeq []) keyed).map Prod.fst =
      some (.err .decryptionFailure) ∧
    (runProg (cycle testConfig exec) (decryptSeq []) { keyed with werr := true }).map Prod.fst =
      some .hostBug := by decide +kernel

/-- V-B3, V-B6: a key and an IV of which one word was not written are not valid. -/
theorem test_partly_written :
    ({ State.reset with rkv := 0b0111, ivv := 0b1110 } : State).statusWord = 0x00000000 := by decide

/-- R234: the boot order, with every option and with none. -/
theorem test_boot :
    ((runProg (cycle testConfig exec) (bootSeq true k1 true true) State.reset).map fun r =>
      (r.1, r.2.rk, r.2.rkValid, r.2.ctrlWord)) =
        some (some (0x424D4407, 0x000001FF), k1, true, 0x00000003) ∧
    ((runProg (cycle testConfig exec) (bootSeq false k1 false false) State.reset).map fun r =>
      (r.1, r.2.rk, r.2.rkValid, r.2.ctrlWord)) = some (none, k1, true, 0x00000000) := by
  decide +kernel

/-! ## Witnesses: concrete states and operands that meet the hypotheses of each statement -/

theorem keyed_inv : Inv keyed := inv_of_no_bytes rfl (by decide)
theorem loaded_inv : Inv loaded := inv_of_no_bytes rfl (by decide)

theorem witness_DecodeOfEncode : WellFormed (.rotl8 255) ∧ WellFormed (.rotr8 0) ∧
    WellFormed (.encBlock 7 true true) ∧ WellFormed (.mdPush 255) := by decide

theorem witness_EncodeOfDecode : decode 0x00FF0005 = .ok (.rotl8 255) ∧
    decode 0x00003710 = .ok (.encBlock 7 true true) := ⟨rfl, rfl⟩

/-- One word for each range of each clause, at its ends. -/
theorem witness_ReservedWordsAreIllegal :
    (0x00000800 : Word) &&& 0xFF00C800 ≠ 0 ∧ (0x00008000 : Word) &&& 0xFF00C800 ≠ 0 ∧
    (0x80000000 : Word) &&& 0xFF00C800 ≠ 0 ∧
    (0x07 ≤ (0x00000007 : Word).toNat % 256 ∧ (0x0000000F : Word).toNat % 256 ≤ 0x0F) ∧
    (0x12 ≤ (0x00000012 : Word).toNat % 256 ∧ (0x0000001F : Word).toNat % 256 ≤ 0x1F) ∧
    (0x24 ≤ (0x00000024 : Word).toNat % 256 ∧ 0x24 ≤ (0x000000FF : Word).toNat % 256) ∧
    ((0x00010001 : Word).extractLsb' 16 8 ≠ 0 ∧ (0x00010001 : Word).toNat % 256 = 0x01) ∧
    ((0x00000111 : Word).extractLsb' 8 3 ≠ 0 ∧ (0x00000111 : Word).toNat % 256 = 0x11) ∧
    ((0x00002011 : Word).getLsbD 13 = true ∧ (0x00002011 : Word).toNat % 256 = 0x11) ∧
    ((0x00001005 : Word).getLsbD 12 = true ∧ (0x00001005 : Word).toNat % 256 = 0x05) := by decide

theorem witness_StepRunsDecodedCommand : (withCommand 0x00003310 keyed).busy = true ∧
    (withCommand 0x00003310 keyed).cyclesLeft ≤ 1 ∧
    (withCommand 0x00003310 keyed).pend = some 0x00003310 ∧
    decode 0x00003310 = .ok (.encBlock 3 true true) := ⟨rfl, by decide, rfl, rfl⟩

theorem witness_IllegalWordCompletesWithCode5 : (withCommand 0x24 keyed).busy = true ∧
    (withCommand 0x24 keyed).cyclesLeft ≤ 1 ∧ (withCommand 0x24 keyed).pend = some 0x24 ∧
    decode 0x24 = .error (.unassignedOpcode 0x24) := ⟨rfl, by decide, rfl, rfl⟩

theorem witness_CommandWriteIsAccepted : (onBus [.write 0x00C 4 1, .idle] loaded).busy = false ∧
    (onBus [.write 0x00C 4 1, .idle] loaded).bus = .write 0x00C 4 1 :: [.idle] := ⟨rfl, rfl⟩

/-- An operand write while a command is in flight; and, idle and busy, an empty queue and an idle cycle. -/
theorem witness_OperandsAreHeldWhileBusy :
    let busy := accept 0x410 2 keyed
    let s := onBus [.write 0x040 4 7, .read 0x050 4] busy
    s.busy = true ∧ 1 < s.cyclesLeft ∧ s.bus = .write 0x040 4 7 :: [.read 0x050 4] ∧
    (BusEvent.write 0x040 4 7).inWindow = true ∧ (BusEvent.write 0x040 4 7).noReset = true ∧
    ¬(busy.busy = true ∧ busy.cyclesLeft ≤ 1) ∧ busy.bus = [] ∧
    ¬(keyed.busy = true ∧ keyed.cyclesLeft ≤ 1) ∧ keyed.bus = [] ∧
    (onBus [.idle] busy).bus = .idle :: [] := by decide

theorem witness_AcceptedCommandCompletes :
    let s := onBus [.write 0x040 4 7, .read 0x050 4, .write 0x004 4 0x7FFFFFFF] (accept 0x410 5 keyed)
    Inv s ∧ s.busy = true ∧ (∀ e ∈ s.bus, e.inWindow = true ∧ e.noReset = true) :=
  ⟨inv_of_no_bytes rfl (by decide), rfl, by decide⟩

theorem witness_CompletionWritesStatus : (withCommand 1 loaded).busy = true ∧
    (withCommand 1 loaded).cyclesLeft ≤ 1 ∧ (withCommand 1 loaded).pend = some 1 ∧
    ∃ t, step (withCommand 1 loaded) = .next t ∧ t.wkValid ≠ (withCommand 1 loaded).wkValid :=
  ⟨rfl, by decide, rfl, _, rfl, by decide⟩

/-- KEY_ADV without a WorkingKey fails. -/
theorem witness_FailingCommandIsPrecise : (withCommand 2 loaded).busy = true ∧
    (withCommand 2 loaded).cyclesLeft ≤ 1 ∧ (withCommand 2 loaded).pend = some 2 ∧
    ∃ t, step (withCommand 2 loaded) = .next t ∧ t.errcode ≠ .ok :=
  ⟨rfl, by decide, rfl, _, rfl, by decide⟩

theorem witness_NopCompletesAndChangesNothing : decode 0 = .ok .nop := rfl
theorem witness_KeyInitCopiesRootKey : loaded.rkValid = true := by decide
theorem witness_KeyAdvReshufflesWorkingKey : keyed.wkValid = true := rfl
theorem witness_SplitKeyExposesKeyParts : keyed.wkValid = true := rfl

theorem witness_KeyClearDestroysWorkingKey :
    exec .keyClear keyed = .next { loaded with done := true } := rfl

/-- The last block length and the last free record place, and a form without a record. -/
theorem witness_EncBlockResult :
    let s := { keyed with mdcount := 254 }
    s.mem.wf = true ∧ s.wkValid = true ∧ 4 ≤ 4 ∧ (true = true → s.mdcount ≠ 255) ∧
    (false = true → ({ s with mdcount := 255 } : State).mdcount ≠ 255) := by decide

theorem witness_DecBlockResult :
    let s := { keyed with ct := 0x8000A12B32868FCE0F }
    s.wkValid = true ∧ decryptValue s.wk s.ct.toNat = some 0xFFFFFFFF := by decide +kernel

/-- A key whose parts and used shifts are 0 (the identity case), and the largest block. -/
theorem witness_EncryptValueRangeAndOrder :
    (0xFF : Bytes16) &&& (~~~ 0xFF : Bytes16) = 0 ∧ 0xFFFFFFFF < 2 ^ 32 ∧
    (splitKey 0xFF).part0 = 0 ∧ (splitKey 0xFF).part1 = 0 ∧ (splitKey 0xFF).part2 = 0 := by decide

theorem witness_DecryptValueUndoesEncryptValue :
    0xFFFFFFFF < 2 ^ 32 ∧ 2 ^ 127 ≤ 2 ^ 127 ∧ (splitKey k1).part3 ≠ 0 := by decide

theorem witness_EncThenDecRestoresBlock :
    let s := { keyed with mdcount := 254 }
    s.wkValid = true ∧ 4 ≤ 4 ∧ (true = true → s.mdcount ≠ 255) := by decide

theorem witness_MdClearZeroesTheBuffers : Memory.wf [(0x200, 1), (0x3FF, 2)] = true := by decide

theorem witness_MdPushAppendsOneRecord :
    let s := { keyed with mdcount := 254 }
    s.mem.wf = true ∧ 255 ≤ 255 ∧ s.mdcount ≠ 255 := by decide

theorem witness_MdEncryptWritesTheFooter :
    let s := { loaded with mdcount := 255 }
    s.mem.wf = true ∧ s.rkValid = true ∧ s.ivValid = true := by decide

theorem wf_withFooter {s : State} (bs : List Byte) (hw : s.mem.wf = true) :
    (withFooter bs s).mem.wf = true := Memory.wf_writeBytes mbufBase _ hw

/-- MD_DECRYPT's input is what `withFooter` put there. -/
theorem footerInput_withFooter {s : State} {bs : List Byte} (hw : s.mem.wf = true)
    (hl : bs.length ≤ 256) : (withFooter bs s).footerInput = bs := by
  have hn : (withFooter bs s).mdlen.toNat = bs.length := by
    show (BitVec.ofNat 9 bs.length).toNat = _
    rw [BitVec.toNat_ofNat]
    exact Nat.mod_eq_of_lt (by omega)
  refine List.ext_getElem (by rw [State.footerInput, length_readBytes, hn]) fun i h1 h2 => ?_
  simp only [State.footerInput, Memory.readBytes, List.getElem_map, List.getElem_range]
  show (s.mem.writeBytes mbufBase _).read _ = _
  rw [Memory.read_writeBytes _ _ _ hw, if_pos ⟨by omega, by rw [List.length_append]; omega⟩,
    Nat.add_sub_cancel_left, List.getD_append _ _ _ _ h2, List.getD_eq_getElem _ _ h2]

/-- The footer of no records, in MBUF, decodes in every implementation. -/
theorem witness_MdDecryptWritesTheRecords :
    let s := withFooter (footer Config.actual [] k1 iv1) loaded
    s.mem.wf = true ∧ s.rkValid = true ∧ s.ivValid = true ∧ s.mdlen.toNat ≤ 256 ∧
    undo Config.actual s.footerInput s.rk s.iv = some ([], 1) := by
  have hl : (footer Config.actual [] k1 iv1).length = 16 := by simp [footer, padRecords, padCount]
  refine ⟨wf_withFooter _ Memory.wf_nil, rfl, rfl, ?_, ?_⟩
  · show (BitVec.ofNat 9 (footer Config.actual [] k1 iv1).length).toNat ≤ 256
    rw [hl]
    decide
  · rw [footerInput_withFooter Memory.wf_nil (by omega)]
    show undo Config.actual (footer Config.actual [] k1 iv1) k1 iv1 = _
    rw [undo, footer, List.reverse_reverse, wholeBlocks_flatMap_toBytes,
      show wholeBlocks (padRecords []) = [0xFF0F0F0F0F0F0F0F0F0F0F0F0F0F0F0F] by decide +kernel]
    simp only [cbcEncrypt, undoBlocks, actual_aesDec_aesEnc]
    decide +kernel

/-- The first and the last block of two, in an implementation, and of the two that 16 records take. -/
theorem witness_CbcEquationsAndFooterBytes : plain.aesDec k1 (plain.aesEnc k1 iv1) = iv1 ∧
    0 < [k1, k2].length ∧ 1 < [k1, k2].length ∧
    (List.replicate 16 (127 : Byte)).length = 16 ∧ 0 < (16 + 1 + 15) / 16 ∧
    1 < (16 + 1 + 15) / 16 := ⟨rfl, by decide⟩

/-- Records up to 254. -/
theorem witness_FooterRoundTrip : (0xFF : Byte) ∉ ([0, 254] : List Byte) := by decide

/-- An input of two blocks of which the second holds 0xFF, where AES is the identity and the IV is 0; and
fifteen junk bytes before a footer of one block. -/
theorem witness_UndoOnEveryInput :
    let x : List Byte := 0xFF :: List.replicate 31 0x00
    let block (j : Nat) : Bytes16 := ofBytes ((x.reverse.drop (16 * j)).take 16)
    1 < x.length / 16 ∧
    (0xFF : Byte) ∈ toBytes (plain.aesDec 0 (block 1) ^^^ block 0) ∧
    (0xFF : Byte) ∉ toBytes (plain.aesDec 0 (block 0) ^^^ 0) ∧
    (List.replicate 15 (0 : Byte)).length < 16 ∧ 16 ∣ (List.replicate 16 (0 : Byte)).length := by
  decide +kernel

theorem witness_MdEncryptThenMdDecrypt :
    Inv { loaded with mdcount := 255 } ∧ loaded.rkValid = true ∧ loaded.ivValid = true :=
  ⟨inv_of_no_bytes rfl (by decide), rfl, rfl⟩

/-- Each clause: no keys; a WorkingKey with N = 5, with a full record, with CT = 0; a full record;
MDLEN = 257 and MDLEN = 15, which holds no whole block. -/
theorem witness_ErrorsAndTheirOrder :
    State.reset.rkValid = false ∧ State.reset.wkValid = false ∧ State.reset.ivValid = false ∧
    keyed.wkValid = true ∧ 4 < 5 ∧ ({ keyed with mdcount := 255 } : State).mdcount = 255 ∧
    decryptValue keyed.wk keyed.ct.toNat = none ∧
    keyed.rkValid = true ∧ keyed.ivValid = true ∧
    256 < ({ keyed with mdlen := 257 } : State).mdlen.toNat ∧
    ({ keyed with mdlen := 15 } : State).mdlen.toNat < 16 ∧
    undo Config.actual ({ keyed with mdlen := 15 } : State).footerInput keyed.rk keyed.iv = none :=
  ⟨rfl, rfl, rfl, rfl, by decide, rfl, by decide +kernel, rfl, rfl, by decide, by decide, rfl⟩

theorem witness_BlockNeverStops :
    BusSafe (onBus [.read 0x3FF 4, .write 0x3FC 4 1, .powerOnReset, .idle] keyed) := by decide

/-- A command, an illegal word at its last cycle, a CMD write, and a STATUS write while BUSY = 1; and ERR
alone with IRQ_EN. -/
theorem witness_InterruptFollowsCompletion :
    let s := { keyed with irqEn := true, err := true }
    s.irq = true ∧ s.done = false ∧
    exec .nop s = .next { s with done := true } ∧
    ((withCommand 0x24 s).busy = true ∧ (withCommand 0x24 s).cyclesLeft ≤ 1 ∧
      (withCommand 0x24 s).pend = some 0x24 ∧ ∃ t, step (withCommand 0x24 s) = .next t) ∧
    ((onBus [.write 0x00C 4 1] s).busy = false ∧ ∃ t, step (onBus [.write 0x00C 4 1] s) = .next t) ∧
    ¬((accept 0 2 s).busy = true ∧ (accept 0 2 s).cyclesLeft ≤ 1) ∧
    (onBus [.write 0x008 4 6] (accept 0 2 s)).bus = .write 0x008 4 6 :: [] :=
  ⟨rfl, rfl, rfl, ⟨rfl, by decide, rfl, _, rfl⟩, ⟨rfl, _, rfl⟩, by decide, rfl⟩

theorem witness_StatusWriteClearsOnes :
    let s := onBus [.write 0x008 4 0xE] (accept 0 2 keyed)
    ¬(s.busy = true ∧ s.cyclesLeft ≤ 1) ∧ s.bus = .write 0x008 4 0xE :: [] := by decide

/-- Idle, and busy. -/
theorem witness_ControlWrite :
    let s := onBus [.write 0x004 4 0x7FFFFFFF] keyed
    ¬(s.busy = true ∧ s.cyclesLeft ≤ 1) ∧ s.bus = .write 0x004 4 0x7FFFFFFF :: [] ∧
    (0x7FFFFFFF : Word).getLsbD 31 = false ∧
    ¬((accept 0 2 s).busy = true ∧ (accept 0 2 s).cyclesLeft ≤ 1) := by decide

/-- The last offset of the window, unaligned; an aligned one with a width of two bytes; and the first
offset outside. -/
theorem witness_UnsupportedAccess :
    ¬(keyed.busy = true ∧ keyed.cyclesLeft ≤ 1) ∧
    (1023 < 1024 ∧ ¬ 4 ∣ 1023) ∧ (0x040 < 1024 ∧ 2 ≠ 4) ∧ 1024 ≤ 1024 ∧
    (onBus [.read 1023 4] keyed).bus = .read 1023 4 :: [] ∧
    (onBus [.write 1024 4 7] keyed).bus = .write 1024 4 7 :: [] := by decide

/-- Each clause at the ends of its ranges: unsupported writes (the last offset, and a width of two bytes);
the input registers while BUSY = 1; CTRL while BUSY = 1; locked RKEY writes; and the offsets that ignore
writes. -/
theorem witness_WriteErrorCases :
    let busy := accept 0 2 keyed
    let locked := { keyed with rkLock := true }
    ¬(keyed.busy = true ∧ keyed.cyclesLeft ≤ 1) ∧ keyed.werr = false ∧
    ¬(busy.busy = true ∧ busy.cyclesLeft ≤ 1) ∧ busy.busy = true ∧ busy.werr = false ∧
    locked.rkLock = true ∧ locked.werr = false ∧
    (∀ o ∈ [1023, 0x3FE, 0x041, 0x002], ¬ 4 ∣ o ∧ o < 1024) ∧ 2 ≠ 4 ∧
    (∀ o ∈ [0x00C, 0x010, 0x01C, 0x030, 0x03C, 0x040, 0x050, 0x05C, 0x074, 0x300, 0x3FC],
      4 ∣ o ∧ o < 1024 ∧ nextHas (fun t => t.werr) (step (onBus [.write o 4 1] busy)) = true) ∧
    nextHas (fun t => t.werr) (step (onBus [.write 0x004 4 0x7FFFFFFF] busy)) = true ∧
    (∀ o ∈ [0x010, 0x01C], nextHas (fun t => t.werr) (step (onBus [.write o 4 1] locked)) = true) ∧
    (∀ o ∈ [0x000, 0x020, 0x02C, 0x044, 0x04C, 0x060, 0x070, 0x078, 0x1FC, 0x200, 0x2FC],
      4 ∣ o ∧ nextHas (fun t => !t.werr) (step (onBus [.write o 4 1] busy)) = true) := by
  decide +kernel

theorem witness_ReadsHaveNoSideEffect :
    let s := onBus [.read 0x3FF 1] (accept 0 2 keyed)
    ¬(s.busy = true ∧ s.cyclesLeft ≤ 1) ∧ 0x3FF < 1024 ∧ s.bus = .read 0x3FF 1 :: [] := by decide

/-- An idle block and a busy one, and the reserved and the buffer offsets at the ends of their ranges. -/
theorem witness_ReadsReturnStoredWordOrDraw :
    ¬(keyed.busy = true ∧ keyed.cyclesLeft ≤ 1) ∧ keyed.busy = false ∧
    ¬((accept 0 2 keyed).busy = true ∧ (accept 0 2 keyed).cyclesLeft ≤ 1) ∧
    (accept 0 2 keyed).busy = true ∧
    (∀ o ∈ [0x048, 0x04C, 0x064, 0x06C, 0x080, 0x1FC, 0x200, 0x2FC, 0x300, 0x3FC], 4 ∣ o) := by decide

/-- Each range of offsets at its last word. -/
theorem witness_RegisterWritesStoreAndReadBack :
    keyed.mem.wf = true ∧ keyed.busy = false ∧ keyed.rkLock = false ∧
    (4 ∣ 0x300 ∧ 0x300 ≤ 0x300 ∧ 4 ∣ 0x3FC ∧ 0x3FC ≤ 0x3FC) ∧
    (onBus [.write 0x3FC 4 7, .read 0x3FC 4] keyed).bus = [.write 0x3FC 4 7, .read 0x3FC 4] ∧
    4 ∣ 0x3FC ∧ (0x300 ≤ 0x3FC ∧ 0x3FC < 0x400) ∧ 4 ∣ 0x040 ∧ (0x030 ≤ 0x040 ∧ 0x040 < 0x044) ∧
    4 ∣ 0x05C ∧ (0x050 ≤ 0x05C ∧ 0x05C < 0x060) ∧ 4 ∣ 0x074 := by decide

/-- The RootKey writes, and the IV writes. -/
theorem witness_RootKeyAndIvLoad :
    State.reset.busy = false ∧ State.reset.rkLock = false ∧
    (onBus [.write 0x010 4 1, .write 0x014 4 2, .write 0x018 4 3, .write 0x01C 4 4] State.reset).bus =
      [.write 0x010 4 1, .write 0x014 4 2, .write 0x018 4 3, .write 0x01C 4 4] ∧
    (onBus [.write 0x030 4 1, .write 0x034 4 2, .write 0x038 4 3, .write 0x03C 4 4] State.reset).bus =
      [.write 0x030 4 1, .write 0x034 4 2, .write 0x038 4 3, .write 0x03C 4 4] := by decide

theorem witness_LockedRootKeyIsImmutable :
    let s := onBus [.write 0x010 4 7, .write 0x004 4 0] { keyed with rkLock := true }
    s.rkLock = true ∧ (∀ e ∈ s.bus, e.noReset = true) ∧
    ∃ t, Sys2Proof.core.run 2 s = .next t := ⟨rfl, by decide, _, rfl⟩

theorem witness_KeysAreHiddenWithoutReadback :
    let s := onBus [.read 0x020 4] keyed
    plain.toConfig.keyReadback = false ∧ ¬(s.busy = true ∧ s.cyclesLeft ≤ 1) ∧
    s.bus = .read 0x020 4 :: [] ∧ ∃ t, cycle plain.toConfig exec s = .next t ∧ t.draws = s.draws :=
  ⟨rfl, by decide, rfl, _, rfl, rfl⟩

/-- KEY_CLEAR, and a power-on reset. -/
theorem witness_OnlyKeyCommandsWriteWorkingKey :
    (∃ t, step (withCommand 3 keyed) = .next t ∧ t.wk ≠ (withCommand 3 keyed).wk) ∧
    ∃ t, step (onBus [.powerOnReset] keyed) = .next t ∧
      t.wk ≠ (onBus [.powerOnReset] keyed).wk :=
  ⟨⟨_, rfl, by decide⟩, _, rfl, by decide⟩

/-- Both kinds of reset, one of them while a command is in flight. -/
theorem witness_ResetsGiveTheResetState :
    let s := accept 0x410 2 keyed
    ¬(s.busy = true ∧ s.cyclesLeft ≤ 1) ∧
    (onBus [.powerOnReset, .idle] s).bus = .powerOnReset :: [.idle] ∧
    (onBus [.write 0x004 4 0x80000003] s).bus = .write 0x004 4 0x80000003 :: [] ∧
    (0x80000003 : Word).getLsbD 31 = true := by decide

theorem witness_StepKeepsInv :
    Inv (accept 3 1 keyed) ∧ ∃ t, step (accept 3 1 keyed) = .next t :=
  ⟨inv_of_no_bytes rfl (by decide), _, rfl⟩

theorem witness_SplitBlocksShape : ([0x61] : List Byte) ≠ [] := by decide

/-- The longest plaintext that fits. -/
theorem witness_DecryptUndoesEncrypt : (List.replicate 1020 (0 : Byte)).length ≤ 1020 :=
  (List.length_replicate ..).le

/-- "a" and "b" under K1: both take 56 bits. -/
theorem witness_EqualLayoutPreservesOrder :
    ([0x61] : List Byte).length = ([0x62] : List Byte).length ∧
    bytesLt [0x61] [0x62] = true ∧
    (encryptBlocks plain.toConfig k1 (splitBlocks [0x61])).2 =
      (encryptBlocks plain.toConfig k1 (splitBlocks [0x62])).2 ∧
    (∃ a, encrypt plain.toConfig k1 [0x61] 0 = .ok a) ∧
    ∃ b, encrypt plain.toConfig k1 [0x62] iv1 = .ok b :=
  ⟨rfl, by decide, by decide +kernel, ⟨_, rfl⟩, _, rfl⟩

/-- A body with four pad bits and S = 12; one with a pad bit set; one of a wrong length; a plaintext that
encrypts, and one of 256 blocks, which does not. -/
theorem witness_BodyPackingAndBounds :
    (bodyStream [0x0A, 0xBC] [12]).isSome = true ∧ bodyStream [0x1A, 0xBC] [12] = none ∧
    (12 ≤ 12 ∧ (be [0x1A, 0xBC]).testBit 12 = true) ∧ bodyStream [0xAB] [12] = none ∧
    (∃ ct, encrypt plain.toConfig k1 [0x61] iv1 = .ok ct) ∧
    encrypt plain.toConfig k1 (List.replicate 1021 0x00) iv1 = .error .capacityExceeded ∧
    (List.replicate 1020 (0x00 : Byte)).length ≤ 1020 ∧
    1020 < (List.replicate 1021 (0x00 : Byte)).length :=
  ⟨by decide +kernel, by decide +kernel, by decide +kernel, by decide +kernel, ⟨_, rfl⟩,
    by decide +kernel, (List.length_replicate ..).le, by rw [List.length_replicate]; omega⟩

theorem witness_EncryptSequenceAgrees : Inv loaded ∧ loaded.busy = false ∧ loaded.bus = [] ∧
    loaded.rkValid = true ∧ loaded.werr = false := ⟨loaded_inv, rfl, rfl, rfl, rfl⟩

/-- A ciphertext that is too short, and a state from which the sequence runs. -/
theorem witness_DecryptSequenceAgrees : decrypt plain.toConfig k1 [] = .error .decryptionFailure ∧
    Inv keyed ∧ keyed.busy = false ∧ keyed.bus = [] ∧ keyed.rkValid = true ∧ keyed.werr = false :=
  ⟨rfl, keyed_inv, rfl, rfl, rfl, rfl⟩

end Sys2Proof.Tests
end

/-! PROOFS. The CBC equations of the metadata codec, and the footer read back block by block
(R140 to R142). -/

namespace Sys2Proof.Machine

/-! ## Blocks of a byte string -/

/-- Block `j`, counted from 0, of a byte string. -/
def blockAt (bs : List Byte) (j : Nat) : Bytes16 := ofBytes ((bs.drop (16 * j)).take 16)

/-- Dropping the first block moves every block one place down. -/
theorem blockAt_drop (bs : List Byte) (j : Nat) : blockAt (bs.drop 16) j = blockAt bs (j + 1) := by
  rw [blockAt, blockAt, List.drop_drop, show 16 + 16 * j = 16 * (j + 1) by ring]

theorem getD_takeBlocks {n j : Nat} (bs : List Byte) (h : j < n) :
    (takeBlocks n bs).getD j 0 = blockAt bs j := by
  induction n generalizing bs j with
  | zero => omega
  | succ n ih =>
    cases j with
    | zero => rfl
    | succ j =>
      rw [takeBlocks, List.getD_cons_succ, ih _ (Nat.lt_of_succ_lt_succ h), blockAt_drop]

theorem getD_wholeBlocks {bs : List Byte} {j : Nat} (h : j < bs.length / 16) :
    (wholeBlocks bs).getD j 0 = blockAt bs j := getD_takeBlocks bs h

/-- The blocks of a concatenation of blocks are those blocks. -/
theorem blockAt_flatMap_toBytes {cs : List Bytes16} {j : Nat} (h : j < cs.length) :
    blockAt (cs.flatMap toBytes) j = cs.getD j 0 := by
  have hj : j < (cs.flatMap toBytes).length / 16 := by rw [length_flatMap_toBytes]; omega
  rw [← getD_wholeBlocks hj, wholeBlocks_flatMap_toBytes]

/-! ## CBC (R141) -/

/-- R141: `C_j = AES_Enc(key, P_j ⊕ C_(j-1))`, where `C_0` is the IV. -/
theorem getD_cbcEncrypt (c : Config) (key iv : Bytes16) {ps : List Bytes16} {j : Nat}
    (h : j < ps.length) :
    (cbcEncrypt c key iv ps).getD j 0 =
      c.aesEnc key (ps.getD j 0 ^^^ (iv :: cbcEncrypt c key iv ps).getD j 0) := by
  induction ps generalizing iv j with
  | nil => exact absurd h (Nat.not_lt_zero j)
  | cons p ps ih =>
    cases j with
    | zero => rfl
    | succ j => exact ih _ (Nat.lt_of_succ_lt_succ h)

/-- R141 with R12: `P_j = AES_Dec(key, C_j) ⊕ C_(j-1)`, where `C_0` is the IV. -/
theorem getD_eq_aesDec_getD_cbcEncrypt (c : Implementation) (key iv : Bytes16)
    {ps : List Bytes16} {j : Nat} (h : j < ps.length) :
    ps.getD j 0 = c.aesDec key ((cbcEncrypt c.toConfig key iv ps).getD j 0) ^^^
      (iv :: cbcEncrypt c.toConfig key iv ps).getD j 0 := by
  rw [getD_cbcEncrypt c.toConfig key iv h, c.aesDec_aesEnc, BitVec.xor_assoc, BitVec.xor_self,
    BitVec.xor_zero]

/-! ## The padded record and the footer (R140, R142) -/

@[simp] theorem length_padRecords (records : List Byte) :
    (padRecords records).length = 16 * footerBlocks records.length := by
  have hlen : (padRecords records).length = records.length + 1 + padCount records.length := by
    simp only [padRecords, List.length_append, List.length_singleton, List.length_replicate]
  rw [hlen, footerBlocks, padCount]
  omega

/-- R142: the footer read backwards is the CBC ciphertext of the padded record. -/
theorem reverse_footer (c : Config) (records : List Byte) (key iv : Bytes16) :
    (footer c records key iv).reverse =
      (cbcEncrypt c key iv (wholeBlocks (padRecords records))).flatMap toBytes :=
  List.reverse_reverse _

@[simp] theorem length_footer (c : Config) (records : List Byte) (key iv : Bytes16) :
    (footer c records key iv).length = 16 * footerBlocks records.length := by
  rw [← List.length_reverse, reverse_footer, length_flatMap_toBytes, length_cbcEncrypt,
    length_wholeBlocks, length_padRecords, Nat.mul_div_cancel_left _ (by norm_num)]

/-- R141, R142: each block of the footer read backwards encrypts a block of the padded record,
chained to the block before it. -/
theorem blockAt_reverse_footer (c : Config) (records : List Byte) (key iv : Bytes16) {j : Nat}
    (h : j < footerBlocks records.length) :
    blockAt (footer c records key iv).reverse j =
      c.aesEnc key (blockAt (padRecords records) j ^^^
        if j = 0 then iv else blockAt (footer c records key iv).reverse (j - 1)) := by
  have hp : j < (padRecords records).length / 16 := by rw [length_padRecords]; omega
  have hps : j < (wholeBlocks (padRecords records)).length := by rwa [length_wholeBlocks]
  have hblock : ∀ i ≤ j, blockAt (footer c records key iv).reverse i =
      (cbcEncrypt c key iv (wholeBlocks (padRecords records))).getD i 0 := fun i hi => by
    rw [reverse_footer, blockAt_flatMap_toBytes (by rw [length_cbcEncrypt]; omega)]
  rw [hblock j le_rfl, getD_cbcEncrypt c key iv hps, getD_wholeBlocks hp]
  cases j with
  | zero => rfl
  | succ j =>
    rw [if_neg j.succ_ne_zero, Nat.add_sub_cancel, hblock j j.le_succ, List.getD_cons_succ]

/-- Settles O32: the CBC equations by induction on the blocks; the footer by cutting it, read
backwards, into the blocks of its ciphertext. -/
theorem cbcEquationsAndFooterBytes : Obligations.CbcEquationsAndFooterBytes :=
  ⟨fun c key iv ps => ⟨length_cbcEncrypt c.toConfig key iv ps, fun _ hj =>
    ⟨getD_cbcEncrypt c.toConfig key iv hj, getD_eq_aesDec_getD_cbcEncrypt c key iv hj⟩⟩,
  fun c records key iv => ⟨length_footer c records key iv, fun _ hj =>
    blockAt_reverse_footer c records key iv hj⟩⟩

end Sys2Proof.Machine

/-! PROOFS. What a step keeps, said once: the inversion of a completing step, the frame of every
command, the frame of every bus event that is no reset, and runs of several steps. -/

namespace Sys2Proof.Machine

/-! ## The frame of the commands (R202) -/

/-- MD_CLEAR's pseudocode always succeeds (R144). -/
theorem mdClear_ok {s t : State} (h : mdClear s = .ok t) :
    t = { s with
      mem := (s.mem.writeBytes lbufBase (List.replicate bufBytes 0)).writeBytes mbufBase
        (List.replicate bufBytes 0)
      mdcount := 0
      mdlen := 0
      mdblocks := 0 } := by
  cases h
  simp only [State.setLbuf, State.setMbuf, List.length_nil, List.nil_append, Nat.sub_zero]

/-- What a successful command may write: the WorkingKey, the result registers and the buffers. Every
other field is as before. -/
theorem effectOf_frame {c : Config} {i : Instr} {s u : State} (h : effectOf c i s = .ok u) :
    u = { s with wk := u.wk, wkValid := u.wkValid, blk := u.blk, blklen := u.blklen, ct := u.ct,
                 ctlen := u.ctlen, mem := u.mem, mdcount := u.mdcount, mdlen := u.mdlen,
                 mdblocks := u.mdblocks } := by
  cases i with
  | nop => cases h; rfl
  | keyInit => obtain ⟨-, rfl⟩ := keyInit_ok.1 h; rfl
  | keyAdv => obtain ⟨-, rfl⟩ := keyAdv_ok.1 h; rfl
  | keyClear => cases h; rfl
  | splitKey => obtain ⟨-, -, rfl⟩ := splitKeyCmd_ok.1 h; rfl
  | rotl8 amount => cases h; rfl
  | rotr8 amount => cases h; rfl
  | encBlock count adv record =>
    obtain ⟨-, -, -, rfl⟩ := encBlock_ok.1 h
    cases adv <;> cases record <;> rfl
  | decBlock adv =>
    obtain ⟨-, r, -, rfl⟩ := decBlock_ok.1 h
    cases adv <;> rfl
  | mdClear => rw [mdClear_ok h]
  | mdPush len => obtain ⟨-, rfl⟩ := mdPush_ok.1 h; rfl
  | mdEncrypt => obtain ⟨-, -, rfl⟩ := mdEncrypt_ok.1 h; rfl
  | mdDecrypt => obtain ⟨-, -, -, recs, nb, -, rfl⟩ := mdDecrypt_ok.1 h; rfl

/-- What a successful command does to the WorkingKey (R29, R30): KEY_INIT loads it, KEY_CLEAR
destroys it, KEY_ADV and the ADV forms advance a valid one, and every other command leaves it. -/
theorem effectOf_workingKey {c : Config} {i : Instr} {s u : State}
    (h : effectOf c i s = .ok u) :
    (i = .keyInit ∧ s.rkValid = true ∧ u.wk = s.rk ∧ u.wkValid = true) ∨
    (i = .keyClear ∧ u.wk = 0 ∧ u.wkValid = false) ∨
    ((i = .keyAdv ∨ i = .decBlock true ∨ ∃ count record, i = .encBlock count true record) ∧
      s.wkValid = true ∧ u.wkValid = true) ∨
    (u.wk = s.wk ∧ u.wkValid = s.wkValid) := by
  cases i with
  | keyInit =>
    obtain ⟨hrk, rfl⟩ := keyInit_ok.1 h
    exact .inl ⟨rfl, hrk, rfl, rfl⟩
  | keyClear => cases h; exact .inr (.inl ⟨rfl, rfl, rfl⟩)
  | keyAdv =>
    obtain ⟨hv, rfl⟩ := keyAdv_ok.1 h
    exact .inr (.inr (.inl ⟨.inl rfl, hv, hv⟩))
  | encBlock count adv record =>
    obtain ⟨hv, -, -, rfl⟩ := encBlock_ok.1 h
    cases adv with
    | true => exact .inr (.inr (.inl ⟨.inr (.inr ⟨count, record, rfl⟩), hv, by simpa using hv⟩))
    | false => exact .inr (.inr (.inr (by simp)))
  | decBlock adv =>
    obtain ⟨hv, r, -, rfl⟩ := decBlock_ok.1 h
    cases adv with
    | true => exact .inr (.inr (.inl ⟨.inr (.inl rfl), hv, hv⟩))
    | false => exact .inr (.inr (.inr (by simp)))
  | nop => cases h; exact .inr (.inr (.inr ⟨rfl, rfl⟩))
  | splitKey =>
    obtain ⟨-, -, rfl⟩ := splitKeyCmd_ok.1 h
    exact .inr (.inr (.inr ⟨rfl, rfl⟩))
  | rotl8 amount => cases h; exact .inr (.inr (.inr ⟨rfl, rfl⟩))
  | rotr8 amount => cases h; exact .inr (.inr (.inr ⟨rfl, rfl⟩))
  | mdClear => obtain rfl := mdClear_ok h; exact .inr (.inr (.inr ⟨rfl, rfl⟩))
  | mdPush len => obtain ⟨-, rfl⟩ := mdPush_ok.1 h; exact .inr (.inr (.inr ⟨rfl, rfl⟩))
  | mdEncrypt => obtain ⟨-, -, rfl⟩ := mdEncrypt_ok.1 h; exact .inr (.inr (.inr ⟨rfl, rfl⟩))
  | mdDecrypt =>
    obtain ⟨-, -, -, recs, nb, -, rfl⟩ := mdDecrypt_ok.1 h
    exact .inr (.inr (.inr ⟨rfl, rfl⟩))

/-! ## The completing step -/

/-- Everything a completing step can do: the writes of a successful command and code 0, or a nonzero
code and no write but STATUS, for a failing command and for an illegal word (R84, R202, R203). -/
theorem step_completing {s t : State} {w : Word} (hc : completing s = some w)
    (h : step s = .next t) :
    (∃ i u, decode w = .ok i ∧ effectOf Config.actual i s = .ok u ∧ t = complete .ok u) ∨
    ∃ code, code ≠ .ok ∧ t = complete code s := by
  rcases step_next h with ⟨w', i, hc', hd, he⟩ | ⟨w', e, hc', -, rfl⟩ | ⟨hn, -⟩ | ⟨_, _, hn, -⟩
  · obtain rfl : w = w' := Option.some.inj (hc.symm.trans hc')
    rw [exec_eq_finish] at he
    rcases finish_next.1 he with ⟨u, hu, rfl⟩ | ⟨code, hcode, rfl⟩
    · exact .inl ⟨i, u, hd, hu, rfl⟩
    · exact .inr ⟨code, effectOf_error_ne_ok hcode, rfl⟩
  · exact .inr ⟨_, by decide, rfl⟩
  · simp [hc] at hn
  · simp [hc] at hn

/-- R202: what every completing step writes in STATUS, and the fields that it leaves. -/
theorem step_completing_frame {s t : State} {w : Word} (hc : completing s = some w)
    (h : step s = .next t) :
    t = { s with wk := t.wk, wkValid := t.wkValid, blk := t.blk, blklen := t.blklen, ct := t.ct,
                 ctlen := t.ctlen, mem := t.mem, mdcount := t.mdcount, mdlen := t.mdlen,
                 mdblocks := t.mdblocks, errcode := t.errcode, err := s.err || t.errcode != .ok,
                 done := true, busy := false, pend := none, cyclesLeft := 0 } := by
  rcases step_completing hc h with ⟨i, u, -, hu, rfl⟩ | ⟨code, -, rfl⟩
  · rw [effectOf_frame hu]; rfl
  · rfl

/-! ## Bus events that are no reset (R24, R27, R29) -/

/-- A write that is no reset keeps the WorkingKey, and a locked RootKey with its lock. -/
theorem writeAccess_keeps_keys (c : Config) {r : Reg} {v : Word} (s : State)
    (h : ¬(r = .ctrl ∧ v.getLsbD 31 = true)) :
    (writeAccess c r v s).wk = s.wk ∧
    (s.rkLock = true → (writeAccess c r v s).rk = s.rk ∧ (writeAccess c r v s).rkv = s.rkv ∧
      (writeAccess c r v s).rkLock = true) := by
  rcases writeAccess_cases c r v s with hw | ⟨hw, -⟩ | ⟨-, hw⟩ | ⟨hr, hv, -⟩ | ⟨-, hw⟩
  · simp [hw]
  · simp [hw]
  · simp [hw]
  · exact absurd ⟨hr, hv⟩ h
  · rcases hw with ⟨-, hw⟩ | ⟨-, hw⟩ | ⟨j, -, hl, hw⟩ | ⟨j, -, hw⟩ | ⟨-, hw⟩ | ⟨j, -, hw⟩ |
      ⟨-, hw⟩ | ⟨o, -, hw⟩
    · simp +contextual [hw]
    · simp [hw]
    · simp [hw, hl]
    · simp [hw]
    · simp [hw]
    · simp [hw]
    · simp [hw]
    · simp [hw]

/-- A bus event that is no reset keeps the WorkingKey, and a locked RootKey with its lock. -/
theorem handleEvent_keeps_keys {c : Config} {e : BusEvent} {s t : State} (he : e.noReset = true)
    (h : handleEvent c e s = .next t) :
    t.wk = s.wk ∧ (s.rkLock = true → t.rk = s.rk ∧ t.rkv = s.rkv ∧ t.rkLock = true) := by
  rcases handleEvent_next h with ⟨o, w, -, -, -, rfl⟩ | ⟨o, w, -, -, -, rfl⟩ |
    ⟨o, w, v, rfl, -, hs, rfl⟩ | ⟨o, w, v, -, -, -, rfl⟩ | ⟨rfl, -⟩ | ⟨-, rfl⟩
  · rw [readAccess_eq]
    exact ⟨rfl, fun hl => ⟨rfl, rfl, hl⟩⟩
  · exact ⟨rfl, fun hl => ⟨rfl, rfl, hl⟩⟩
  · refine writeAccess_keeps_keys c s fun ⟨hr, hv⟩ => ?_
    simp only [BusEvent.noReset, hs, hr, hv] at he
    exact absurd he (by decide)
  · exact ⟨rfl, fun hl => ⟨rfl, rfl, hl⟩⟩
  · cases he
  · exact ⟨rfl, fun hl => ⟨rfl, rfl, hl⟩⟩

/-! ## The lock (R24, R27, R210) -/

/-- The bus events that wait after a step waited before it. -/
theorem step_bus_subset {s t : State} (h : step s = .next t) : t.bus ⊆ s.bus := by
  cases hc : completing s with
  | some w =>
    rw [step_completing_frame hc h]
    exact List.Subset.refl _
  | none =>
    rcases step_next h with ⟨w, i, hs, -⟩ | ⟨w, e, hs, -⟩ | ⟨-, -, rfl⟩ | ⟨e, rest, -, hb, he⟩
    · simp [hc] at hs
    · simp [hc] at hs
    · exact List.Subset.refl _
    · rw [handleEvent_bus he, hb]
      exact List.subset_cons_self e rest

/-- No step but the handling of a reset changes a locked RootKey, its written flags or its lock. -/
theorem step_keeps_lockedRootKey {s t : State} (hl : s.rkLock = true)
    (hb : ∀ e ∈ s.bus, e.noReset = true) (h : step s = .next t) :
    t.rk = s.rk ∧ t.rkv = s.rkv ∧ t.rkLock = true := by
  cases hc : completing s with
  | some w =>
    rw [step_completing_frame hc h]
    exact ⟨rfl, rfl, hl⟩
  | none =>
    rcases step_next h with ⟨w, i, hs, -⟩ | ⟨w, e, hs, -⟩ | ⟨-, -, rfl⟩ | ⟨e, rest, -, hbus, he⟩
    · simp [hc] at hs
    · simp [hc] at hs
    · exact ⟨rfl, rfl, hl⟩
    · exact (handleEvent_keeps_keys (hb e (by simp [hbus])) he).2 hl

/-! ## Runs -/

/-- A run of no steps stays where it is. -/
theorem run_zero {s t : State} : Sys2Proof.core.run 0 s = .next t ↔ t = s := by
  constructor
  · rintro ⟨⟩; rfl
  · rintro rfl; rfl

/-- A run of one step more is a step and a run from where it leads. -/
theorem run_succ {n : Nat} {s t : State} :
    Sys2Proof.core.run (n + 1) s = .next t ↔
      ∃ u, step s = .next u ∧ Sys2Proof.core.run n u = .next t := by
  simp only [Host.Core.run, Host.Check.core_step]
  cases step s <;> simp

/-- Settles O48: by induction on the number of steps; each step keeps the locked RootKey and leaves
no reset on the bus. -/
theorem lockedRootKeyIsImmutable : Obligations.LockedRootKeyIsImmutable := by
  intro n
  induction n with
  | zero =>
    intro s t hl _ h
    obtain rfl := run_zero.1 h
    exact ⟨rfl, rfl, hl⟩
  | succ n ih =>
    intro s t hl hb h
    obtain ⟨u, hu, ht⟩ := run_succ.1 h
    obtain ⟨hrk, hrkv, hul⟩ := step_keeps_lockedRootKey hl hb hu
    obtain ⟨hrk', hrkv', htl⟩ := ih u t hul (fun e he => hb e (step_bus_subset hu he)) ht
    exact ⟨hrk'.trans hrk, hrkv'.trans hrkv, htl⟩

/-! ## Completion, and the writers of the WorkingKey (R29, R202) -/

/-- Settles O11: the fields from the frame of a completing step, WK_VALID from what the commands do
to the WorkingKey. -/
theorem completionWritesStatus : Obligations.CompletionWritesStatus := by
  intro s t w hbusy hleft hpend h
  have hc := completing_eq_some.2 ⟨hbusy, hleft, hpend⟩
  have hkey : t.wkValid ≠ s.wkValid → decode w = .ok .keyInit ∨ decode w = .ok .keyClear := by
    rcases step_completing hc h with ⟨i, u, hd, hu, rfl⟩ | ⟨code, -, rfl⟩
    · intro hv
      rcases effectOf_workingKey hu with ⟨rfl, -⟩ | ⟨rfl, -⟩ | ⟨-, hs, hu⟩ | ⟨-, hu⟩
      · exact .inl hd
      · exact .inr hd
      · exact absurd (hu.trans hs.symm) hv
      · exact absurd hu hv
    · exact fun hv => absurd rfl hv
  refine ⟨?_, ?_, ?_, ?_, ?_, ?_, ?_, ?_, ?_, ?_, ?_, ?_, ?_, ?_, ?_, hkey⟩ <;>
    rw [step_completing_frame hc h]
  simp

/-- Settles O50: a completing step changes the WorkingKey by its command alone, and a bus cycle by a
reset alone. -/
theorem onlyKeyCommandsWriteWorkingKey : Obligations.OnlyKeyCommandsWriteWorkingKey := by
  intro s t h hwk
  cases hc : completing s with
  | some w =>
    obtain ⟨hbusy, hleft, hpend⟩ := completing_eq_some.1 hc
    rcases step_completing hc h with ⟨i, u, hd, hu, rfl⟩ | ⟨code, -, rfl⟩
    · refine .inl ⟨w, i, hbusy, hleft, hpend, hd, ?_⟩
      rcases effectOf_workingKey hu with ⟨hi, -⟩ | ⟨hi, -⟩ | ⟨hi | hi | hi, -⟩ | ⟨hu, -⟩
      · exact .inl hi
      · exact .inr (.inr (.inl hi))
      · exact .inr (.inl hi)
      · exact .inr (.inr (.inr (.inl hi)))
      · exact .inr (.inr (.inr (.inr hi)))
      · exact absurd hu hwk
    · exact absurd rfl hwk
  | none =>
    have hnot : ¬(s.busy = true ∧ s.cyclesLeft ≤ 1 ∧ s.pend.isSome = true) := by
      rintro ⟨hbusy, hleft, hpend⟩
      obtain ⟨w, hw⟩ := Option.isSome_iff_exists.1 hpend
      simp [completing_eq_some.2 ⟨hbusy, hleft, hw⟩] at hc
    rcases step_next h with ⟨w, i, hs, -⟩ | ⟨w, e, hs, -⟩ | ⟨-, -, rfl⟩ | ⟨e, rest, -, hbus, he⟩
    · simp [hc] at hs
    · simp [hc] at hs
    · exact absurd rfl hwk
    · refine .inr ⟨hnot, e, rest, hbus, Bool.eq_false_iff.2 fun hn => hwk ?_⟩
      exact (handleEvent_keeps_keys hn he).1

end Sys2Proof.Machine

/-! PROOFS. The invariant `Inv`: it holds at reset, every command and every bus event keeps it, and
so does every step. -/

namespace Sys2Proof.Machine

/-! ## The written flags (R28, R31) -/

/-- Setting the written flag of word `j` sets it and leaves the other three. -/
theorem getLsbD_or_flag (x : BitVec 4) (i j : Fin 4) :
    (x ||| 1#4 <<< j.val).getLsbD i.val = (i == j || x.getLsbD i.val) := by
  decide +revert

/-- Four flags are all set exactly when each of them is. -/
theorem flags_all_iff (x : BitVec 4) :
    (x == 0b1111) = true ↔ ∀ j : Fin 4, x.getLsbD j.val = true := by
  decide +revert

theorem rkValid_iff {s : State} : s.rkValid = true ↔ ∀ j : Fin 4, s.rkv.getLsbD j.val = true :=
  flags_all_iff s.rkv

theorem ivValid_iff {s : State} : s.ivValid = true ↔ ∀ j : Fin 4, s.ivv.getLsbD j.val = true :=
  flags_all_iff s.ivv

/-- A write of word `j` of a register whose unwritten words are zero leaves it such a register. -/
theorem unwritten_setWordAt {x : Bytes16} {flags : BitVec 4} (j : Fin 4) (v : Word)
    (h : ∀ i : Fin 4, flags.getLsbD i.val = false → wordAt x i = 0) (i : Fin 4)
    (hi : (flags ||| 1#4 <<< j.val).getLsbD i.val = false) : wordAt (setWordAt x j v) i = 0 := by
  rw [getLsbD_or_flag, Bool.or_eq_false_iff, beq_eq_false_iff_ne] at hi
  rw [wordAt_setWordAt, if_neg hi.1, h i hi.2]

/-! ## The ranges of the results (R33, R35, R38) -/

/-- One addition and shift of E, bounded. -/
theorem add_mul_two_pow_lt {v n shift : Nat} (p : Word) (hv : v < n) (hs : shift < 32) :
    (v + p.toNat) * 2 ^ shift < (n + 2 ^ 32) * 2 ^ 31 := by
  have hp := p.isLt
  calc (v + p.toNat) * 2 ^ shift
      ≤ (v + p.toNat) * 2 ^ 31 :=
        Nat.mul_le_mul_left _ (Nat.pow_le_pow_right (by norm_num) (by omega))
    _ < (n + 2 ^ 32) * 2 ^ 31 := by omega

/-- A block output has at most 127 bits (R121). -/
theorem encryptValue_lt (k : Bytes16) {v : Nat} (h : v < 2 ^ 32) : encryptValue k v < 2 ^ 127 := by
  have hmod (n : Nat) : n % 32 < 32 := Nat.mod_lt _ (by norm_num)
  have h0 := add_mul_two_pow_lt (splitKey k).part0 h (hmod (byteAt k 12).toNat)
  have h1 := add_mul_two_pow_lt (splitKey k).part1 h0 (hmod (byteAt k 13).toNat)
  have h2 := add_mul_two_pow_lt (splitKey k).part2 h1 (hmod (byteAt k 14).toNat)
  have h3 := (splitKey k).part3.isLt
  exact lt_of_lt_of_le (Nat.add_lt_add h2 h3) (by norm_num)

theorem bitlen_encryptValue_le (k : Bytes16) (count : Nat) (blk : Word) :
    bitlen (encryptValue k (blockValue count blk)) ≤ 127 :=
  (bitlen_le_iff _ _).2 (encryptValue_lt k (lt_of_le_of_lt (Nat.mod_le _ _) blk.isLt))

/-- A decrypted block is below 2^32 (R122). -/
theorem decryptValue_lt {k : Bytes16} {c r : Nat} (h : decryptValue k c = some r) : r < 2 ^ 32 := by
  simp only [decryptValue, Option.bind_eq_some_iff] at h
  obtain ⟨v3, -, v2, -, v1, -, v0, -, h⟩ := h
  split at h
  · cases h
  · cases h; omega

theorem minbytesLen_decryptValue_le {k : Bytes16} {c r : Nat} (h : decryptValue k c = some r) :
    minbytesLen r ≤ 4 :=
  (minbytesLen_le_iff r 4).2 (by simpa using decryptValue_lt h)

/-- The footer of at most 255 records has at most 16 blocks (R140). -/
theorem footerBlocks_le {m : Nat} (h : m ≤ 255) : footerBlocks m ≤ 16 := by
  unfold footerBlocks padCount
  omega

/-- The records before the sentinel are fewer than the bytes they are taken from (R143). -/
theorem length_takeWhile_sentinel_lt {bs : List Byte} (h : sentinel ∈ bs) :
    (bs.takeWhile (· != sentinel)).length < bs.length := by
  have hprefix := List.takeWhile_prefix (· != sentinel) (l := bs)
  refine lt_of_le_of_ne hprefix.length_le fun heq => ?_
  have hself := List.takeWhile_eq_self_iff.1 (hprefix.eq_of_length heq)
  exact absurd (hself sentinel h) (by simp)

/-- `undo` answers fewer records than the bytes it decrypts, from at most all of their blocks
(R143). -/
theorem undoBlocks_sizes {c : Config} {key prev : Bytes16} {acc : List Byte} {j : Nat}
    {cts : List Bytes16} {recs : List Byte} {nb : Nat}
    (h : undoBlocks c key prev acc j cts = some (recs, nb)) :
    recs.length < acc.length + 16 * cts.length ∧ nb ≤ j + cts.length := by
  induction cts generalizing prev acc j with
  | nil => cases h
  | cons ct cts ih =>
    rw [undoBlocks] at h
    split at h
    · next hs =>
      cases h
      have := length_takeWhile_sentinel_lt (List.mem_append_right acc hs)
      simp only [List.length_append, length_toBytes, List.length_cons] at this ⊢
      omega
    · have := ih h
      simp only [List.length_append, length_toBytes, List.length_cons] at this ⊢
      omega

/-- MD_DECRYPT's input gives at most 255 records, from at most 16 blocks (R147). -/
theorem undo_footerInput_sizes {c : Config} {s : State} {recs : List Byte} {nb : Nat}
    (hl : s.mdlen.toNat ≤ bufBytes) (h : undo c s.footerInput s.rk s.iv = some (recs, nb)) :
    recs.length ≤ 255 ∧ nb ≤ 16 := by
  have hsizes := undoBlocks_sizes h
  simp only [length_wholeBlocks, List.length_reverse, State.footerInput, length_readBytes,
    List.length_nil, bufBytes] at hsizes hl
  omega

/-! ## The buffers (R40, R41) -/

/-- Filling a buffer from offset `base` with a byte string and zeros. -/
theorem read_fillBuffer {m : Memory} (base : Nat) {bs : List Byte} (a : Nat) (hm : m.wf = true)
    (hb : bs.length ≤ bufBytes) :
    (m.writeBytes base (bs ++ List.replicate (bufBytes - bs.length) 0)).read a =
      if base ≤ a ∧ a < base + bufBytes then bs.getD (a - base) 0 else m.read a := by
  have hlen : (bs ++ List.replicate (bufBytes - bs.length) (0 : Byte)).length = bufBytes := by
    simp only [List.length_append, List.length_replicate]
    omega
  rw [Memory.read_writeBytes base _ a hm, hlen]
  congr 1
  rcases Nat.lt_or_ge (a - base) bs.length with h | h
  · rw [List.getD_append _ _ _ _ h]
  · rw [List.getD_append_right _ _ _ _ h, List.getD_eq_default _ _ h]
    rw [List.getD_eq_getElem?_getD, List.getElem?_replicate]
    split <;> rfl

/-! ## The parts of a step keep the invariant -/

/-- The reset state has the invariant, whatever of the bus stays. -/
theorem inv_resetBlock (s : State) : Inv (resetBlock s) where
  memCanonical := rfl
  memInside _ h := absurd rfl h
  recordsTailZero _ _ _ := rfl
  blklenRange := Nat.zero_le 4
  ctlenRange := Nat.zero_le 127
  mdblocksRange := Nat.zero_le 16
  wkDestroyed _ := rfl
  wkFromRoot h := by cases h
  pendBusy := rfl
  counterBusy := by simp
  doneIdle _ := rfl
  rkUnwritten j _ := BitVec.extractLsb'_zero
  ivUnwritten j _ := BitVec.extractLsb'_zero

/-- A completion keeps the invariant: it leaves no command in flight. -/
theorem Inv.complete {s : State} (h : Inv s) (code : ErrorCode) : Inv (complete code s) :=
  { h with
    pendBusy := rfl
    counterBusy := by simp
    doneIdle := fun _ => rfl }

/-- A cycle that completes nothing keeps the invariant: a command in flight has cycles left. -/
theorem Inv.tick {s : State} (h : Inv s) (hc : completing s = none) (bus : List BusEvent) :
    Inv { Machine.tick s with bus := bus } :=
  { h with
    counterBusy := by
      show 1 ≤ s.cyclesLeft - 1 ↔ s.busy = true
      constructor
      · exact fun hleft => h.counterBusy.1 (by omega)
      · intro hbusy
        obtain ⟨w, hw⟩ := Option.isSome_iff_exists.1 (h.pendBusy.trans hbusy)
        by_contra hleft
        simp [completing_eq_some.2 ⟨hbusy, by omega, hw⟩] at hc }

/-- What a change of the bytes and of MDCOUNT has to respect (R40, R41, A10). -/
theorem Inv.setMem {s : State} (h : Inv s) {m : Memory} {count : BitVec 8} (hwf : m.wf = true)
    (hout : ∀ a, ¬(lbufBase ≤ a ∧ a < mbufBase + bufBytes) → m.read a = s.mem.read a)
    (htail : ∀ i, count.toNat ≤ i → i < bufBytes → m.read (lbufBase + i) = 0) :
    Inv { s with mem := m, mdcount := count } :=
  { h with
    memCanonical := hwf
    memInside := fun a ha => by
      by_contra hn
      exact hn (h.memInside a (hout a hn ▸ ha))
    recordsTailZero := htail }

/-- Appending a length record keeps the invariant where LBUF has room (R40). -/
theorem Inv.pushRecord {s : State} (h : Inv s) (hroom : s.recordsFull = false) (l : Byte) :
    Inv (s.pushRecord l) := by
  have hcount : s.mdcount.toNat < 255 := by
    have hne : s.mdcount ≠ 255 := by simpa [State.recordsFull] using hroom
    have hne' : s.mdcount.toNat ≠ 255 := fun h255 => hne (BitVec.eq_of_toNat_eq h255)
    have := s.mdcount.isLt
    omega
  have hsucc : (s.mdcount + 1).toNat = s.mdcount.toNat + 1 := by
    rw [BitVec.toNat_add]
    exact Nat.mod_eq_of_lt (by simp; omega)
  refine h.setMem (Memory.wf_write _ l h.memCanonical) (fun a ha => ?_) (fun i hi hlt => ?_)
  · refine Memory.read_write_other l h.memCanonical fun heq => ha ?_
    simp only [lbufBase, mbufBase, bufBytes] at *
    omega
  · rw [hsucc] at hi
    rw [Memory.read_write_other l h.memCanonical (by omega),
      h.recordsTailZero i (by omega) hlt]

/-- Filling LBUF with the records that MDCOUNT counts keeps the invariant (R40). -/
theorem Inv.setRecords {s : State} (h : Inv s) {bs : List Byte} {count : BitVec 8}
    (hb : count.toNat = bs.length) : Inv ({ s with mdcount := count }.setLbuf bs) := by
  have hread (a : Nat) :=
    read_fillBuffer lbufBase a h.memCanonical (bs := bs) (hb ▸ count.isLt.le)
  refine h.setMem (Memory.wf_writeBytes _ _ h.memCanonical) (fun a ha => ?_)
    (fun i (hi : count.toNat ≤ i) hlt => ?_)
  · rw [hread, if_neg]
    simp only [lbufBase, mbufBase, bufBytes] at *
    omega
  · rw [hread, if_pos (by omega), List.getD_eq_default _ _ (by omega)]

/-- Bytes stored inside MBUF keep the invariant (R41). -/
theorem Inv.storeMbuf {s : State} (h : Inv s) {a : Nat} {bs : List Byte} (ha : mbufBase ≤ a)
    (hb : a + bs.length ≤ mbufBase + bufBytes) : Inv { s with mem := s.mem.writeBytes a bs } := by
  refine h.setMem (Memory.wf_writeBytes _ _ h.memCanonical) (fun x hx => ?_) (fun i hi hlt => ?_)
  · rw [Memory.read_writeBytes a bs x h.memCanonical, if_neg]
    simp only [lbufBase, mbufBase, bufBytes] at *
    omega
  · rw [Memory.read_writeBytes a bs _ h.memCanonical, if_neg, h.recordsTailZero i hi hlt]
    simp only [lbufBase, mbufBase, bufBytes] at *
    omega

/-- Filling MBUF keeps the invariant (R41). -/
theorem Inv.setMbuf {s : State} (h : Inv s) {bs : List Byte} (hb : bs.length ≤ bufBytes) :
    Inv (s.setMbuf bs) :=
  h.storeMbuf le_rfl (by
    simp only [List.length_append, List.length_replicate]
    omega)

/-! ## The commands keep the invariant -/

/-- Advancing a valid WorkingKey keeps the invariant (R29). -/
theorem Inv.advanceKeyIf {s : State} (h : Inv s) (hv : s.wkValid = true) (c : Config) (adv : Bool) :
    Inv (s.advanceKeyIf c adv) := by
  cases adv with
  | true => exact { h with wkDestroyed := fun hn => absurd hv (by simp_all) }
  | false => exact h

/-- Every successful command keeps the invariant. -/
theorem Inv.effectOf {c : Config} {i : Instr} {s u : State} (h : Inv s)
    (hu : effectOf c i s = .ok u) : Inv u := by
  cases i with
  | nop => cases hu; exact h
  | keyInit =>
    obtain ⟨hrk, rfl⟩ := keyInit_ok.1 hu
    exact { h with wkDestroyed := fun hn => Bool.noConfusion hn, wkFromRoot := fun _ => hrk }
  | keyAdv =>
    obtain ⟨hv, rfl⟩ := keyAdv_ok.1 hu
    exact h.advanceKeyIf hv c true
  | keyClear =>
    cases hu
    exact { h with wkDestroyed := fun _ => rfl, wkFromRoot := fun hn => by cases hn }
  | splitKey => obtain ⟨-, -, rfl⟩ := splitKeyCmd_ok.1 hu; exact { h with }
  | rotl8 amount => cases hu; exact { h with }
  | rotr8 amount => cases hu; exact { h with }
  | encBlock count adv record =>
    obtain ⟨hv, -, hroom, rfl⟩ := encBlock_ok.1 hu
    refine Inv.advanceKeyIf ?_ (by simpa using hv) c adv
    have hlen := bitlen_encryptValue_le s.wk count s.blk
    have hset : Inv { s with
        ct := BitVec.ofNat 128 (encryptValue s.wk (blockValue count s.blk))
        ctlen := BitVec.ofNat 8 (bitlen (encryptValue s.wk (blockValue count s.blk))) } :=
      { h with ctlenRange := (Nat.mod_le _ _).trans hlen }
    cases record with
    | true => exact hset.pushRecord (hroom rfl) _
    | false => exact hset
  | decBlock adv =>
    obtain ⟨hv, r, hr, rfl⟩ := decBlock_ok.1 hu
    refine Inv.advanceKeyIf ?_ (by simpa using hv) c adv
    exact { h with blklenRange := (Nat.mod_le _ _).trans (minbytesLen_decryptValue_le hr) }
  | mdClear =>
    cases hu
    have hzero : Inv { s with mdlen := 0, mdblocks := 0 } :=
      { h with mdblocksRange := Nat.zero_le 16 }
    exact (hzero.setRecords rfl).setMbuf (Nat.zero_le bufBytes)
  | mdPush len =>
    obtain ⟨hroom, rfl⟩ := mdPush_ok.1 hu
    exact h.pushRecord hroom _
  | mdEncrypt =>
    obtain ⟨-, -, rfl⟩ := mdEncrypt_ok.1 hu
    have hblocks : footerBlocks s.records.length ≤ 16 := by
      refine footerBlocks_le ?_
      have := s.mdcount.isLt
      simp only [State.records, length_readBytes]
      omega
    have hfooter : (footer c s.records s.rk s.iv).length ≤ bufBytes := by
      rw [length_footer, bufBytes]
      omega
    exact { h.setMbuf hfooter with mdblocksRange := (Nat.mod_le _ _).trans hblocks }
  | mdDecrypt =>
    obtain ⟨-, -, hl, recs, nb, hundo, rfl⟩ := mdDecrypt_ok.1 hu
    obtain ⟨hrecs, hnb⟩ := undo_footerInput_sizes hl hundo
    have hcount : (BitVec.ofNat 8 recs.length).toNat = recs.length :=
      Nat.mod_eq_of_lt (Nat.lt_succ_of_le hrecs)
    exact { h.setRecords hcount with mdblocksRange := (Nat.mod_le _ _).trans hnb }

/-! ## Bus events keep the invariant -/

/-- Accepting a command with a latency of at least one cycle keeps the invariant (R26). -/
theorem Inv.accept {s : State} (h : Inv s) (w : Word) {n : Nat} (hn : 1 ≤ n) :
    Inv (accept w n s) :=
  { h with
    pendBusy := rfl
    counterBusy := by simp [hn]
    doneIdle := fun hd => by cases hd }

/-- Every supported write keeps the invariant; an MBUF word is wholly inside MBUF. -/
theorem Inv.writeAccess {s : State} (h : Inv s) (c : Config) {r : Reg} (v : Word)
    (hr : ∀ o, r = .mbuf o → mbufBase ≤ o ∧ o + 4 ≤ mbufBase + bufBytes) :
    Inv (writeAccess c r v s) := by
  rcases writeAccess_cases c r v s with hw | ⟨hw, -⟩ | ⟨-, hw⟩ | ⟨-, -, hw⟩ | ⟨-, hw⟩
  · rwa [hw]
  · rw [hw]
    exact { h with }
  · rw [hw]
    refine { h with doneIdle := fun hd => h.doneIdle ?_ }
    exact (Bool.and_eq_true_iff.1 hd).1
  · rw [hw]
    exact inv_resetBlock s
  · rcases hw with ⟨-, hw⟩ | ⟨-, hw⟩ | ⟨j, -, -, hw⟩ | ⟨j, -, hw⟩ | ⟨-, hw⟩ | ⟨j, -, hw⟩ | ⟨-, hw⟩ |
      ⟨o, hmbuf, hw⟩ <;> rw [hw]
    · exact { h with }
    · exact h.accept v (Nat.le_add_left 1 _)
    · refine { h with
        wkFromRoot := fun hv => rkValid_iff.2 fun i => ?_
        rkUnwritten := unwritten_setWordAt j v h.rkUnwritten }
      show (s.rkv ||| 1#4 <<< j.val).getLsbD i.val = true
      rw [getLsbD_or_flag, rkValid_iff.1 (h.wkFromRoot hv) i, Bool.or_true]
    · exact { h with ivUnwritten := unwritten_setWordAt j v h.ivUnwritten }
    · exact { h with }
    · exact { h with }
    · exact { h with }
    · obtain ⟨ho, ho'⟩ := hr o hmbuf
      exact h.storeMbuf ho (by simpa using ho')

/-- Every bus event keeps the invariant. -/
theorem Inv.handleEvent {s t : State} (h : Inv s) {c : Config} {e : BusEvent}
    (he : handleEvent c e s = .next t) : Inv t := by
  rcases handleEvent_next he with ⟨o, w, -, -, -, rfl⟩ | ⟨o, w, -, -, -, rfl⟩ |
    ⟨o, w, v, -, -, hs, rfl⟩ | ⟨o, w, v, -, -, -, rfl⟩ | ⟨-, rfl⟩ | ⟨-, rfl⟩
  · rw [readAccess_eq]
    exact { h with }
  · exact { h with }
  · refine h.writeAccess c v fun a ha => ?_
    obtain ⟨rfl, hlo, hhi⟩ := regAt_mbuf ha
    obtain ⟨-, k, rfl⟩ := supported_iff.1 hs
    refine ⟨hlo, ?_⟩
    simp only [mbufBase, bufBytes] at *
    omega
  · exact { h with }
  · exact inv_resetBlock s
  · exact h

/-- Settles O52. -/
theorem invHoldsAtReset : Obligations.InvHoldsAtReset := inv_resetBlock State.reset

/-- Settles O53: a completing step completes a command that keeps the invariant or writes STATUS
alone; any other step lets a cycle pass and handles at most one bus event. -/
theorem stepKeepsInv : Obligations.StepKeepsInv := by
  intro s t h hstep
  cases hc : completing s with
  | some w =>
    rcases step_completing hc hstep with ⟨i, u, -, hu, rfl⟩ | ⟨code, -, rfl⟩
    · exact (h.effectOf hu).complete .ok
    · exact h.complete code
  | none =>
    rcases step_next hstep with ⟨w, i, hs, -⟩ | ⟨w, e, hs, -⟩ | ⟨-, -, rfl⟩ | ⟨e, rest, -, -, he⟩
    · simp [hc] at hs
    · simp [hc] at hs
    · exact h.tick hc s.bus
    · exact (h.tick hc rest).handleEvent he

end Sys2Proof.Machine

/-! PROOFS. The register window as a host sees it: one access that no completion comes before, at
every offset, idle and busy; resets; the status word and the interrupt line. -/

namespace Sys2Proof.Machine

/-! ## The register map (R22) -/

theorem regAt_rkey (j : Fin 4) : regAt (0x010 + 4 * j.val) = .rkey j := by decide +revert

theorem regAt_wkey (j : Fin 4) : regAt (0x020 + 4 * j.val) = .wkey j := by decide +revert

theorem regAt_iv (j : Fin 4) : regAt (0x030 + 4 * j.val) = .iv j := by decide +revert

theorem regAt_ct (j : Fin 4) : regAt (0x050 + 4 * j.val) = .ct j := by decide +revert

theorem regAt_of_lbuf {offset : Nat} (h : lbufBase ≤ offset) (h' : offset < lbufBase + bufBytes) :
    regAt offset = .lbuf offset := if_pos ⟨h, h'⟩

/-- The offsets between the last register and LBUF are reserved (R42). -/
theorem regAt_below_lbuf {offset : Nat} (h : 0x080 ≤ offset) (h' : offset < lbufBase) :
    regAt offset = .reserved := by
  unfold regAt
  rw [if_neg (by omega), if_neg (by simp only [lbufBase, mbufBase] at *; omega)]
  split
  any_goals omega
  rfl

/-- The offset of a four-word register's word, from its range. -/
theorem exists_word_of_range {base offset : Nat} (hb : 4 ∣ base) (h4 : 4 ∣ offset)
    (h : base ≤ offset) (h' : offset < base + 0x010) : ∃ j : Fin 4, offset = base + 4 * j.val :=
  ⟨⟨(offset - base) / 4, by omega⟩, by simp only; omega⟩

/-! ## One access that no completion comes before (R66) -/

/-- The state in which a bus event is handled: a cycle has passed, and the events behind it wait. -/
def State.handling (s : State) (rest : List BusEvent) : State :=
  { s with bus := rest, cyclesLeft := s.cyclesLeft - 1 }

@[simp] theorem handling_busy (s : State) (rest : List BusEvent) :
    (s.handling rest).busy = s.busy := rfl
@[simp] theorem handling_rkLock (s : State) (rest : List BusEvent) :
    (s.handling rest).rkLock = s.rkLock := rfl
@[simp] theorem handling_werr (s : State) (rest : List BusEvent) :
    (s.handling rest).werr = s.werr := rfl

/-- A cycle with a bus event and nothing to complete handles the event. -/
theorem cycle_event {c : Config} {s : State} {e : BusEvent} {rest : List BusEvent}
    (hn : ¬(s.busy = true ∧ s.cyclesLeft ≤ 1)) (hb : s.bus = e :: rest) :
    cycle c exec s = handleEvent c e (s.handling rest) := by
  rw [cycle, completing_eq_none hn, busCycle, hb]
  rfl

theorem handleEvent_read {c : Config} {offset width : Nat} {s : State} (hw : offset < windowBytes)
    (hs : supported offset width = true) :
    handleEvent c (.read offset width) s = .next (readAccess c (regAt offset) s) := by
  rw [handleEvent, if_neg (Nat.not_le.2 hw), if_pos hs]

theorem handleEvent_read_unsupported {c : Config} {offset width : Nat} {s : State}
    (hw : offset < windowBytes) (hs : supported offset width = false) :
    handleEvent c (.read offset width) s = .next { s with rdata := 0 } := by
  rw [handleEvent, if_neg (Nat.not_le.2 hw), if_neg (Bool.not_eq_true _ ▸ hs)]

theorem handleEvent_write {c : Config} {offset width : Nat} {v : Word} {s : State}
    (hw : offset < windowBytes) (hs : supported offset width = true) :
    handleEvent c (.write offset width v) s = .next (writeAccess c (regAt offset) v s) := by
  rw [handleEvent, if_neg (Nat.not_le.2 hw), if_pos hs]

theorem handleEvent_write_unsupported {c : Config} {offset width : Nat} {v : Word} {s : State}
    (hw : offset < windowBytes) (hs : supported offset width = false) :
    handleEvent c (.write offset width v) s = .next s.dropWrite := by
  rw [handleEvent, if_neg (Nat.not_le.2 hw), if_neg (Bool.not_eq_true _ ▸ hs)]

theorem step_read {s : State} {offset : Nat} {rest : List BusEvent}
    (hn : ¬(s.busy = true ∧ s.cyclesLeft ≤ 1)) (hb : s.bus = .read offset 4 :: rest)
    (hw : offset < windowBytes) (h4 : 4 ∣ offset) :
    step s = .next (readAccess Config.actual (regAt offset) (s.handling rest)) :=
  (cycle_event hn hb).trans (handleEvent_read hw (supported_iff.2 ⟨rfl, h4⟩))

theorem step_write {s : State} {offset : Nat} {v : Word} {rest : List BusEvent}
    (hn : ¬(s.busy = true ∧ s.cyclesLeft ≤ 1)) (hb : s.bus = .write offset 4 v :: rest)
    (hw : offset < windowBytes) (h4 : 4 ∣ offset) :
    step s = .next (writeAccess Config.actual (regAt offset) v (s.handling rest)) :=
  (cycle_event hn hb).trans (handleEvent_write hw (supported_iff.2 ⟨rfl, h4⟩))

/-- An idle block completes nothing. -/
theorem not_completing_of_idle {s : State} (h : s.busy = false) :
    ¬(s.busy = true ∧ s.cyclesLeft ≤ 1) := by simp [h]

/-! ## Reads (R63, R66, R237) -/

/-- A read shows the stored value of a register that is no result register, and while BUSY = 0 of
every register. -/
theorem readAccess_stored {c : Config} {r : Reg} {s : State}
    (h : s.busy = true → drawMask r = none) :
    readAccess c r s = { s with rdata := readReg c s r } := by
  unfold readAccess
  cases hb : s.busy with
  | true => simp [h hb]
  | false => rfl

/-- A read of a result register while BUSY = 1 is a draw. -/
theorem readAccess_draw {c : Config} {r : Reg} {s : State} {mask : Word} (hb : s.busy = true)
    (h : drawMask r = some mask) :
    readAccess c r s = { s with rdata := c.draw s.draws &&& mask, draws := s.draws + 1 } := by
  simp [readAccess, hb, h]

/-- No register shows the bus queue or the latency counter. -/
theorem readReg_handling (c : Config) (s : State) (rest : List BusEvent) (r : Reg) :
    readReg c (s.handling rest) r = readReg c s r := by cases r <;> rfl

/-- Without KEY_READBACK no register shows the RootKey or the WorkingKey (R27, R29). -/
theorem readReg_keys {c : Config} (hc : c.keyReadback = false) (s : State) (rk wk : Bytes16)
    (r : Reg) : readReg c { s with rk := rk, wk := wk } r = readReg c s r := by
  cases r with
  | rkey j => simp [readReg, keyWord, hc]
  | wkey j => simp [readReg, keyWord, hc]
  | _ => rfl

/-- A read that shows the stored value `v` of the register `r`. -/
theorem step_read_stored {s : State} {offset : Nat} {r : Reg} {v : Word} {rest : List BusEvent}
    (hn : ¬(s.busy = true ∧ s.cyclesLeft ≤ 1)) (hw : offset < windowBytes) (h4 : 4 ∣ offset)
    (hr : regAt offset = r) (hd : s.busy = true → drawMask r = none)
    (hv : readReg Config.actual s r = v) :
    step { s with bus := .read offset 4 :: rest } =
      .next { s with bus := rest, cyclesLeft := s.cyclesLeft - 1, rdata := v } := by
  have hs : step { s with bus := .read offset 4 :: rest } =
      .next (readAccess Config.actual (regAt offset) (s.handling rest)) := step_read hn rfl hw h4
  rw [hs, hr, readAccess_stored (s := s.handling rest) hd, readReg_handling, hv]
  rfl

/-- A read that draws. -/
theorem step_read_draw {s : State} {offset : Nat} {mask : Word} {rest : List BusEvent}
    (hn : ¬(s.busy = true ∧ s.cyclesLeft ≤ 1)) (hw : offset < windowBytes) (h4 : 4 ∣ offset)
    (hb : s.busy = true) (hd : drawMask (regAt offset) = some mask) :
    step { s with bus := .read offset 4 :: rest } =
      .next { s with bus := rest, cyclesLeft := s.cyclesLeft - 1,
                     rdata := Config.actual.draw s.draws &&& mask, draws := s.draws + 1 } := by
  have hs : step { s with bus := .read offset 4 :: rest } =
      .next (readAccess Config.actual (regAt offset) (s.handling rest)) := step_read hn rfl hw h4
  rw [hs, readAccess_draw (s := s.handling rest) hb hd]
  rfl

/-- Settles O49: a read that takes no draw shows a stored value, and no stored value shows a key. -/
theorem keysAreHiddenWithoutReadback : Obligations.KeysAreHiddenWithoutReadback := by
  intro c s rk wk offset width rest t hc hn hb ht hdraws
  let s' : State := { s with rk := rk, wk := wk }
  have hs' : cycle c exec s' = handleEvent c (.read offset width) (s'.handling rest) :=
    cycle_event hn hb
  refine hs'.trans ?_
  rw [cycle_event hn hb] at ht
  rcases handleEvent_next ht with ⟨o, w, ⟨⟩, hw, hs, rfl⟩ | ⟨o, w, ⟨⟩, hw, hs, rfl⟩ |
    ⟨_, _, _, ⟨⟩, -⟩ | ⟨_, _, _, ⟨⟩, -⟩ | ⟨⟨⟩, -⟩ | ⟨⟨⟩, -⟩
  · have hd : s.busy = true → drawMask (regAt offset) = none := by
      intro hbusy
      cases hm : drawMask (regAt offset) with
      | none => rfl
      | some mask =>
        rw [readAccess_draw (s := s.handling rest) hbusy hm] at hdraws
        exact absurd hdraws (Nat.succ_ne_self _)
    rw [handleEvent_read hw hs, readAccess_stored (s := s.handling rest) hd,
      readAccess_stored (s := s'.handling rest) hd, readReg_handling, readReg_handling,
      readReg_keys hc s rk wk]
    rfl
  · exact handleEvent_read_unsupported hw hs

/-- A register word by the place of its bits (R27, R34). -/
theorem wordAt_eq_extractLsb' (v : Bytes16) (j : Fin 4) :
    wordAt v j = v.extractLsb' (96 - 32 * j.val) 32 := by
  rw [wordAt, show 32 * (3 - j.val) = 96 - 32 * j.val by omega]

theorem keyWord_eq (c : Config) (k : Bytes16) (j : Fin 4) :
    keyWord c k j = if c.keyReadback = true then k.extractLsb' (96 - 32 * j.val) 32 else 0 := by
  rw [keyWord, wordAt_eq_extractLsb']

theorem ctrlWord_eq (s : State) :
    s.ctrlWord = BitVec.ofNat 32 (s.irqEn.toNat + 2 * s.rkLock.toNat) := by
  unfold State.ctrlWord
  cases s.irqEn <;> cases s.rkLock <;> rfl

/-- The reserved offsets (R42). -/
theorem regAt_reserved {offset : Nat} (h4 : 4 ∣ offset)
    (h : offset = 0x048 ∨ offset = 0x04C ∨ (0x064 ≤ offset ∧ offset ≤ 0x06C) ∨
      (0x080 ≤ offset ∧ offset ≤ 0x1FC)) : regAt offset = .reserved := by
  rcases h with rfl | rfl | ⟨hlo, hhi⟩ | ⟨hlo, hhi⟩
  · rfl
  · rfl
  · obtain rfl | rfl | rfl : offset = 0x064 ∨ offset = 0x068 ∨ offset = 0x06C := by omega
    all_goals rfl
  · exact regAt_below_lbuf hlo (Nat.lt_succ_of_le (hhi.trans (by decide)))

/-- The LBUF and MBUF windows: a read shows the four bytes packed, and is a draw while BUSY = 1. -/
theorem regAt_buffers (c : Config) (s : State) {offset : Nat} (hlo : 0x200 ≤ offset)
    (hhi : offset ≤ 0x3FC) :
    readReg c s (regAt offset) = s.mem.readWord offset ∧
      drawMask (regAt offset) = some 0xFFFFFFFF := by
  by_cases h : offset < lbufBase + bufBytes
  · rw [regAt_of_lbuf hlo h]
    exact ⟨rfl, rfl⟩
  · rw [regAt_of_mbuf (Nat.not_lt.1 h) (lt_of_le_of_lt hhi (by decide))]
    exact ⟨rfl, rfl⟩

/-- Settles O45: each offset by its register, and each register by its stored value or its draw. -/
theorem readsReturnStoredWordOrDraw : Obligations.ReadsReturnStoredWordOrDraw := by
  intro s rest hn shows draws word key
  have window (j : Fin 4) {base : Nat} (hb : base ≤ 0x050) : base + 4 * j.val < windowBytes := by
    simp only [windowBytes]
    omega
  have aligned (j : Fin 4) {base : Nat} (hb : 4 ∣ base) : 4 ∣ base + 4 * j.val :=
    Nat.dvd_add hb (Nat.dvd_mul_right 4 j.val)
  have inWindow {offset : Nat} (h : offset ≤ 0x3FC) : offset < windowBytes :=
    Nat.lt_succ_of_le (h.trans (by decide))
  refine ⟨?_, ?_, ?_, ?_, fun j => ?_, fun j => ?_, ?_, fun offset h4 h => ?_, fun hb => ?_,
    fun hb => ?_⟩
  · exact step_read_stored hn (by decide) (by decide) rfl (fun _ => rfl) rfl
  · exact step_read_stored hn (by decide) (by decide) rfl (fun _ => rfl) (ctrlWord_eq s)
  · exact step_read_stored hn (by decide) (by decide) rfl (fun _ => rfl) rfl
  · exact step_read_stored hn (by decide) (by decide) rfl (fun _ => rfl) rfl
  · exact step_read_stored hn (window j (by decide)) (aligned j (by decide)) (regAt_rkey j)
      (fun _ => rfl) (keyWord_eq _ _ j)
  · exact step_read_stored hn (window j (by decide)) (aligned j (by decide)) (regAt_iv j)
      (fun _ => rfl) (wordAt_eq_extractLsb' _ j)
  · exact step_read_stored hn (by decide) (by decide) rfl (fun _ => rfl) rfl
  · exact step_read_stored hn (inWindow (by omega)) h4 (regAt_reserved h4 h) (fun _ => rfl) rfl
  · have idle {r : Reg} (hbusy : s.busy = true) : drawMask r = none := by simp [hb] at hbusy
    refine ⟨fun j => ?_, ?_, ?_, fun j => ?_, ?_, ?_, ?_, ?_, fun offset h4 hlo hhi => ?_⟩
    · exact step_read_stored hn (window j (by decide)) (aligned j (by decide)) (regAt_wkey j) idle
        (keyWord_eq _ _ j)
    · exact step_read_stored hn (by decide) (by decide) rfl idle rfl
    · exact step_read_stored hn (by decide) (by decide) rfl idle (BitVec.ofNat_toNat _ _).symm
    · exact step_read_stored hn (window j (by decide)) (aligned j (by decide)) (regAt_ct j) idle
        (wordAt_eq_extractLsb' _ j)
    · exact step_read_stored hn (by decide) (by decide) rfl idle (BitVec.ofNat_toNat _ _).symm
    · exact step_read_stored hn (by decide) (by decide) rfl idle (BitVec.ofNat_toNat _ _).symm
    · exact step_read_stored hn (by decide) (by decide) rfl idle (BitVec.ofNat_toNat _ _).symm
    · exact step_read_stored hn (by decide) (by decide) rfl idle (BitVec.ofNat_toNat _ _).symm
    · exact step_read_stored hn (inWindow hhi) h4 rfl idle (regAt_buffers _ s hlo hhi).1
  · refine ⟨fun j => ?_, ?_, ?_, fun j => ?_, ?_, ?_, ?_, ?_, fun offset h4 hlo hhi => ?_⟩
    · exact step_read_draw hn (window j (by decide)) (aligned j (by decide)) hb
        (congrArg drawMask (regAt_wkey j))
    · exact step_read_draw hn (by decide) (by decide) hb rfl
    · exact step_read_draw hn (by decide) (by decide) hb rfl
    · exact step_read_draw hn (window j (by decide)) (aligned j (by decide)) hb
        (congrArg drawMask (regAt_ct j))
    · exact step_read_draw hn (by decide) (by decide) hb rfl
    · exact step_read_draw hn (by decide) (by decide) hb rfl
    · exact step_read_draw hn (by decide) (by decide) hb rfl
    · exact step_read_draw hn (by decide) (by decide) hb rfl
    · exact step_read_draw hn (inWindow hhi) h4 hb (regAt_buffers Config.actual s hlo hhi).2

end Sys2Proof.Machine

/-! PROOFS. Writes through the register window: acceptance, STATUS, CTRL and resets, the input
registers, and the writes that are dropped; the status word and the interrupt line. -/

namespace Sys2Proof.Machine

/-! ## CMD, STATUS, CTRL and resets (R24 to R26, R230, R231) -/

/-- Settles O8: the latency is the extra latency and one cycle. -/
theorem commandWriteIsAccepted : Obligations.CommandWriteIsAccepted := by
  intro s w rest hidle hb
  refine ⟨Config.actual.latency w (s.handling rest), Nat.le_add_left 1 _, ?_⟩
  rw [step_write (not_completing_of_idle hidle) hb (by decide) (by decide)]
  exact congrArg Host.Outcome.next (writeInput_idle (s := s.handling rest) hidle)

theorem step_write_status {s : State} {v : Word} {rest : List BusEvent}
    (hn : ¬(s.busy = true ∧ s.cyclesLeft ≤ 1)) (hb : s.bus = .write 0x008 4 v :: rest) :
    step s = .next ((s.handling rest).clearStatus v) :=
  step_write hn hb (by decide) (by decide)

/-- Settles O40. -/
theorem statusWriteClearsOnes : Obligations.StatusWriteClearsOnes := by
  intro s v rest hn hb
  refine ⟨_, step_write_status hn hb, ?_, ?_, ?_, rfl⟩
  · simp [State.handling]
  · simp [State.handling]
  · simp

theorem step_write_ctrl {s : State} {v : Word} {rest : List BusEvent}
    (hn : ¬(s.busy = true ∧ s.cyclesLeft ≤ 1)) (hb : s.bus = .write 0x004 4 v :: rest) :
    step s = .next (writeCtrl v (s.handling rest)) :=
  step_write hn hb (by decide) (by decide)

/-- Settles O41. -/
theorem controlWrite : Obligations.ControlWrite := by
  intro s v rest hn hb hv
  rw [step_write_ctrl hn hb, writeCtrl, if_neg (Bool.eq_false_iff.1 hv), writeInput]
  rfl

/-- Settles O51. -/
theorem resetsGiveTheResetState : Obligations.ResetsGiveTheResetState := by
  refine ⟨⟨rfl, rfl, rfl, rfl, rfl, rfl, rfl, rfl, rfl, rfl, rfl, rfl, rfl, rfl, fun _ => rfl, rfl,
    rfl, rfl, rfl, rfl⟩, fun s v rest hn h => ?_⟩
  rcases h with hb | ⟨hb, hv⟩
  · exact cycle_event hn hb
  · rw [step_write_ctrl hn hb, writeCtrl, if_pos hv]
    rfl

/-! ## The status word and the interrupt line (R25, R46, R206) -/

theorem getLsbD_append_ofBool_zero {n : Nat} (x : BitVec n) (b : Bool) :
    (x ++ BitVec.ofBool b).getLsbD 0 = b := by
  rw [BitVec.getLsbD_append, if_pos Nat.one_pos]
  cases b <;> rfl

theorem getLsbD_append_ofBool_succ {n : Nat} (x : BitVec n) (b : Bool) (i : Nat) :
    (x ++ BitVec.ofBool b).getLsbD (i + 1) = x.getLsbD i := by
  rw [BitVec.getLsbD_append, if_neg (by omega), Nat.add_sub_cancel]

/-- Appending a flag doubles the value and adds the flag. -/
theorem toNat_append_ofBool {n : Nat} (x : BitVec n) (b : Bool) :
    (x ++ BitVec.ofBool b).toNat = 2 * x.toNat + b.toNat := by
  rw [BitVec.toNat_append, BitVec.toNat_ofBool, ← Nat.shiftLeft_add_eq_or_of_lt b.toNat_lt,
    Nat.shiftLeft_eq]
  omega

/-- The STATUS word is ERRCODE at bit 8 above eight bits of flags (R25). -/
theorem toNat_statusWord (s : State) :
    ∃ flags < 256, s.statusWord.toNat = s.errcode.toByte.toNat * 256 + flags := by
  have herr : ((0 : BitVec 16) ++ s.errcode.toByte).toNat = s.errcode.toByte.toNat := by
    rw [BitVec.toNat_append]
    simp
  refine ⟨s.rkLock.toNat * 128 + s.ivValid.toNat * 64 + s.wkValid.toNat * 32 +
    s.rkValid.toNat * 16 + s.werr.toNat * 8 + s.err.toNat * 4 + s.done.toNat * 2 + s.busy.toNat,
    ?_, ?_⟩
  · have := s.rkLock.toNat_le
    have := s.ivValid.toNat_le
    have := s.wkValid.toNat_le
    have := s.rkValid.toNat_le
    have := s.werr.toNat_le
    have := s.err.toNat_le
    have := s.done.toNat_le
    have := s.busy.toNat_le
    omega
  · simp only [State.statusWord, toNat_append_ofBool, herr]
    omega

/-- Settles O39: the flags bit by bit from the low end, ERRCODE from the value of the word. -/
theorem statusWordLayout : Obligations.StatusWordLayout := by
  intro s
  obtain ⟨flags, hflags, hvalue⟩ := toNat_statusWord s
  have hcode := s.errcode.toByte.isLt
  refine ⟨?_, ?_, ?_, ?_, ?_, ?_, ?_, ?_, ?_, by omega, rkValid_iff, ivValid_iff, rfl, rfl, rfl,
    rfl, rfl, rfl, rfl⟩
  case refine_9 =>
    apply BitVec.eq_of_toNat_eq
    rw [BitVec.extractLsb'_toNat, hvalue, Nat.shiftRight_eq_div_pow]
    omega
  all_goals
    simp only [State.statusWord, getLsbD_append_ofBool_zero, getLsbD_append_ofBool_succ]

/-- The level of the interrupt line (R46). -/
theorem irq_iff (s : State) : s.irq = true ↔ s.irqEn = true ∧ (s.done = true ∨ s.err = true) := by
  simp [State.irq]

/-- Settles O38: the level of the line in the states that completions, acceptance and STATUS writes
leave. -/
theorem interruptFollowsCompletion : Obligations.InterruptFollowsCompletion := by
  refine ⟨irq_iff, ?_, ?_, ?_, ?_⟩
  · intro i s t h
    rw [exec_eq_finish] at h
    rcases finish_next.1 h with ⟨u, hu, rfl⟩ | ⟨code, -, rfl⟩
    · rw [effectOf_frame hu]
      simp [State.irq]
    · simp [State.irq]
  · intro s t w hbusy hleft hpend h
    rw [step_completing_frame (completing_eq_some.2 ⟨hbusy, hleft, hpend⟩) h]
    simp [State.irq]
  · intro s t w rest hidle hb h
    obtain ⟨n, -, hs⟩ := commandWriteIsAccepted s w rest hidle hb
    cases hs.symm.trans h
    simp [irq_iff]
  · intro s v rest hn hb
    refine ⟨_, step_write_status hn hb, rfl, ?_⟩
    simp [irq_iff, State.handling]

end Sys2Proof.Machine

/-! PROOFS. The input registers: what an idle write stores and what a read after it returns, the
loading of the RootKey and the IV, and the writes that are dropped with WERR. -/

namespace Sys2Proof.Machine

/-! ## What an idle write stores (R27, R31, R32, R34, R37, R41) -/

section IdleWrites

variable {s : State} {v : Word} {rest : List BusEvent} (hidle : s.busy = false)
include hidle

theorem step_write_rkey {j : Fin 4} (hl : s.rkLock = false)
    (hb : s.bus = .write (0x010 + 4 * j.val) 4 v :: rest) :
    step s = .next { s with
      bus := rest, cyclesLeft := s.cyclesLeft - 1,
      rk := setWordAt s.rk j v, rkv := s.rkv ||| 1#4 <<< j.val } := by
  have hj := j.isLt
  rw [step_write (not_completing_of_idle hidle) hb (by simp only [windowBytes]; omega) (by omega),
    regAt_rkey, writeAccess, writeRkey, if_neg (by simp [hl])]
  exact congrArg Host.Outcome.next (writeInput_idle (s := s.handling rest) hidle)

theorem step_write_iv {j : Fin 4} (hb : s.bus = .write (0x030 + 4 * j.val) 4 v :: rest) :
    step s = .next { s with
      bus := rest, cyclesLeft := s.cyclesLeft - 1,
      iv := setWordAt s.iv j v, ivv := s.ivv ||| 1#4 <<< j.val } := by
  have hj := j.isLt
  rw [step_write (not_completing_of_idle hidle) hb (by simp only [windowBytes]; omega) (by omega),
    regAt_iv]
  exact congrArg Host.Outcome.next (writeInput_idle (s := s.handling rest) hidle)

theorem step_write_blk (hb : s.bus = .write 0x040 4 v :: rest) :
    step s = .next { s with bus := rest, cyclesLeft := s.cyclesLeft - 1, blk := v } := by
  rw [step_write (not_completing_of_idle hidle) hb (by decide) (by decide)]
  exact congrArg Host.Outcome.next (writeInput_idle (s := s.handling rest) hidle)

theorem step_write_ct {j : Fin 4} (hb : s.bus = .write (0x050 + 4 * j.val) 4 v :: rest) :
    step s = .next { s with
      bus := rest, cyclesLeft := s.cyclesLeft - 1, ct := setWordAt s.ct j v } := by
  have hj := j.isLt
  rw [step_write (not_completing_of_idle hidle) hb (by simp only [windowBytes]; omega) (by omega),
    regAt_ct]
  exact congrArg Host.Outcome.next (writeInput_idle (s := s.handling rest) hidle)

theorem step_write_mdlen (hb : s.bus = .write 0x074 4 v :: rest) :
    step s = .next { s with
      bus := rest, cyclesLeft := s.cyclesLeft - 1, mdlen := v.setWidth 9 } := by
  rw [step_write (not_completing_of_idle hidle) hb (by decide) (by decide)]
  exact congrArg Host.Outcome.next (writeInput_idle (s := s.handling rest) hidle)

theorem step_write_mbuf {offset : Nat} (h4 : 4 ∣ offset) (hlo : mbufBase ≤ offset)
    (hhi : offset < mbufBase + bufBytes) (hb : s.bus = .write offset 4 v :: rest) :
    step s = .next { s with
      bus := rest, cyclesLeft := s.cyclesLeft - 1, mem := s.mem.writeWord offset v } := by
  rw [step_write (not_completing_of_idle hidle) hb hhi h4, regAt_of_mbuf hlo hhi]
  exact congrArg Host.Outcome.next (writeInput_idle (s := s.handling rest) hidle)

end IdleWrites

/-! ## Register and memory words (R27, R34, R41, R61) -/

/-- `wordAt_setWordAt`, with the words named by the place of their bits. -/
theorem extractLsb'_setWordAt (x : Bytes16) (i j : Fin 4) (v : Word) :
    (setWordAt x j v).extractLsb' (96 - 32 * i.val) 32 =
      if i = j then v else x.extractLsb' (96 - 32 * i.val) 32 := by
  rw [← wordAt_eq_extractLsb', ← wordAt_eq_extractLsb', wordAt_setWordAt]

/-- The bytes after a window word was stored: its four bytes, most significant first, and every
other byte as before. -/
theorem Memory.read_writeWord {m : Memory} (a : Nat) (w : Word) (b : Nat) (h : m.wf = true) :
    (m.writeWord a w).read b =
      if a ≤ b ∧ b < a + 4 then (wordBytes w).getD (b - a) 0 else m.read b :=
  Memory.read_writeBytes a (wordBytes w) b h

/-- A window word reads back. -/
theorem Memory.readWord_writeWord {m : Memory} (a : Nat) (w : Word) (h : m.wf = true) :
    (m.writeWord a w).readWord a = w := by
  have hread (i : Nat) (hi : i < 4) : (m.writeWord a w).read (a + i) = (wordBytes w).getD i 0 := by
    rw [Memory.read_writeWord a w _ h, if_pos (by omega), Nat.add_sub_cancel_left]
  rw [Memory.readWord, hread 1 (by decide), hread 2 (by decide), hread 3 (by decide),
    show (m.writeWord a w).read a = _ from hread 0 (by decide)]
  exact packWord_bytes w

/-- The low 9 bits of a word (R37). -/
theorem setWidth_nine_eq (v : Word) : v.setWidth 9 = BitVec.ofNat 9 (v.toNat % 512) := by
  apply BitVec.eq_of_toNat_eq
  simp

/-- The low 9 bits of a word, as MDLEN shows them (R37). -/
theorem setWidth_setWidth_nine (v : Word) : (v.setWidth 9).setWidth 32 = v &&& 0x1FF := by
  apply BitVec.eq_of_toNat_eq
  have hmask : v.toNat &&& 511 = v.toNat % 2 ^ 9 := Nat.and_two_pow_sub_one_eq_mod v.toNat 9
  simp only [BitVec.toNat_setWidth, BitVec.toNat_and]
  change _ = v.toNat &&& 511
  omega

/-! ## Reading back (R27 to R41) -/

/-- A step that leaves the block idle, and a read after it. -/
theorem run_step_read {s u : State} {offset : Nat} {x : Word} (hs : step s = .next u)
    (hidle : u.busy = false) (hb : u.bus = [.read offset 4]) (hw : offset < windowBytes)
    (h4 : 4 ∣ offset) (hx : readReg Config.actual u (regAt offset) = x) :
    ∃ t : State, Sys2Proof.core.run 2 s = .next t ∧ t.rdata = x := by
  have hd : u.busy = true → drawMask (regAt offset) = none := by simp [hidle]
  have hread := step_read (not_completing_of_idle hidle) hb hw h4
  rw [readAccess_stored (s := u.handling []) hd, readReg_handling, hx] at hread
  exact ⟨_, run_succ.2 ⟨u, hs, run_succ.2 ⟨_, hread, run_zero.2 rfl⟩⟩, rfl⟩

/-- Settles O46: each register by its own write. -/
theorem registerWritesStoreAndReadBack : Obligations.RegisterWritesStoreAndReadBack := by
  constructor
  · intro s v rest hwf hidle after word
    let withEvent (e : BusEvent) : State := { s with bus := e :: rest }
    refine ⟨fun hl j => ⟨_, step_write_rkey (s := withEvent _) hidle hl rfl,
        fun i => extractLsb'_setWordAt s.rk i j v, fun i => getLsbD_or_flag s.rkv i j, rfl⟩,
      fun j => ⟨_, step_write_iv (s := withEvent _) hidle rfl,
        fun i => extractLsb'_setWordAt s.iv i j v, fun i => getLsbD_or_flag s.ivv i j, rfl⟩,
      ⟨_, step_write_blk (s := withEvent _) hidle rfl, rfl⟩,
      fun j => ⟨_, step_write_ct (s := withEvent _) hidle rfl,
        fun i => extractLsb'_setWordAt s.ct i j v, rfl⟩,
      ⟨_, step_write_mdlen (s := withEvent _) hidle rfl, ?_⟩,
      fun offset h4 hlo hhi => ?_⟩
    · rw [← setWidth_nine_eq]
    · have hread (b : Nat) := Memory.read_writeWord offset v b hwf
      refine ⟨_, step_write_mbuf (s := withEvent _) hidle h4 hlo
        (lt_of_le_of_lt hhi (by decide)) rfl, ?_, ?_, ?_, ?_, fun a ha => ?_, rfl⟩
      · exact (hread _).trans (by simp [wordBytes])
      · exact (hread _).trans (by simp [wordBytes])
      · exact (hread _).trans (by simp [wordBytes])
      · exact (hread _).trans (by simp [wordBytes])
      · exact (hread a).trans (if_neg (by omega))
  · intro s offset v hwf hidle hb h4 h
    have readBack {u : State} (hs : step s = .next u) (hu : u.busy = s.busy)
        (hbus : u.bus = [.read offset 4]) {x : Word}
        (hx : readReg Config.actual u (regAt offset) = x) :
        ∃ t : State, Sys2Proof.core.run 2 s = .next t ∧ t.rdata = x :=
      run_step_read hs (hu.trans hidle) hbus (by simp only [windowBytes]; omega) h4 hx
    rcases h with ⟨hlo, hhi⟩ | ⟨hlo, hhi⟩ | rfl | ⟨hlo, hhi⟩
    · by_cases hblk : offset = 0x040
      · subst hblk
        exact readBack (step_write_blk hidle hb) rfl rfl rfl
      · obtain ⟨j, rfl⟩ := exists_word_of_range (by decide) h4 hlo (by omega)
        rw [if_neg (by omega)]
        refine readBack (step_write_iv hidle hb) rfl rfl ?_
        rw [regAt_iv, readReg, wordAt_setWordAt, if_pos rfl]
    · obtain ⟨j, rfl⟩ := exists_word_of_range (by decide) h4 hlo hhi
      rw [if_neg (by omega)]
      refine readBack (step_write_ct hidle hb) rfl rfl ?_
      rw [regAt_ct, readReg, wordAt_setWordAt, if_pos rfl]
    · exact readBack (step_write_mdlen hidle hb) rfl rfl (setWidth_setWidth_nine v)
    · rw [if_neg (by omega)]
      refine readBack (step_write_mbuf hidle h4 hlo hhi hb) rfl rfl ?_
      rw [regAt_of_mbuf hlo hhi, readReg]
      exact Memory.readWord_writeWord offset v hwf

/-! ## Loading the keys (R27, R28, R31) -/

/-- The four written flags are set by the four writes, whichever of them were. -/
theorem flags_all_written (x : BitVec 4) :
    x ||| 1#4 <<< 0 ||| 1#4 <<< 1 ||| 1#4 <<< 2 ||| 1#4 <<< 3 = 0b1111#4 := by
  decide +revert

/-- A run that begins with the write of an RKEY word. -/
theorem run_write_rkey {n : Nat} {s t : State} {v : Word} {rest : List BusEvent} (j : Fin 4)
    (hidle : s.busy = false) (hl : s.rkLock = false)
    (hb : s.bus = .write (0x010 + 4 * j.val) 4 v :: rest)
    (h : Sys2Proof.core.run n { s with
      bus := rest, cyclesLeft := s.cyclesLeft - 1,
      rk := setWordAt s.rk j v, rkv := s.rkv ||| 1#4 <<< j.val } = .next t) :
    Sys2Proof.core.run (n + 1) s = .next t :=
  run_succ.2 ⟨_, step_write_rkey hidle hl hb, h⟩

/-- A run that begins with the write of an IV word. -/
theorem run_write_iv {n : Nat} {s t : State} {v : Word} {rest : List BusEvent} (j : Fin 4)
    (hidle : s.busy = false) (hb : s.bus = .write (0x030 + 4 * j.val) 4 v :: rest)
    (h : Sys2Proof.core.run n { s with
      bus := rest, cyclesLeft := s.cyclesLeft - 1,
      iv := setWordAt s.iv j v, ivv := s.ivv ||| 1#4 <<< j.val } = .next t) :
    Sys2Proof.core.run (n + 1) s = .next t :=
  run_succ.2 ⟨_, step_write_iv hidle hb, h⟩

/-- Settles O47: four steps, one word each. -/
theorem rootKeyAndIvLoad : Obligations.RootKeyAndIvLoad := by
  intro s w0 w1 w2 w3 hidle
  refine ⟨fun hl hb => ?_, fun hb => ?_⟩
  · have hrun : Sys2Proof.core.run 4 s = .next { s with
        bus := []
        cyclesLeft := s.cyclesLeft - 1 - 1 - 1 - 1
        rk := setWordAt (setWordAt (setWordAt (setWordAt s.rk 0 w0) 1 w1) 2 w2) 3 w3
        rkv := s.rkv ||| 1#4 <<< 0 ||| 1#4 <<< 1 ||| 1#4 <<< 2 ||| 1#4 <<< 3 } := by
      refine run_write_rkey 0 hidle hl hb ?_
      refine run_write_rkey 1 hidle hl rfl ?_
      refine run_write_rkey 2 hidle hl rfl ?_
      exact run_write_rkey 3 hidle hl rfl (run_zero.2 rfl)
    rw [setWordAt_all, flags_all_written] at hrun
    exact ⟨_, hrun, rfl, rfl⟩
  · have hrun : Sys2Proof.core.run 4 s = .next { s with
        bus := []
        cyclesLeft := s.cyclesLeft - 1 - 1 - 1 - 1
        iv := setWordAt (setWordAt (setWordAt (setWordAt s.iv 0 w0) 1 w1) 2 w2) 3 w3
        ivv := s.ivv ||| 1#4 <<< 0 ||| 1#4 <<< 1 ||| 1#4 <<< 2 ||| 1#4 <<< 3 } := by
      refine run_write_iv 0 hidle hb ?_
      refine run_write_iv 1 hidle rfl ?_
      refine run_write_iv 2 hidle rfl ?_
      exact run_write_iv 3 hidle rfl (run_zero.2 rfl)
    rw [setWordAt_all, flags_all_written] at hrun
    exact ⟨_, hrun, rfl, rfl⟩

end Sys2Proof.Machine

/-! PROOFS. The writes that set WERR, and the writes that change nothing (R204). -/

namespace Sys2Proof.Machine

/-! ## The registers by what a supported write to them does (R204) -/

/-- The groups of registers that R204 tells apart. -/
inductive WriteClass where
  /-- CTRL: dropped while BUSY = 1, but for a reset. -/
  | control
  /-- STATUS: never dropped. -/
  | status
  /-- RKEY: dropped while BUSY = 1 or RK_LOCK = 1. -/
  | rootKey
  /-- CMD and the other input registers: dropped while BUSY = 1. -/
  | input
  /-- Read-only registers, LBUF and reserved offsets: ignored. -/
  | ignored

def writeClass : Reg → WriteClass
  | .ctrl => .control
  | .status => .status
  | .rkey _ => .rootKey
  | .cmd => .input
  | .iv _ => .input
  | .blk => .input
  | .ct _ => .input
  | .mdlen => .input
  | .mbuf _ => .input
  | .id => .ignored
  | .wkey _ => .ignored
  | .blklen => .ignored
  | .ctlen => .ignored
  | .mdcount => .ignored
  | .mdblocks => .ignored
  | .caps => .ignored
  | .lbuf _ => .ignored
  | .reserved => .ignored

/-- The aligned offsets of a group (R22). -/
@[reducible] def WriteClass.HasOffset (offset : Nat) : WriteClass → Prop
  | .control => offset = 0x004
  | .status => offset = 0x008
  | .rootKey => 0x010 ≤ offset ∧ offset < 0x020
  | .input => offset = 0x00C ∨ (0x030 ≤ offset ∧ offset < 0x044) ∨
      (0x050 ≤ offset ∧ offset < 0x060) ∨ offset = 0x074 ∨ 0x300 ≤ offset
  | .ignored => offset = 0x000 ∨ (0x020 ≤ offset ∧ offset < 0x030) ∨
      (0x044 ≤ offset ∧ offset < 0x050) ∨ (0x060 ≤ offset ∧ offset < 0x074) ∨
      (0x078 ≤ offset ∧ offset < 0x300)

/-- Every aligned offset below the reserved ones, by its register. -/
theorem hasOffset_low {k : Nat} (hk : k < 32) :
    (writeClass (regAt (4 * k))).HasOffset (4 * k) := by
  interval_cases k <;> simp [regAt, writeClass, WriteClass.HasOffset, lbufBase, mbufBase, bufBytes]

theorem hasOffset_writeClass_regAt {offset : Nat} (h4 : 4 ∣ offset) (hw : offset < windowBytes) :
    (writeClass (regAt offset)).HasOffset offset := by
  by_cases hlow : offset < 0x080
  · obtain ⟨k, rfl⟩ := h4
    exact hasOffset_low (by omega)
  · by_cases hres : offset < lbufBase
    · rw [regAt_below_lbuf (by omega) hres]
      simp only [writeClass, WriteClass.HasOffset, lbufBase] at *
      omega
    · by_cases hlbuf : offset < lbufBase + bufBytes
      · rw [regAt_of_lbuf (by omega) hlbuf]
        simp only [writeClass, WriteClass.HasOffset, lbufBase, bufBytes] at *
        omega
      · rw [regAt_of_mbuf (by simp only [mbufBase, lbufBase, bufBytes] at *; omega) hw]
        simp only [writeClass, WriteClass.HasOffset, lbufBase, bufBytes] at *
        omega

/-! ## What is dropped -/

/-- A supported write of `v` to a register of this group is dropped (cases 1 to 4 of R204). -/
def WriteClass.Drops (s : State) (v : Word) : WriteClass → Prop
  | .control => s.busy = true ∧ v.getLsbD 31 = false
  | .status => False
  | .rootKey => s.busy = true ∨ s.rkLock = true
  | .input => s.busy = true
  | .ignored => False

theorem writeAccess_of_drops (c : Config) {r : Reg} {v : Word} {s : State}
    (h : (writeClass r).Drops s v) : writeAccess c r v s = s.dropWrite := by
  cases r with
  | ctrl =>
    obtain ⟨hb, hv⟩ := h
    exact (if_neg (Bool.eq_false_iff.1 hv)).trans (writeInput_busy hb)
  | rkey j =>
    cases hl : s.rkLock with
    | true => exact if_pos hl
    | false =>
      have hb : s.busy = true := h.resolve_right (by simp [hl])
      exact (if_neg (by simp [hl])).trans (writeInput_busy hb)
  | cmd => exact writeInput_busy h
  | iv j => exact writeInput_busy h
  | blk => exact writeInput_busy h
  | ct j => exact writeInput_busy h
  | mdlen => exact writeInput_busy h
  | mbuf offset => exact writeInput_busy h
  | _ => exact h.elim

/-- A write that is not dropped does not set WERR. -/
theorem werr_writeAccess (c : Config) {r : Reg} {v : Word} {s : State}
    (h : ¬ (writeClass r).Drops s v) (hw : s.werr = false) :
    (writeAccess c r v s).werr = false := by
  have stored {t : State} (hb : ¬ s.busy = true) (ht : t.werr = s.werr) :
      (writeInput s t).werr = false := by
    rw [writeInput_idle (Bool.eq_false_iff.2 hb), ht, hw]
  cases r with
  | ctrl =>
    rw [writeAccess, writeCtrl]
    cases hv : v.getLsbD 31 with
    | true => rfl
    | false => exact stored (fun hb => h ⟨hb, hv⟩) rfl
  | status =>
    rw [writeAccess, clearStatus_werr, hw, Bool.false_and]
  | rkey j =>
    rw [writeAccess, writeRkey, if_neg fun hl => h (.inr hl)]
    exact stored (fun hb => h (.inl hb)) rfl
  | cmd => exact stored h rfl
  | iv j => exact stored h rfl
  | blk => exact stored h rfl
  | ct j => exact stored h rfl
  | mdlen => exact stored h rfl
  | mbuf offset => exact stored h rfl
  | _ => exact hw

theorem werr_writeAccess_iff (c : Config) (r : Reg) (v : Word) {s : State} (hw : s.werr = false) :
    (writeAccess c r v s).werr = true ↔ (writeClass r).Drops s v := by
  constructor
  · intro h
    by_contra hd
    rw [werr_writeAccess c hd hw] at h
    exact Bool.false_ne_true h
  · intro hd
    rw [writeAccess_of_drops c hd]
    rfl

theorem writeAccess_of_ignored (c : Config) {r : Reg} (v : Word) (s : State)
    (h : writeClass r = .ignored) : writeAccess c r v s = s := by
  cases r <;> cases h <;> rfl

/-- Cases 1 to 4 of R204, by the offset. -/
theorem WriteClass.drops_iff {w : WriteClass} {offset : Nat} (h : w.HasOffset offset) (s : State)
    (v : Word) :
    w.Drops s v ↔
      (s.busy = true ∧ (offset = 0x00C ∨ (0x010 ≤ offset ∧ offset < 0x020) ∨
        (0x030 ≤ offset ∧ offset < 0x044) ∨ (0x050 ≤ offset ∧ offset < 0x060) ∨
        offset = 0x074 ∨ 0x300 ≤ offset)) ∨
      (s.busy = true ∧ offset = 0x004 ∧ v.getLsbD 31 = false) ∨
      (s.rkLock = true ∧ 0x010 ≤ offset ∧ offset < 0x020) := by
  cases w <;> simp only [WriteClass.HasOffset, WriteClass.Drops] at h ⊢ <;> grind

/-- The offsets of the ignored writes belong to no other group. -/
theorem WriteClass.eq_ignored {w : WriteClass} {offset : Nat} (h : w.HasOffset offset)
    (hi : WriteClass.ignored.HasOffset offset) : w = .ignored := by
  cases w with
  | ignored => rfl
  | _ => simp only [WriteClass.HasOffset] at h hi; omega

/-- Settles O43: a supported write by the group of its register, and an unsupported one. -/
theorem writeErrorCases : Obligations.WriteErrorCases := by
  intro s offset width v rest hn hw hb
  by_cases hs : width = 4 ∧ 4 ∣ offset
  · obtain ⟨rfl, h4⟩ := hs
    have hoffset := hasOffset_writeClass_regAt h4 hw
    refine ⟨_, step_write hn hb hw h4, fun hwerr => ?_, fun _ _ hrange => ?_⟩
    · have hiff := werr_writeAccess_iff Config.actual (regAt offset) v (s := s.handling rest) hwerr
      refine ⟨hiff.trans ?_, fun ht => writeAccess_of_drops _ (hiff.1 ht)⟩
      rw [or_iff_right (by simp [h4])]
      exact WriteClass.drops_iff hoffset (s.handling rest) v
    · exact writeAccess_of_ignored _ v (s.handling rest) (WriteClass.eq_ignored hoffset hrange)
  · have hu : supported offset width = false :=
      Bool.eq_false_iff.2 fun h => hs (supported_iff.1 h)
    refine ⟨_, (cycle_event hn hb).trans (handleEvent_write_unsupported hw hu),
      fun _ => ⟨iff_of_true rfl (.inl ?_), fun _ => rfl⟩, fun h h4 => absurd ⟨h, h4⟩ hs⟩
    exact Decidable.not_and_iff_or_not.1 hs

end Sys2Proof.Machine

/-! PROOFS. Bus accesses and the command in flight: the completing step, unsupported and outside
accesses, the frame of a read, and the frame of every bus event while BUSY = 1. -/

namespace Sys2Proof.Machine

/-! ## The step at the last cycle (R66, R84) -/

theorem step_of_completing {s : State} {w : Word} (hc : completing s = some w) :
    step s = completeWord exec w s := by
  rw [step, cycle, hc]

theorem completeWord_of_decode {run : Instr → State → Host.Outcome State Fault Refusal} {w : Word}
    {i : Instr} (hd : decode w = .ok i) (s : State) : completeWord run w s = run i s := by
  rw [completeWord, hd]

/-- Settles O6: the command in flight completes, and its word decodes to `i`. -/
theorem stepRunsDecodedCommand : Obligations.StepRunsDecodedCommand := by
  intro s w i hbusy hleft hpend hd
  rw [step_of_completing (completing_eq_some.2 ⟨hbusy, hleft, hpend⟩), completeWord_of_decode hd]

/-! ## Accesses that are not supported, and accesses outside the window (R62) -/

theorem supported_eq_false_iff {offset width : Nat} :
    supported offset width = false ↔ width ≠ 4 ∨ ¬ 4 ∣ offset := by
  rw [← Bool.not_eq_true, supported_iff, not_and_or]

theorem handleEvent_read_outside {c : Config} {offset width : Nat} {s : State}
    (h : windowBytes ≤ offset) :
    handleEvent c (.read offset width) s = .fault (.outsideWindow offset) := by
  rw [handleEvent, if_pos h]

theorem handleEvent_write_outside {c : Config} {offset width : Nat} {v : Word} {s : State}
    (h : windowBytes ≤ offset) :
    handleEvent c (.write offset width v) s = .fault (.outsideWindow offset) := by
  rw [handleEvent, if_pos h]

/-- Settles O42: the step handles the access, inside the window as an unsupported one. -/
theorem unsupportedAccess : Obligations.UnsupportedAccess := by
  intro s offset width v rest hn
  refine ⟨fun hw hu => ?_, fun hout => ⟨fun hb => ?_, fun hb => ?_⟩⟩
  · have hs : supported offset width = false := supported_eq_false_iff.2 hu
    exact ⟨fun hb => (cycle_event hn hb).trans (handleEvent_read_unsupported hw hs),
      fun hb => (cycle_event hn hb).trans (handleEvent_write_unsupported hw hs)⟩
  · exact (cycle_event hn hb).trans (handleEvent_read_outside hout)
  · exact (cycle_event hn hb).trans (handleEvent_write_outside hout)

/-! ## The frame of a read (R63) -/

/-- A read of any width changes only the bus word and the count of draws. -/
theorem handleEvent_read_frame {c : Config} {offset width : Nat} {s t : State}
    (h : handleEvent c (.read offset width) s = .next t) :
    t = { s with rdata := t.rdata, draws := t.draws } := by
  rcases handleEvent_next h with ⟨o, w, -, -, -, rfl⟩ | ⟨o, w, -, -, -, rfl⟩ |
    ⟨_, _, _, ⟨⟩, -⟩ | ⟨_, _, _, ⟨⟩, -⟩ | ⟨⟨⟩, -⟩ | ⟨⟨⟩, -⟩
  · exact readAccess_eq c (regAt o) s
  · rfl

/-- A step that handles a bus event inside the window leads to a state that the event gives. -/
theorem step_inWindow {s : State} {e : BusEvent} {rest : List BusEvent}
    (hn : ¬(s.busy = true ∧ s.cyclesLeft ≤ 1)) (hb : s.bus = e :: rest)
    (he : e.inWindow = true) :
    ∃ t, step s = .next t ∧ handleEvent Config.actual e (s.handling rest) = .next t := by
  obtain ⟨t, ht⟩ := handleEvent_inWindow Config.actual (s.handling rest) he
  exact ⟨t, (cycle_event hn hb).trans ht, ht⟩

/-- Settles O44: the read is handled in this step, and by its frame changes nothing of the block. -/
theorem readsHaveNoSideEffect : Obligations.ReadsHaveNoSideEffect := by
  intro s offset width rest hn hw hb
  obtain ⟨t, hstep, ht⟩ := step_inWindow hn hb (decide_eq_true hw)
  exact ⟨t, hstep, handleEvent_read_frame ht⟩

/-! ## Bus events while BUSY = 1, and empty cycles (R66, R236) -/

/-- A supported write that is no reset does not write a 1 to CTRL[31] (R230). -/
theorem not_ctrl_reset_of_noReset {offset width : Nat} {v : Word}
    (hs : supported offset width = true) (he : (BusEvent.write offset width v).noReset = true) :
    ¬(regAt offset = .ctrl ∧ v.getLsbD 31 = true) := by
  rintro ⟨hctrl, hv⟩
  simp only [BusEvent.noReset, hs, hctrl, hv] at he
  exact absurd he (by decide)

/-- While BUSY = 1 a write that is no reset is ignored, dropped, or clears STATUS bits. -/
theorem writeAccess_frame_of_busy (c : Config) {r : Reg} {v : Word} {s : State}
    (hb : s.busy = true) (hr : ¬(r = .ctrl ∧ v.getLsbD 31 = true)) :
    writeAccess c r v s = { s with done := (writeAccess c r v s).done
                                   err := (writeAccess c r v s).err
                                   werr := (writeAccess c r v s).werr } := by
  rcases writeAccess_cases c r v s with hw | ⟨hw, -⟩ | ⟨-, hw⟩ | ⟨hctrl, hv, -⟩ | ⟨hidle, -⟩
  · rw [hw]
  · rw [hw]; rfl
  · rw [hw]; rfl
  · exact absurd ⟨hctrl, hv⟩ hr
  · exact absurd (hb.symm.trans hidle) Bool.noConfusion

/-- While BUSY = 1 a bus event that is no reset changes no more than the event flags of STATUS, the
bus word and the count of draws. -/
theorem handleEvent_frame_of_busy {c : Config} {e : BusEvent} {s t : State} (hb : s.busy = true)
    (he : e.noReset = true) (h : handleEvent c e s = .next t) :
    t = { s with done := t.done, err := t.err, werr := t.werr, rdata := t.rdata,
                 draws := t.draws } := by
  cases e with
  | read o w => rw [handleEvent_read_frame h]
  | write o w v =>
    rcases handleEvent_next h with ⟨_, _, ⟨⟩, -⟩ | ⟨_, _, ⟨⟩, -⟩ | ⟨_, _, _, ⟨⟩, -, hs, rfl⟩ |
      ⟨_, _, _, ⟨⟩, -, -, rfl⟩ | ⟨⟨⟩, -⟩ | ⟨⟨⟩, -⟩
    · rw [writeAccess_frame_of_busy c hb (not_ctrl_reset_of_noReset hs he)]
    · rfl
  | powerOnReset => cases he
  | idle => cases h; rfl

/-- With no bus event waiting a bus cycle only ticks. -/
theorem busCycle_of_empty {c : Config} {s : State} (hb : s.bus = []) :
    busCycle c s = .next (tick s) := by
  rw [busCycle, hb]

/-- Settles O9: the frame of the event while BUSY = 1; an empty cycle and an idle one only tick. -/
theorem operandsAreHeldWhileBusy : Obligations.OperandsAreHeldWhileBusy := by
  refine ⟨fun s e rest hbusy hleft hb hwin hno => ?_, fun s hn => ⟨fun hb => ?_, fun rest hb => ?_⟩⟩
  · obtain ⟨t, hstep, ht⟩ := step_inWindow (fun h => Nat.not_le.2 hleft h.2) hb hwin
    exact ⟨t, hstep, handleEvent_frame_of_busy (s := s.handling rest) hbusy hno ht⟩
  · exact (step_bus (completing_eq_none hn)).trans (busCycle_of_empty hb)
  · exact cycle_event hn hb

end Sys2Proof.Machine

/-! PROOFS. The opcode map: a word that selects a row is the row's match value filled with the
operand fields of the command, and no word selects two rows (R81 to R87). -/

namespace Sys2Proof

/-! ## Fields of a word (R81) -/

/-- A field put back in its place is the word under the field's mask. -/
theorem ofNat_extractLsb'_shiftLeft (w : Word) (start len : Nat) :
    BitVec.ofNat 32 (w.extractLsb' start len).toNat <<< start =
      w &&& (BitVec.allOnes len).setWidth 32 <<< start := by
  rw [BitVec.ofNat_toNat]
  ext i hi
  by_cases his : i < start
  · simp [his]
  · by_cases hlen : i - start < len
    · simp [his, hlen, Nat.add_sub_cancel' (Nat.not_lt.1 his), BitVec.getLsbD_eq_getElem hi]
    · simp [his, hlen]

theorem fieldN_in_place (w : Word) : BitVec.ofNat 32 (fieldN w) <<< 8 = w &&& 0x00000700 :=
  ofNat_extractLsb'_shiftLeft w 8 3

theorem fieldImm8_in_place (w : Word) : BitVec.ofNat 32 (fieldImm8 w) <<< 16 = w &&& 0x00FF0000 :=
  ofNat_extractLsb'_shiftLeft w 16 8

/-- A flag put back in its place is the word under the flag's mask. -/
theorem ofNat_getLsbD_shiftLeft (w : Word) (i : Nat) :
    BitVec.ofNat 32 (w.getLsbD i).toNat <<< i = w &&& BitVec.twoPow 32 i := by
  rw [BitVec.and_twoPow]
  cases w.getLsbD i
  · simp
  · simp [BitVec.twoPow]

theorem fieldAdv_in_place (w : Word) :
    BitVec.ofNat 32 (fieldAdv w).toNat <<< 12 = w &&& 0x00001000 := ofNat_getLsbD_shiftLeft w 12

theorem fieldRec_in_place (w : Word) :
    BitVec.ofNat 32 (fieldRec w).toNat <<< 13 = w &&& 0x00002000 := ofNat_getLsbD_shiftLeft w 13

/-- The opcode as the low byte of the word's number. -/
theorem toNat_fieldOpc (w : Word) : (fieldOpc w).toNat = w.toNat % 256 := by
  simp [fieldOpc]

/-! ## The rows (R83) -/

/-- The word that selects the row and has the operand bits of `w`. -/
def OpcodeRow.fill (r : OpcodeRow) (w : Word) : Word := w &&& ~~~r.mask ||| r.pattern

theorem OpcodeRow.selects_iff {r : OpcodeRow} {w : Word} :
    r.selects w = true ↔ w &&& r.mask = r.pattern := beq_iff_eq

/-- Filling a row with a word that selects it gives the word back. -/
theorem OpcodeRow.fill_of_selects {r : OpcodeRow} {w : Word} (h : r.selects w = true) :
    r.fill w = w := by
  rw [fill, ← selects_iff.1 h]
  ext i hi
  cases hm : r.mask[i] <;> simp [hm]

/-- The match value of a row lies within its mask. -/
theorem pattern_and_mask : ∀ r ∈ opcodeTable, r.pattern &&& r.mask = r.pattern := by decide

theorem selects_fill {r : OpcodeRow} (hr : r ∈ opcodeTable) (w : Word) :
    r.selects (r.fill w) = true := by
  rw [OpcodeRow.selects_iff, OpcodeRow.fill, BitVec.and_or_distrib_right, pattern_and_mask r hr]
  simp [BitVec.and_assoc]

/-- On the bits that a row's mask covers, a word that selects the row is the row's match value. -/
theorem and_eq_of_selects {r : OpcodeRow} {w m : Word} (h : r.selects w = true)
    (hm : r.mask &&& m = m) : w &&& m = r.pattern &&& m := by
  rw [← OpcodeRow.selects_iff.1 h, BitVec.and_assoc, hm]

/-- A word that selects a row has the row's opcode: every mask covers OPC. -/
theorem fieldOpc_eq_of_selects {r : OpcodeRow} {w : Word} (hr : r ∈ opcodeTable)
    (h : r.selects w = true) : fieldOpc w = fieldOpc r.pattern := by
  have hmask : ∀ q ∈ opcodeTable, fieldOpc q.mask = BitVec.allOnes 8 := by decide
  rw [← OpcodeRow.selects_iff.1 h]
  simp only [fieldOpc, BitVec.extractLsb'_and] at hmask ⊢
  rw [hmask r hr, BitVec.and_allOnes]

/-- Rows have different opcodes. -/
theorem row_eq_of_fieldOpc {r q : OpcodeRow} (hr : r ∈ opcodeTable) (hq : q ∈ opcodeTable)
    (h : fieldOpc r.pattern = fieldOpc q.pattern) : r = q := by
  have hindex : ∀ i j : Fin opcodeTable.length,
      fieldOpc (opcodeTable.get i).pattern = fieldOpc (opcodeTable.get j).pattern → i = j := by
    decide
  obtain ⟨i, rfl⟩ := List.mem_iff_get.1 hr
  obtain ⟨j, rfl⟩ := List.mem_iff_get.1 hq
  rw [hindex i j h]

/-- No word selects two rows (R84). -/
theorem row_eq_of_selects {r q : OpcodeRow} {w : Word} (hr : r ∈ opcodeTable)
    (hq : q ∈ opcodeTable) (hrw : r.selects w = true) (hqw : q.selects w = true) : r = q :=
  row_eq_of_fieldOpc hr hq
    ((fieldOpc_eq_of_selects hr hrw).symm.trans (fieldOpc_eq_of_selects hq hqw))

/-! ## The decoder (R84) -/

/-- A word decodes by the row that it selects. -/
theorem decode_of_selects {r : OpcodeRow} {w : Word} (hr : r ∈ opcodeTable)
    (h : r.selects w = true) : decode w = .ok (r.build w) := by
  have hfind : opcodeTable.find? (fun q => q.selects w) = some r := by
    cases hf : opcodeTable.find? (fun q => q.selects w) with
    | none => exact absurd h (List.find?_eq_none.1 hf r hr)
    | some q =>
      have hq : q.selects w = true := List.find?_some (p := fun q : OpcodeRow => q.selects w) hf
      rw [row_eq_of_selects (List.mem_of_find?_eq_some hf) hr hq h]
  rw [decode, hfind]

/-- A word that selects no row is illegal. -/
theorem decode_of_selects_none {w : Word} (h : ∀ r ∈ opcodeTable, ¬ r.selects w = true) :
    decode w = .error (decodeErrorOf w) := by
  rw [decode, List.find?_eq_none.2 h]

/-- A word that decodes selects a row and stands for the row's command. -/
theorem exists_row_of_decode {w : Word} {i : Instr} (h : decode w = .ok i) :
    ∃ r ∈ opcodeTable, r.selects w = true ∧ r.build w = i := by
  by_cases hsel : ∃ r ∈ opcodeTable, r.selects w = true
  · obtain ⟨r, hr, hw⟩ := hsel
    exact ⟨r, hr, hw, Except.ok.inj ((decode_of_selects hr hw).symm.trans h)⟩
  · rw [decode_of_selects_none fun r hr hw => hsel ⟨r, hr, hw⟩] at h
    cases h

/-! ## Assembly (R87) -/

/-- A command without operands is assembled into its opcode. -/
theorem assemble_opcode (opc : Nat) : assemble opc 0 false false 0 = BitVec.ofNat 32 opc := by
  simp [assemble]

theorem assemble_fieldImm8 (opc : Nat) (w : Word) :
    assemble opc 0 false false (fieldImm8 w) = w &&& 0x00FF0000 ||| BitVec.ofNat 32 opc := by
  rw [assemble, fieldImm8_in_place, BitVec.or_comm]
  simp

theorem assemble_fieldAdv (opc : Nat) (w : Word) :
    assemble opc 0 (fieldAdv w) false 0 = w &&& 0x00001000 ||| BitVec.ofNat 32 opc := by
  rw [assemble, fieldAdv_in_place]
  simp [BitVec.or_comm]

theorem assemble_blockFields (opc : Nat) (w : Word) :
    assemble opc (fieldN w) (fieldAdv w) (fieldRec w) 0 =
      w &&& 0x00003700 ||| BitVec.ofNat 32 opc := by
  have hmask : (0x00003700 : Word) = 0x00000700 ||| 0x00001000 ||| 0x00002000 := by decide
  rw [assemble, fieldN_in_place, fieldAdv_in_place, fieldRec_in_place, hmask]
  simp only [BitVec.and_or_distrib_left]
  simp [BitVec.or_assoc, BitVec.or_comm]

/-! ## The commands of a row (R83, R87) -/

/-- The command of a row is assembled into the row's match value with the operand bits of the word
it was built from: the fields that the command has are the bits that the mask leaves free. -/
theorem encode_build {r : OpcodeRow} (hr : r ∈ opcodeTable) (w : Word) :
    encode (r.build w) = r.fill w := by
  have hrows : ∀ q ∈ opcodeTable, encode (q.build w) = q.fill w := by
    simp [opcodeTable, encode, OpcodeRow.fill, assemble_opcode, assemble_fieldImm8,
      assemble_fieldAdv, assemble_blockFields]
  exact hrows r hr

/-- A bit that is 0 in the mask and in the match value of a row is that of the word. -/
theorem getLsbD_fill {r : OpcodeRow} {i : Nat} (hm : r.mask.getLsbD i = false)
    (hp : r.pattern.getLsbD i = false) (w : Word) : (r.fill w).getLsbD i = w.getLsbD i := by
  simp only [OpcodeRow.fill, BitVec.getLsbD_or, BitVec.getLsbD_and, BitVec.getLsbD_not, hm, hp,
    Bool.not_false, Bool.and_true, Bool.or_false, Bool.and_eq_left_iff_imp]
  exact fun hw => decide_eq_true (BitVec.lt_of_getLsbD hw)

theorem extractLsb'_fill {r : OpcodeRow} {start len : Nat} (hm : r.mask.extractLsb' start len = 0)
    (hp : r.pattern.extractLsb' start len = 0) (w : Word) :
    (r.fill w).extractLsb' start len = w.extractLsb' start len := by
  refine BitVec.eq_of_getLsbD_eq fun i hi => ?_
  have hmi := congrArg (·.getLsbD i) hm
  have hpi := congrArg (·.getLsbD i) hp
  simp only [BitVec.getLsbD_extractLsb', hi, decide_true, Bool.true_and, BitVec.ofNat_eq_ofNat,
    BitVec.getLsbD_zero] at hmi hpi ⊢
  exact getLsbD_fill hmi hpi w

theorem fieldN_fill {r : OpcodeRow} (hm : r.mask.extractLsb' 8 3 = 0)
    (hp : r.pattern.extractLsb' 8 3 = 0) (w : Word) : fieldN (r.fill w) = fieldN w :=
  congrArg BitVec.toNat (extractLsb'_fill hm hp w)

theorem fieldImm8_fill {r : OpcodeRow} (hm : r.mask.extractLsb' 16 8 = 0)
    (hp : r.pattern.extractLsb' 16 8 = 0) (w : Word) : fieldImm8 (r.fill w) = fieldImm8 w :=
  congrArg BitVec.toNat (extractLsb'_fill hm hp w)

theorem fieldAdv_fill {r : OpcodeRow} (hm : r.mask.getLsbD 12 = false)
    (hp : r.pattern.getLsbD 12 = false) (w : Word) : fieldAdv (r.fill w) = fieldAdv w :=
  getLsbD_fill hm hp w

theorem fieldRec_fill {r : OpcodeRow} (hm : r.mask.getLsbD 13 = false)
    (hp : r.pattern.getLsbD 13 = false) (w : Word) : fieldRec (r.fill w) = fieldRec w :=
  getLsbD_fill hm hp w

/-- The command of a row depends on the operand bits of the word alone. -/
theorem build_fill {r : OpcodeRow} (hr : r ∈ opcodeTable) (w : Word) :
    r.build (r.fill w) = r.build w := by
  have hrows : ∀ q ∈ opcodeTable, q.build (q.fill w) = q.build w := by
    simp (disch := decide) [opcodeTable, fieldN_fill, fieldImm8_fill, fieldAdv_fill, fieldRec_fill]
  exact hrows r hr

theorem wellFormed_build {r : OpcodeRow} (hr : r ∈ opcodeTable) (w : Word) :
    WellFormed (r.build w) := by
  have himm : fieldImm8 w ≤ 255 := Nat.le_of_lt_succ (w.extractLsb' 16 8).isLt
  have hn : fieldN w ≤ 7 := Nat.le_of_lt_succ (w.extractLsb' 8 3).isLt
  have hrows : ∀ q ∈ opcodeTable, WellFormed (q.build w) := by
    simp [opcodeTable, WellFormed, Instr.wellFormed, himm, hn]
  exact hrows r hr

theorem exists_fieldImm8 {a : Nat} (h : a ≤ 255) : ∃ w, fieldImm8 w = a :=
  ⟨BitVec.ofNat 32 a <<< 16, by simp [fieldImm8]; omega⟩

theorem exists_blockFields {count : Nat} (h : count ≤ 7) (adv record : Bool) :
    ∃ w, fieldN w = count ∧ fieldAdv w = adv ∧ fieldRec w = record := by
  have hall : ∀ (n : Fin 8) (a r : Bool), fieldN (assemble 0 n a r 0) = n ∧
      fieldAdv (assemble 0 n a r 0) = a ∧ fieldRec (assemble 0 n a r 0) = r := by decide
  exact ⟨_, hall ⟨count, Nat.lt_succ_of_le h⟩ adv record⟩

/-- The commands of the row at an index of the table. -/
theorem exists_build_of_index {i : Instr} (k : Fin 13) (w : Word)
    (h : (opcodeTable.get k).build w = i) : ∃ r ∈ opcodeTable, ∃ w, r.build w = i :=
  ⟨opcodeTable.get k, List.get_mem opcodeTable _, w, h⟩

/-- Every well-formed command is the command of some row for some word. -/
theorem exists_build {i : Instr} (h : WellFormed i) : ∃ r ∈ opcodeTable, ∃ w, r.build w = i := by
  cases i with
  | nop => exact exists_build_of_index 0 0 rfl
  | keyInit => exact exists_build_of_index 1 0 rfl
  | keyAdv => exact exists_build_of_index 2 0 rfl
  | keyClear => exact exists_build_of_index 3 0 rfl
  | splitKey => exact exists_build_of_index 4 0 rfl
  | rotl8 amount =>
    obtain ⟨w, hw⟩ := exists_fieldImm8 (of_decide_eq_true h)
    exact exists_build_of_index 5 w (congrArg Instr.rotl8 hw)
  | rotr8 amount =>
    obtain ⟨w, hw⟩ := exists_fieldImm8 (of_decide_eq_true h)
    exact exists_build_of_index 6 w (congrArg Instr.rotr8 hw)
  | encBlock count adv record =>
    obtain ⟨w, hn, hadv, hrec⟩ := exists_blockFields (of_decide_eq_true h) adv record
    exact exists_build_of_index 7 w (by rw [← hn, ← hadv, ← hrec]; rfl)
  | decBlock adv =>
    obtain ⟨w, -, hadv, -⟩ := exists_blockFields (Nat.zero_le 7) adv false
    exact exists_build_of_index 8 w (congrArg Instr.decBlock hadv)
  | mdClear => exact exists_build_of_index 9 0 rfl
  | mdPush len =>
    obtain ⟨w, hw⟩ := exists_fieldImm8 (of_decide_eq_true h)
    exact exists_build_of_index 10 w (congrArg Instr.mdPush hw)
  | mdEncrypt => exact exists_build_of_index 11 0 rfl
  | mdDecrypt => exact exists_build_of_index 12 0 rfl

/-! ## Decoding and encoding (R83, R84, R86, R87) -/

/-- Settles O1: the word of a row's command is the row filled with its operands; that word selects
the row, and the row builds the same command from it. -/
theorem decodeOfEncode : Obligations.DecodeOfEncode := by
  intro i hi
  obtain ⟨r, hr, w, rfl⟩ := exists_build hi
  rw [encode_build hr, decode_of_selects hr (selects_fill hr w), build_fill hr]

/-- Settles O2: filling the row that a word selects with the word's operand bits gives the word. -/
theorem encodeOfDecode : Obligations.EncodeOfDecode := by
  intro w i h
  obtain ⟨r, hr, hw, rfl⟩ := exists_row_of_decode h
  exact ⟨wellFormed_build hr w, (encode_build hr w).trans (OpcodeRow.fill_of_selects hw)⟩

/-- Settles O3: a row that the word selects is the only one. -/
theorem everyWordSelectsOneRowOrIsIllegal : Obligations.EveryWordSelectsOneRowOrIsIllegal := by
  intro w
  by_cases hsel : ∃ r ∈ opcodeTable, r.selects w = true
  · obtain ⟨r, hr, hw⟩ := hsel
    refine .inl ⟨r, hr, OpcodeRow.selects_iff.1 hw, decode_of_selects hr hw, fun q hq hqw => ?_⟩
    rw [row_eq_of_selects hq hr (OpcodeRow.selects_iff.2 hqw) hw]
  · have hnone : ∀ r ∈ opcodeTable, ¬ r.selects w = true := fun r hr hw => hsel ⟨r, hr, hw⟩
    exact .inr ⟨fun r hr hw => hnone r hr (OpcodeRow.selects_iff.2 hw),
      _, decode_of_selects_none hnone⟩

/-! ## Illegal words (R85) -/

theorem toNat_mod_eq_of_selects {r : OpcodeRow} {w : Word} (hr : r ∈ opcodeTable)
    (h : r.selects w = true) : r.pattern.toNat % 256 = w.toNat % 256 := by
  rw [← toNat_fieldOpc, ← toNat_fieldOpc, fieldOpc_eq_of_selects hr h]

/-- A word is illegal when it has a bit that no row of its opcode has: every such row's mask covers
the bits `m`, and its match value has them 0. -/
theorem illegal_of_bits {w m : Word} (hne : w &&& m ≠ 0)
    (hrows : ∀ r ∈ opcodeTable, r.pattern.toNat % 256 = w.toNat % 256 →
      r.mask &&& m = m ∧ r.pattern &&& m = 0) : ∃ e, decode w = .error e := by
  refine ⟨_, decode_of_selects_none fun r hr hw => hne ?_⟩
  obtain ⟨hm, hp⟩ := hrows r hr (toNat_mod_eq_of_selects hr hw)
  rw [and_eq_of_selects hw hm, hp]

/-- A word is illegal when no row has its opcode. -/
theorem illegal_of_opcode {w : Word}
    (h : ∀ r ∈ opcodeTable, r.pattern.toNat % 256 ≠ w.toNat % 256) : ∃ e, decode w = .error e :=
  ⟨_, decode_of_selects_none fun r hr hw => h r hr (toNat_mod_eq_of_selects hr hw)⟩

theorem and_ne_zero_of_extractLsb' {w m : Word} {start len : Nat}
    (hm : m.extractLsb' start len = BitVec.allOnes len) (h : w.extractLsb' start len ≠ 0) :
    w &&& m ≠ 0 := by
  intro hz
  have hfield := congrArg (·.extractLsb' start len) hz
  simp only [BitVec.extractLsb'_and, hm, BitVec.and_allOnes] at hfield
  exact h (by simpa using hfield)

theorem and_ne_zero_of_getLsbD {w m : Word} {i : Nat} (hm : m.getLsbD i = true)
    (h : w.getLsbD i = true) : w &&& m ≠ 0 := by
  intro hz
  have hbit : (w &&& m).getLsbD i = true := by rw [BitVec.getLsbD_and, h, hm]; rfl
  rw [hz] at hbit
  simp at hbit

/-- Settles O4: each clause names bits that are fixed to 0 in every row of the word's opcode, or an
opcode that no row has. -/
theorem reservedWordsAreIllegal : Obligations.ReservedWordsAreIllegal := by
  refine ⟨fun w h => ?_, fun w h => ?_, fun w h h5 h6 h21 => ?_, fun w h h10 => ?_,
    fun w h h10 h11 => ?_⟩
  · have hrows : ∀ r ∈ opcodeTable, r.mask &&& 0xFF00C800 = 0xFF00C800 ∧
        r.pattern &&& 0xFF00C800 = 0 := by decide
    exact illegal_of_bits h fun r hr _ => hrows r hr
  · have hrows : ∀ r ∈ opcodeTable, ¬((0x07 ≤ r.pattern.toNat % 256 ∧ r.pattern.toNat % 256 ≤ 0x0F) ∨
        (0x12 ≤ r.pattern.toNat % 256 ∧ r.pattern.toNat % 256 ≤ 0x1F) ∨
        0x24 ≤ r.pattern.toNat % 256) := by decide
    exact illegal_of_opcode fun r hr hopc => hrows r hr (by rwa [hopc])
  · have hrows : ∀ r ∈ opcodeTable, r.pattern.toNat % 256 ≠ 0x05 → r.pattern.toNat % 256 ≠ 0x06 →
        r.pattern.toNat % 256 ≠ 0x21 →
        r.mask &&& 0x00FF0000 = 0x00FF0000 ∧ r.pattern &&& 0x00FF0000 = 0 := by decide
    exact illegal_of_bits (and_ne_zero_of_extractLsb' (by decide) h) fun r hr hopc =>
      hrows r hr (by rwa [hopc]) (by rwa [hopc]) (by rwa [hopc])
  · have hrows : ∀ r ∈ opcodeTable, r.pattern.toNat % 256 ≠ 0x10 →
        r.mask &&& 0x00002700 = 0x00002700 ∧ r.pattern &&& 0x00002700 = 0 := by decide
    have hne : w &&& 0x00002700 ≠ 0 :=
      h.elim (and_ne_zero_of_extractLsb' (by decide)) (and_ne_zero_of_getLsbD (by decide))
    exact illegal_of_bits hne fun r hr hopc => hrows r hr (by rwa [hopc])
  · have hrows : ∀ r ∈ opcodeTable, r.pattern.toNat % 256 ≠ 0x10 → r.pattern.toNat % 256 ≠ 0x11 →
        r.mask &&& 0x00001000 = 0x00001000 ∧ r.pattern &&& 0x00001000 = 0 := by decide
    exact illegal_of_bits (and_ne_zero_of_getLsbD (by decide) h) fun r hr hopc =>
      hrows r hr (by rwa [hopc]) (by rwa [hopc])

/-- Settles O5: each word selects its row, by evaluation of the decoder on the closed words. -/
theorem writtenOutWordsDecode : Obligations.WrittenOutWordsDecode :=
  ⟨rfl, rfl, rfl, rfl, rfl, rfl, rfl, rfl⟩

end Sys2Proof

/-! PROOFS. What a command does at its last cycle: an illegal word, a successful ENC_BLOCK, and runs
that no command and no bus event stops (R84, R123, R200). -/

namespace Sys2Proof.Machine

/-! ## Illegal words (R84) -/

theorem completeWord_of_illegal {run : Instr → State → Host.Outcome State Fault Refusal} {w : Word}
    {e : DecodeError} (hd : decode w = .error e) (s : State) :
    completeWord run w s = .next (complete .illegalCommand s) := by
  rw [completeWord, hd]

/-- Settles O7: the command in flight completes, and its word is refused. -/
theorem illegalWordCompletesWithCode5 : Obligations.IllegalWordCompletesWithCode5 := by
  intro s w e hbusy hleft hpend hd
  rw [step_of_completing (completing_eq_some.2 ⟨hbusy, hleft, hpend⟩), completeWord_of_illegal hd,
    complete_error (by decide)]

/-! ## ENC_BLOCK (R120, R123) -/

/-- E in closed form: every part is shifted by the shifts that come after its addition. -/
theorem encryptValue_closedForm (k : Bytes16) (v : Nat) :
    encryptValue k v =
      (v + (splitKey k).part0.toNat) *
          2 ^ ((splitKey k).shift0 + (splitKey k).shift1 + (splitKey k).shift2)
        + (splitKey k).part1.toNat * 2 ^ ((splitKey k).shift1 + (splitKey k).shift2)
        + (splitKey k).part2.toNat * 2 ^ (splitKey k).shift2 + (splitKey k).part3.toNat := by
  simp only [encryptValue]
  ring

theorem toNat_ofNat_encryptValue (k : Bytes16) (count : Nat) (blk : Word) :
    (BitVec.ofNat 128 (encryptValue k (blockValue count blk))).toNat =
      encryptValue k (blockValue count blk) := by
  have hlt : encryptValue k (blockValue count blk) < 2 ^ 127 :=
    encryptValue_lt k ((Nat.mod_le _ _).trans_lt blk.isLt)
  rw [BitVec.toNat_ofNat, Nat.mod_eq_of_lt (hlt.trans (by norm_num))]

theorem toNat_ofNat_bitlen_encryptValue (k : Bytes16) (count : Nat) (blk : Word) :
    (BitVec.ofNat 8 (bitlen (encryptValue k (blockValue count blk)))).toNat =
      bitlen (encryptValue k (blockValue count blk)) := by
  have hle := bitlen_encryptValue_le k count blk
  rw [BitVec.toNat_ofNat, Nat.mod_eq_of_lt (by omega)]

theorem recordsFull_eq_false_iff {s : State} : s.recordsFull = false ↔ s.mdcount ≠ 255 := by
  simp [State.recordsFull]

/-- A record counts one where there is room for it. -/
theorem toNat_mdcount_pushRecordIf {s : State} {record : Bool}
    (h : record = true → s.mdcount ≠ 255) (l : Byte) :
    (s.pushRecordIf record l).mdcount.toNat = s.mdcount.toNat + record.toNat := by
  cases record with
  | false => rfl
  | true =>
    have hroom : s.mdcount ≠ 255 := h rfl
    simp only [pushRecordIf_mdcount, if_true, Bool.toNat_true]
    bv_omega

theorem read_mem_pushRecordIf {s : State} (hm : s.mem.wf = true) (record : Bool) (l : Byte)
    (a : Nat) :
    (s.pushRecordIf record l).mem.read a =
      if record = true ∧ a = lbufBase + s.mdcount.toNat then l else s.mem.read a := by
  cases record with
  | false => simp
  | true => simp [Memory.read_write _ _ _ hm]

/-- What a successful ENC_BLOCK writes, field by field, and that it writes nothing else. -/
theorem encBlock_ok_fields {c : Config} {count : Nat} {adv record : Bool} {s u : State}
    (h : encBlock c count adv record s = .ok u) :
    u.ct = BitVec.ofNat 128 (encryptValue s.wk (blockValue count s.blk)) ∧
    u.ctlen = BitVec.ofNat 8 (bitlen (encryptValue s.wk (blockValue count s.blk))) ∧
    u.wk = (if adv then c.reshuffle s.wk else s.wk) ∧
    u.mdcount = (s.pushRecordIf record u.ctlen).mdcount ∧
    u.mem = (s.pushRecordIf record u.ctlen).mem ∧
    u = { s with ct := u.ct, ctlen := u.ctlen, wk := u.wk, mdcount := u.mdcount, mem := u.mem } := by
  obtain ⟨-, -, -, rfl⟩ := encBlock_ok.1 h
  cases adv <;> cases record <;> exact ⟨rfl, rfl, rfl, rfl, rfl, rfl⟩

/-- Settles O21: the fields that ENC_BLOCK's pseudocode writes, with E in closed form, below 2^127. -/
theorem encBlockResult : Obligations.EncBlockResult := by
  intro s count adv record hwf hvalid hcount hroom
  obtain ⟨u, hu⟩ : ∃ u, encBlock Config.actual count adv record s = .ok u :=
    ⟨_, encBlock_ok.2 ⟨hvalid, hcount, fun hr => recordsFull_eq_false_iff.2 (hroom hr), rfl⟩⟩
  obtain ⟨hct, hctlen, hwk, hmdcount, hmem, hframe⟩ := encBlock_ok_fields hu
  have hct' : u.ct.toNat = encryptValue s.wk (blockValue count s.blk) := by
    rw [hct, toNat_ofNat_encryptValue]
  have hctlen' : u.ctlen.toNat = bitlen u.ct.toNat := by
    rw [hctlen, toNat_ofNat_bitlen_encryptValue, hct']
  refine ⟨complete .ok u, (exec_eq_finish _ s).trans (congrArg (finish s) hu),
    hct'.trans (encryptValue_closedForm s.wk _), ?_, fun hne => ?_, fun hz => ?_, hwk, ?_,
    fun a => ?_, fun hr => ?_, ?_⟩
  · rw [complete_ct, complete_ctlen, hctlen']
    exact lt_two_pow_bitlen _
  · rw [complete_ct, complete_ctlen, hctlen']
    exact two_pow_bitlen_le fun hz => hne (BitVec.eq_of_toNat_eq hz)
  · rw [complete_ct] at hz
    rw [complete_ctlen]
    exact BitVec.eq_of_toNat_eq (by rw [hctlen', hz]; rfl)
  · rw [complete_mdcount, hmdcount, toNat_mdcount_pushRecordIf hroom]
  · rw [complete_mem, complete_ctlen, hmem, read_mem_pushRecordIf hwf]
  · rw [complete_mem, hmem, hr]
    rfl
  · rw [complete_ok]
    conv_lhs => rw [hframe]

/-! ## Runs (R200) -/

/-- From a state whose waiting bus events are inside the window a step does not stop. -/
theorem step_of_busSafe {s : State} (h : BusSafe s) : ∃ t, step s = .next t := by
  cases hc : completing s with
  | some w =>
    rw [step_of_completing hc]
    cases hd : decode w with
    | ok i =>
      rw [completeWord_of_decode hd]
      exact exec_is_next i s
    | error e => exact ⟨_, completeWord_of_illegal hd s⟩
  | none =>
    cases hb : s.bus with
    | nil => exact ⟨_, (step_bus hc).trans (busCycle_of_empty hb)⟩
    | cons e rest =>
      rw [step_event hc hb]
      exact handleEvent_inWindow Config.actual _ (h e (by simp [hb]))

theorem step_keeps_busSafe {s t : State} (h : BusSafe s) (hs : step s = .next t) : BusSafe t :=
  fun e he => h e (step_bus_subset hs he)

/-- Settles O37: by induction on the number of steps; each step goes on and keeps the waiting bus
events inside the window. -/
theorem blockNeverStops : Obligations.BlockNeverStops := by
  intro n
  induction n with
  | zero => exact fun _ _ => trivial
  | succ n ih =>
    intro s h
    obtain ⟨t, ht⟩ := step_of_busSafe h
    exact ⟨t, ht, ih t (step_keeps_busSafe h ht)⟩

end Sys2Proof.Machine

/-! PROOFS. How a command completes, with success or with a code; the codes in the order of the
checks (R205); and the key schedule commands that do no arithmetic (R103 to R107). -/

namespace Sys2Proof.Machine

/-! ## The outcome of a command (R202, R203) -/

/-- A command whose pseudocode succeeds: its writes, and a completion with code 0 (R202). -/
theorem exec_of_ok {i : Instr} {s u : State} (h : effectOf Config.actual i s = .ok u) :
    exec i s = .next { u with errcode := .ok, done := true, busy := false, pend := none,
                              cyclesLeft := 0 } := by
  rw [exec_eq_finish, h, finish_ok, complete_ok]

/-- A command whose pseudocode raises a code: STATUS and the command latch alone (R203). -/
theorem exec_of_error {i : Instr} {s : State} {code : ErrorCode}
    (h : effectOf Config.actual i s = .error code) :
    exec i s = .next { s with errcode := code, err := true, done := true, busy := false,
                              pend := none, cyclesLeft := 0 } := by
  rw [exec_eq_finish, h, finish_error, complete_error (effectOf_error_ne_ok h)]

/-! ## The codes the commands raise, check by check (R205) -/

theorem keyInit_error {s : State} (h : s.rkValid = false) : keyInit s = .error .invalidKey := by
  simp [keyInit, h]

theorem keyAdv_error {c : Config} {s : State} (h : s.wkValid = false) :
    keyAdv c s = .error .invalidKey := by
  simp [keyAdv, h]

/-- The check of KEY_READBACK comes before that of WK_VALID (R107). -/
theorem splitKeyCmd_error {c : Config} {s : State}
    (h : c.keyReadback = false ∨ s.wkValid = false) :
    splitKeyCmd c s =
      .error (if c.keyReadback = true then .invalidKey else .illegalCommand) := by
  cases hc : c.keyReadback with
  | false => simp [splitKeyCmd, hc]
  | true => simp [splitKeyCmd, hc, h.resolve_left (by simp [hc])]

theorem encBlock_invalidKey {c : Config} {count : Nat} {adv record : Bool} {s : State}
    (h : s.wkValid = false) : encBlock c count adv record s = .error .invalidKey := if_pos h

theorem encBlock_blockTooLarge {c : Config} {count : Nat} {adv record : Bool} {s : State}
    (hv : s.wkValid = true) (h : 4 < count) :
    encBlock c count adv record s = .error .blockTooLarge := by
  simp [encBlock, hv, h]

theorem encBlock_mdOverflow {c : Config} {count : Nat} {adv : Bool} {s : State}
    (hv : s.wkValid = true) (hn : count ≤ 4) (h : s.mdcount = 255) :
    encBlock c count adv true s = .error .mdOverflow := by
  simp [encBlock, hv, Nat.not_lt.2 hn, State.recordsFull, h]

theorem decBlock_invalidKey {c : Config} {adv : Bool} {s : State} (h : s.wkValid = false) :
    decBlock c adv s = .error .invalidKey := if_pos h

theorem decBlock_decryptionFailure {c : Config} {adv : Bool} {s : State} (hv : s.wkValid = true)
    (h : decryptValue s.wk s.ct.toNat = none) :
    decBlock c adv s = .error .decryptionFailure := by
  simp [decBlock, hv, h]

theorem mdPush_error {len : Nat} {s : State} (h : s.mdcount = 255) :
    mdPush len s = .error .mdOverflow := by
  simp [mdPush, State.recordsFull, h]

theorem mdEncrypt_error {c : Config} {s : State} (h : s.rkValid = false ∨ s.ivValid = false) :
    mdEncrypt c s = .error .invalidKey := by
  rw [mdEncrypt, if_pos (Bool.and_eq_false_iff.2 h)]

/-- Whichever of its checks turns MD_DECRYPT away, the code is the same (R147). -/
theorem mdDecrypt_error {c : Config} {s : State}
    (h : (s.rkValid = false ∨ s.ivValid = false) ∨ bufBytes < s.mdlen.toNat ∨
      undo c s.footerInput s.rk s.iv = none) : mdDecrypt c s = .error .decodeError := by
  unfold mdDecrypt
  split
  · rfl
  · next hkeys =>
    split
    · rfl
    · next hlen =>
      have hundo : undo c s.footerInput s.rk s.iv = none :=
        (h.resolve_left fun hk => hkeys (Bool.and_eq_false_iff.2 hk)).resolve_left hlen
      rw [hundo]

/-- An input shorter than a block holds no sentinel to stop at (R143). -/
theorem undo_eq_none_of_length_lt {c : Config} {x : List Byte} {key iv : Bytes16}
    (h : x.length < 16) : undo c x key iv = none := by
  have hblocks : wholeBlocks x.reverse = [] := by
    rw [← List.length_eq_zero_iff, length_wholeBlocks, List.length_reverse,
      Nat.div_eq_of_lt h]
  rw [undo, hblocks, undoBlocks]

/-- Settles O36: each clause is the check of its command that raises the code. -/
theorem errorsAndTheirOrder : Obligations.ErrorsAndTheirOrder := by
  intro s failed
  refine ⟨fun hrk => exec_of_error (keyInit_error hrk), fun hwk => ⟨?_, ?_, ?_, ?_⟩,
    fun hkeys => ⟨?_, ?_⟩, fun hwk => ⟨?_, ?_, ?_⟩, ?_, fun _ _ => ⟨?_, ?_, ?_⟩⟩
  · exact exec_of_error (keyAdv_error hwk)
  · exact exec_of_error (splitKeyCmd_error (.inr hwk))
  · exact fun _ _ _ => exec_of_error (encBlock_invalidKey hwk)
  · exact fun _ => exec_of_error (decBlock_invalidKey hwk)
  · exact exec_of_error (mdEncrypt_error hkeys)
  · exact exec_of_error (mdDecrypt_error (.inl hkeys))
  · exact fun _ _ _ hn => exec_of_error (encBlock_blockTooLarge hwk hn)
  · exact fun _ _ hn hfull => exec_of_error (encBlock_mdOverflow hwk hn hfull)
  · exact fun _ hct => exec_of_error (decBlock_decryptionFailure hwk hct)
  · exact fun hfull _ => exec_of_error (mdPush_error hfull)
  · exact fun hlen => exec_of_error (mdDecrypt_error (.inr (.inl hlen)))
  · refine fun hlen => exec_of_error (mdDecrypt_error (.inr (.inr ?_)))
    exact undo_eq_none_of_length_lt (by rwa [State.footerInput, length_readBytes])
  · exact fun hundo => exec_of_error (mdDecrypt_error (.inr (.inr hundo)))

/-! ## The commands without arithmetic -/

theorem exec_nop (s : State) :
    exec .nop s = .next { s with errcode := .ok, done := true, busy := false, pend := none,
                                 cyclesLeft := 0 } :=
  exec_of_ok (i := .nop) rfl

theorem exec_keyClear (s : State) :
    exec .keyClear s = .next { s with wk := 0, wkValid := false, errcode := .ok, done := true,
                                      busy := false, pend := none, cyclesLeft := 0 } :=
  exec_of_ok (i := .keyClear) rfl

/-- Settles O13: a word that decodes to NOP is the encoder's word for it; the step after reset is
the completion of NOP. -/
theorem nopCompletesAndChangesNothing : Obligations.NopCompletesAndChangesNothing := by
  have hstep : step (withCommand 0 State.reset) = exec .nop (withCommand 0 State.reset) :=
    stepRunsDecodedCommand _ 0 .nop rfl le_rfl rfl rfl
  exact ⟨rfl, fun w h => (encodeOfDecode w .nop h).2.symm, exec_nop, _,
    hstep.trans (exec_nop _), by decide⟩

/-- Settles O14: the check of KEY_INIT passes. -/
theorem keyInitCopiesRootKey : Obligations.KeyInitCopiesRootKey := fun _ hrk =>
  exec_of_ok (i := .keyInit) (keyInit_ok.2 ⟨hrk, rfl⟩)

/-- Settles O15: the check of KEY_ADV passes. -/
theorem keyAdvReshufflesWorkingKey : Obligations.KeyAdvReshufflesWorkingKey := fun _ hwk =>
  exec_of_ok (i := .keyAdv) (keyAdv_ok.2 ⟨hwk, rfl⟩)

/-- Settles O16: KEY_CLEAR leaves WK_VALID = 0, which the first check of ENC_BLOCK turns away. -/
theorem keyClearDestroysWorkingKey : Obligations.KeyClearDestroysWorkingKey := by
  refine ⟨rfl, exec_keyClear, fun s t ht => ?_⟩
  obtain rfl := Host.Outcome.next.inj ((exec_keyClear s).symm.trans ht)
  exact ⟨_, exec_of_error (encBlock_invalidKey rfl), rfl⟩

/-- Settles O17: with a valid WorkingKey only the check of KEY_READBACK is left. -/
theorem splitKeyExposesKeyParts : Obligations.SplitKeyExposesKeyParts := by
  intro s hwk
  split
  · next hc => exact exec_of_ok (i := .splitKey) (splitKeyCmd_ok.2 ⟨hc, hwk, rfl⟩)
  · next hc =>
    have herr := splitKeyCmd_error (s := s) (.inl (Bool.eq_false_iff.2 hc))
    rw [if_neg hc] at herr
    exact exec_of_error (i := .splitKey) herr

end Sys2Proof.Machine

/-! PROOFS. The key parts in terms of the key's bytes (R100), and the rotations of BLK[7:0] (R101,
R108, R109). -/

namespace Sys2Proof.Machine

/-! ## Register words and key bytes (R27, R61, R100) -/

theorem be_wordBytes (w : Word) : be (wordBytes w) = w.toNat := by
  have hw := w.isLt
  simp only [wordBytes, be_cons, be_nil, List.length_cons, List.length_nil,
    BitVec.extractLsb'_toNat, Nat.shiftRight_eq_div_pow]
  omega

/-- Byte `i` of a register word, byte 0 the most significant. -/
theorem getD_wordBytes (w : Word) {i : Nat} (h : i < 4) :
    (wordBytes w).getD i 0 = w.extractLsb' (8 * (3 - i)) 8 := by
  interval_cases i <;> rfl

theorem getD_wordBytes_xor (v w : Word) {i : Nat} (h : i < 4) :
    (wordBytes (v ^^^ w)).getD i 0 = (wordBytes v).getD i 0 ^^^ (wordBytes w).getD i 0 := by
  simp only [getD_wordBytes _ h, BitVec.extractLsb'_xor]

/-- A byte of a register word is a byte of the register (R27). -/
theorem extractLsb'_wordAt (v : Bytes16) (j : Fin 4) {i : Nat} (h : i < 4) :
    (wordAt v j).extractLsb' (8 * (3 - i)) 8 = byteAt v (4 * j.val + i) := by
  have hstart : 32 * (3 - j.val) + 8 * (3 - i) = 8 * (15 - (4 * j.val + i)) := by omega
  refine BitVec.eq_of_getLsbD_eq fun b hb => ?_
  have hword : 8 * (3 - i) + b < 32 := by omega
  simp only [wordAt, byteAt, BitVec.getLsbD_extractLsb', hb, hword, decide_true, Bool.true_and,
    ← Nat.add_assoc, hstart]

/-- The bytes of word `j` are bytes 4j to 4j + 3 of the register. -/
theorem wordBytes_wordAt (v : Bytes16) (j : Fin 4) :
    wordBytes (wordAt v j) = ((toBytes v).drop (4 * j.val)).take 4 :=
  calc wordBytes (wordAt v j)
      = (List.range 4).map fun i => (wordAt v j).extractLsb' (8 * (3 - i)) 8 := rfl
    _ = (List.range 4).map fun i => byteAt v (4 * j.val + i) :=
        List.map_congr_left fun _ hi => extractLsb'_wordAt v j (List.mem_range.1 hi)
    _ = ((toBytes v).drop (4 * j.val)).take 4 := by fin_cases j <;> rfl

theorem toNat_wordAt (v : Bytes16) (j : Fin 4) :
    (wordAt v j).toNat = be (((toBytes v).drop (4 * j.val)).take 4) := by
  rw [← wordBytes_wordAt, be_wordBytes]

theorem getD_toBytes (v : Bytes16) {i : Nat} (h : i < 16) : (toBytes v).getD i 0 = byteAt v i := by
  simp [toBytes, h]

/-- Settles O18: the words and bytes of the key as bytes of its byte string; the exclusive or of
words is taken byte by byte. -/
theorem splitKeyIsOfTheKeyBytes : Obligations.SplitKeyIsOfTheKeyBytes := by
  intro k
  have hshift {i : Nat} (hi : i < 16) :
      (byteAt k i).toNat % 32 = ((toBytes k).getD i 0).toNat % 32 := by rw [getD_toBytes k hi]
  have hbyte {i : Nat} (hi : i < 4) (j : Fin 4) :
      (wordBytes (wordAt k j)).getD i 0 = byteAt k (4 * j.val + i) := by
    rw [getD_wordBytes _ hi, extractLsb'_wordAt k j hi]
  have hpart3 : ∀ i, i < 4 → (wordBytes (splitKey k).part3).getD i 0 =
      byteAt k i ^^^ byteAt k (4 + i) ^^^ byteAt k (8 + i) := fun i hi => by
    rw [splitKey, getD_wordBytes_xor _ _ hi, getD_wordBytes_xor _ _ hi, hbyte hi, hbyte hi,
      hbyte hi, Fin.val_zero, Nat.mul_zero, Nat.zero_add]
    rfl
  exact ⟨toNat_wordAt k 0, toNat_wordAt k 1, toNat_wordAt k 2, hpart3, hshift (by omega),
    hshift (by omega), hshift (by omega), hshift (by omega)⟩

/-! ## Rotations (R101) -/

theorem rotl8_eq_rotateLeft (x : Byte) (n : Nat) : rotl8 x n = x.rotateLeft n := rfl

theorem rotr8_eq_rotateRight (x : Byte) (n : Nat) : rotr8 x n = x.rotateRight n := rfl

/-- Bit `i` moves up by `n mod 8` places, and round to the low end past bit 7. -/
theorem getLsbD_rotl8 (x : Byte) (n : Nat) {i : Nat} (hi : i < 8) :
    (rotl8 x n).getLsbD ((i + n) % 8) = x.getLsbD i := by
  rw [rotl8_eq_rotateLeft, BitVec.getLsbD_rotateLeft]
  by_cases hwrap : i + n % 8 < 8
  · have hpos : (i + n) % 8 = i + n % 8 := by omega
    simp [hpos, hwrap]
  · have hpos : (i + n) % 8 = i + n % 8 - 8 := by omega
    have hlow : i + n % 8 - 8 < n % 8 := by omega
    have hback : 8 - n % 8 + (i + n % 8 - 8) = i := by omega
    simp [hpos, hlow, hback]

/-- Bit `i` comes from `n mod 8` places up, and past bit 7 from the low end. -/
theorem getLsbD_rotr8 (x : Byte) (n : Nat) {i : Nat} (hi : i < 8) :
    (rotr8 x n).getLsbD i = x.getLsbD ((i + n) % 8) := by
  rw [rotr8_eq_rotateRight, BitVec.getLsbD_rotateRight]
  by_cases hwrap : i < 8 - n % 8
  · have hpos : (i + n) % 8 = n % 8 + i := by omega
    simp [hpos, hwrap]
  · have hpos : (i + n) % 8 = i - (8 - n % 8) := by omega
    simp [hpos, hwrap, hi]

/-- R110: the two rotations by one amount undo each other. -/
theorem rotr8_rotl8 (x : Byte) (n : Nat) : rotr8 (rotl8 x n) n = x :=
  BitVec.eq_of_getLsbD_eq fun i hi => by rw [getLsbD_rotr8 _ _ hi, getLsbD_rotl8 _ _ hi]

/-! ## The byte in BLK (R108, R109) -/

theorem getLsbD_blkByte (blk : Word) {i : Nat} (hi : i < 8) :
    (blkByte blk).getLsbD i = blk.getLsbD i := by
  simp [blkByte, hi]

theorem getLsbD_setWidth_byte (b : Byte) {i : Nat} (hi : i < 8) :
    (b.setWidth 32).getLsbD i = b.getLsbD i := by
  rw [BitVec.getLsbD_setWidth, decide_eq_true (by omega), Bool.true_and]

theorem toNat_setWidth_byte_lt (b : Byte) : (b.setWidth 32).toNat < 256 := by
  rw [BitVec.toNat_setWidth_of_le (by norm_num)]
  exact b.isLt

theorem blkByte_setWidth (b : Byte) : blkByte (b.setWidth 32) = b := by
  rw [blkByte, BitVec.extractLsb'_setWidth_of_le (by norm_num), BitVec.extractLsb'_eq_self]

theorem setWidth_blkByte (blk : Word) : (blkByte blk).setWidth 32 = blk &&& 0xFF := by
  have hmask : (0xFF : Word).toNat = 2 ^ 8 - 1 := rfl
  apply BitVec.eq_of_toNat_eq
  rw [BitVec.toNat_setWidth_of_le (by norm_num), BitVec.toNat_and, hmask,
    Nat.and_two_pow_sub_one_eq_mod, blkByte, BitVec.extractLsb'_toNat, Nat.shiftRight_zero]

theorem exec_rotl8 (s : State) (n : Nat) :
    exec (.rotl8 n) s = .next { s with
      blk := (rotl8 (blkByte s.blk) n).setWidth 32
      errcode := .ok, done := true, busy := false, pend := none, cyclesLeft := 0 } :=
  exec_of_ok (i := .rotl8 n) rfl

theorem exec_rotr8 (s : State) (n : Nat) :
    exec (.rotr8 n) s = .next { s with
      blk := (rotr8 (blkByte s.blk) n).setWidth 32
      errcode := .ok, done := true, busy := false, pend := none, cyclesLeft := 0 } :=
  exec_of_ok (i := .rotr8 n) rfl

/-- Settles O19: each rotation moves the bits of BLK's low byte, and zero-extending the byte keeps
them. -/
theorem rotationsMoveTheBits : Obligations.RotationsMoveTheBits := by
  intro s n
  refine ⟨⟨_, exec_rotl8 s n, fun i hi => ?_, toNat_setWidth_byte_lt _, rfl⟩,
    ⟨_, exec_rotr8 s n, fun i hi => ?_, toNat_setWidth_byte_lt _, rfl⟩⟩
  · rw [getLsbD_setWidth_byte _ (Nat.mod_lt _ (by norm_num)), getLsbD_rotl8 _ _ hi,
      getLsbD_blkByte _ hi]
  · rw [getLsbD_setWidth_byte _ hi, getLsbD_rotr8 _ _ hi,
      getLsbD_blkByte _ (Nat.mod_lt _ (by norm_num))]

/-- Settles O20: ROTR8 reads the byte that ROTL8 wrote and rotates it back. -/
theorem rotationsUndoEachOther : Obligations.RotationsUndoEachOther := by
  intro s n
  refine ⟨_, _, exec_rotl8 s n, exec_rotr8 _ n, ?_⟩
  rw [blkByte_setWidth, rotr8_rotl8, setWidth_blkByte]

end Sys2Proof.Machine

/-! PROOFS. The block cipher: D without the checks on its way (R122); the range and order of E
(R121); D as the floor inverse of E (R125); and DEC_BLOCK, alone and after ENC_BLOCK (R124). -/

namespace Sys2Proof.Machine

/-! ## D checks only its end (R122) -/

/-- The check at the end of D: the value fits a block. -/
def checkEnd (z : Int) : Option Nat := if 0 ≤ z ∧ z < 2 ^ 32 then some z.toNat else none

/-- The integer that the subtractions and floor shifts of D end in, with none of them checked. -/
def uncheckedDecrypt (k : Bytes16) (c : Nat) : Int :=
  let kp := splitKey k
  let v3 : Int := (c : Int) - kp.part3.toNat
  let v2 : Int := v3 / (2 ^ kp.shift2 : Nat) - kp.part2.toNat
  let v1 : Int := v2 / (2 ^ kp.shift1 : Nat) - kp.part1.toNat
  v1 / (2 ^ kp.shift0 : Nat) - kp.part0.toNat

/-- What is left of D fails on a negative value: so no check before the end changes the verdict. -/
def FailsBelowZero (rest : Int → Option Nat) : Prop := ∀ z < 0, rest z = none

theorem failsBelowZero_checkEnd : FailsBelowZero checkEnd := fun _ hz =>
  if_neg fun h => absurd h.1 (Int.not_le.2 hz)

/-- A floor shift and a subtraction keep a negative value negative. -/
theorem FailsBelowZero.shiftSub {rest : Int → Option Nat} (h : FailsBelowZero rest) (shift : Nat)
    (p : Word) : FailsBelowZero fun z => rest (z / (2 ^ shift : Nat) - p.toNat) := fun z hz => by
  have hquot : z / (2 ^ shift : Nat) < 0 := Int.ediv_neg_of_neg_of_pos hz (by positivity)
  exact h _ (by omega)

theorem subPart_bind {f : Nat → Option Nat} {rest : Int → Option Nat} (h : FailsBelowZero rest)
    (hf : ∀ n : Nat, f n = rest n) (v : Nat) (p : Word) :
    (subPart v p).bind f = rest ((v : Int) - p.toNat) := by
  unfold subPart
  split
  · next hlt => exact (h _ (by omega)).symm
  · next hle =>
    rw [Option.bind_some, hf, Nat.cast_sub (Nat.not_lt.1 hle)]

theorem subPart_shift_bind {f : Nat → Option Nat} {rest : Int → Option Nat}
    (h : FailsBelowZero rest) (hf : ∀ n : Nat, f n = rest n) (shift : Nat) (p : Word) (v : Nat) :
    (subPart (v / 2 ^ shift) p).bind f = rest ((v : Int) / (2 ^ shift : Nat) - p.toNat) := by
  rw [subPart_bind h hf, Int.natCast_ediv]

theorem checkEnd_natCast (n : Nat) : (if 2 ^ 32 ≤ n then none else some n) = checkEnd n := by
  unfold checkEnd
  split
  · rw [if_neg (by omega)]
  · rw [if_pos (by omega), Int.toNat_natCast]

theorem checkEnd_eq_some_iff {z : Int} {v : Nat} :
    checkEnd z = some v ↔ z = v ∧ v < 2 ^ 32 := by
  unfold checkEnd
  split
  · rw [Option.some.injEq]
    omega
  · next hout => exact iff_of_false nofun fun ⟨hz, hv⟩ => hout (by omega)

/-- D is its unchecked integer, checked at the end. -/
theorem decryptValue_eq_checkEnd (k : Bytes16) (c : Nat) :
    decryptValue k c = checkEnd (uncheckedDecrypt k c) := by
  have fails0 := failsBelowZero_checkEnd.shiftSub (splitKey k).shift0 (splitKey k).part0
  have fails1 := fails0.shiftSub (splitKey k).shift1 (splitKey k).part1
  have fails2 := fails1.shiftSub (splitKey k).shift2 (splitKey k).part2
  exact subPart_bind fails2
    (subPart_shift_bind fails1
      (subPart_shift_bind fails0
        (subPart_shift_bind failsBelowZero_checkEnd checkEnd_natCast _ _) _ _) _ _) c _

/-- Settles O23: what is left of D after each check fails on a negative value in any case. -/
theorem decryptValueChecksOnlyTheEnd : Obligations.DecryptValueChecksOnlyTheEnd :=
  decryptValue_eq_checkEnd

/-! ## E is strictly increasing, and its range (R121) -/

theorem encryptValue_succ (k : Bytes16) (v : Nat) :
    encryptValue k (v + 1) = encryptValue k v +
      2 ^ ((splitKey k).shift0 + (splitKey k).shift1 + (splitKey k).shift2) := by
  rw [encryptValue_closedForm, encryptValue_closedForm]
  ring

theorem strictMono_encryptValue (k : Bytes16) : StrictMono (encryptValue k) :=
  strictMono_nat_of_lt_succ fun v => by
    rw [encryptValue_succ]
    exact Nat.lt_add_of_pos_right (by positivity)

theorem shift_lt (b : Byte) : b.toNat % 32 < 32 := Nat.mod_lt _ (by norm_num)

/-- One addition and shift of E, at its largest. -/
theorem add_mul_two_pow_le {v n shift : Nat} (p : Word) (hv : v ≤ n) (hs : shift < 32) :
    (v + p.toNat) * 2 ^ shift ≤ (n + 0xFFFFFFFF) * 2 ^ 31 := by
  have hp := p.isLt
  exact Nat.mul_le_mul (by omega) (Nat.pow_le_pow_right (by norm_num) (by omega))

theorem encryptValue_le (k : Bytes16) {v : Nat} (h : v < 2 ^ 32) :
    encryptValue k v ≤ 0x4000000000000000400000007FFFFFFF := by
  have h0 := add_mul_two_pow_le (splitKey k).part0 (Nat.le_pred_of_lt h) (shift_lt (byteAt k 12))
  have h1 := add_mul_two_pow_le (splitKey k).part1 h0 (shift_lt (byteAt k 13))
  have h2 := add_mul_two_pow_le (splitKey k).part2 h1 (shift_lt (byteAt k 14))
  have h3 := Nat.le_pred_of_lt (splitKey k).part3.isLt
  exact (Nat.add_le_add h2 h3).trans (by norm_num)

/-- One more than the largest block still has an output below 2^127. -/
theorem encryptValue_succ_lt (k : Bytes16) {v : Nat} (h : v < 2 ^ 32) :
    encryptValue k (v + 1) < 2 ^ 127 := by
  have hs0 : (splitKey k).shift0 < 32 := shift_lt (byteAt k 12)
  have hs1 : (splitKey k).shift1 < 32 := shift_lt (byteAt k 13)
  have hs2 : (splitKey k).shift2 < 32 := shift_lt (byteAt k 14)
  have hpow : 2 ^ ((splitKey k).shift0 + (splitKey k).shift1 + (splitKey k).shift2) ≤ 2 ^ 93 :=
    Nat.pow_le_pow_right (by norm_num) (by omega)
  rw [encryptValue_succ]
  exact (Nat.add_le_add (encryptValue_le k h) hpow).trans_lt (by norm_num)

theorem part3_eq_xor (k : Bytes16) :
    (splitKey k).part3 = (splitKey k).part0 ^^^ (splitKey k).part1 ^^^ (splitKey k).part2 := rfl

theorem encryptValue_eq_zero_iff (k : Bytes16) (v : Nat) :
    encryptValue k v = 0 ↔
      v = 0 ∧ (splitKey k).part0 = 0 ∧ (splitKey k).part1 = 0 ∧ (splitKey k).part2 = 0 := by
  constructor
  · intro h
    have hpow (n : Nat) : 2 ^ n ≠ 0 := (Nat.two_pow_pos n).ne'
    simp only [encryptValue_closedForm, Nat.add_eq_zero_iff, Nat.mul_eq_zero, hpow, or_false] at h
    obtain ⟨⟨⟨⟨hv, h0⟩, h1⟩, h2⟩, -⟩ := h
    exact ⟨hv, BitVec.eq_of_toNat_eq h0, BitVec.eq_of_toNat_eq h1, BitVec.eq_of_toNat_eq h2⟩
  · rintro ⟨rfl, h0, h1, h2⟩
    have h3 : (splitKey k).part3 = 0 := by rw [part3_eq_xor, h0, h1, h2]; rfl
    simp [encryptValue_closedForm, h0, h1, h2, h3]

theorem part3_eq_zero_of_encryptValue {k : Bytes16} {v : Nat} (h : encryptValue k v = 0) :
    (splitKey k).part3 = 0 := by
  rw [encryptValue_closedForm] at h
  exact BitVec.eq_of_toNat_eq (Nat.eq_zero_of_add_eq_zero_left h)

theorem bitlen_eq_zero_iff (v : Nat) : bitlen v = 0 ↔ v = 0 := by
  rw [← Nat.le_zero, bitlen_le_iff, pow_zero, Nat.lt_one_iff]

/-- A field above bit 7 of a key that has nothing above bit 7. -/
theorem extractLsb'_eq_zero_of_low_byte {k : Bytes16} (h : k &&& (~~~ 0xFF : Bytes16) = 0)
    {start len : Nat} (hs : 8 ≤ start) : k.extractLsb' start len = 0 := by
  refine BitVec.eq_of_getLsbD_eq fun i _ => ?_
  by_cases hk : start + i < 128
  · have hlow : (0xFF : Bytes16).getLsbD (start + i) = false :=
      Nat.testBit_lt_two_pow <| (show 255 < 2 ^ 8 by norm_num).trans_le <|
        Nat.pow_le_pow_right (by norm_num) (by omega)
    have hmask : (~~~0xFF : Bytes16).getLsbD (start + i) = true := by
      rw [BitVec.getLsbD_not, hlow, decide_eq_true hk]
      rfl
    have hbit := congrArg (BitVec.getLsbD · (start + i)) h
    simp only [BitVec.getLsbD_and, hmask, Bool.and_true] at hbit
    simpa using fun _ => hbit
  · simp [BitVec.getLsbD_of_ge k _ (Nat.not_lt.1 hk)]

theorem encryptValue_of_low_byte {k : Bytes16} (h : k &&& (~~~ 0xFF : Bytes16) = 0) (v : Nat) :
    encryptValue k v = v := by
  have hfield {start len : Nat} (hs : 8 ≤ start) : k.extractLsb' start len = 0 :=
    extractLsb'_eq_zero_of_low_byte h hs
  simp [encryptValue, splitKey, wordAt, byteAt, hfield]

/-- Settles O24: the largest value bounds E step by step; the closed form gives the difference of
neighbours and the zero values. -/
theorem encryptValueRangeAndOrder : Obligations.EncryptValueRangeAndOrder := fun k =>
  ⟨fun _ hv => ⟨encryptValue_lt k hv, (bitlen_le_iff _ _).2 (encryptValue_lt k hv),
      encryptValue_le k hv⟩,
    by decide, encryptValue_succ k, fun _ _ hlt => strictMono_encryptValue k hlt,
    encryptValue_eq_zero_iff k, fun _ => part3_eq_zero_of_encryptValue,
    fun _ => bitlen_eq_zero_iff _, encryptValue_of_low_byte⟩

/-! ## D undoes E (R125) -/

/-- E and the unchecked D are a Galois connection, step by step: `m ≤ q / 2^s - p` exactly when
`(m + p) * 2^s ≤ q`. -/
theorem le_uncheckedDecrypt_iff (k : Bytes16) (c m : Nat) :
    (m : Int) ≤ uncheckedDecrypt k c ↔ encryptValue k m ≤ c := by
  have hpos (shift : Nat) : (0 : Int) < (2 ^ shift : Nat) := by positivity
  simp only [uncheckedDecrypt, encryptValue, le_sub_iff_add_le, Int.le_ediv_iff_mul_le (hpos _)]
  exact_mod_cast Iff.rfl

/-- D answers the block of the last output that is not above what D is given (R122). -/
theorem decryptValue_eq_some_iff (k : Bytes16) (c v : Nat) :
    decryptValue k c = some v ↔
      v < 2 ^ 32 ∧ encryptValue k v ≤ c ∧ c < encryptValue k (v + 1) := by
  have hle := le_uncheckedDecrypt_iff k c v
  have hlt := not_congr (le_uncheckedDecrypt_iff k c (v + 1))
  rw [Nat.not_le] at hlt
  rw [decryptValue_eq_checkEnd, checkEnd_eq_some_iff, ← hle, ← hlt]
  omega

theorem decryptValue_encryptValue (k : Bytes16) {v : Nat} (h : v < 2 ^ 32) :
    decryptValue k (encryptValue k v) = some v :=
  (decryptValue_eq_some_iff k _ v).2 ⟨h, le_rfl, strictMono_encryptValue k v.lt_succ_self⟩

/-- Settles O25: a block that D answers has an output at most the value that D was given, and the
next block's output, above that value, is still below 2^127. -/
theorem decryptValueUndoesEncryptValue : Obligations.DecryptValueUndoesEncryptValue := by
  refine ⟨fun k v => decryptValue_encryptValue k, fun k c hc => ?_, fun k hpart3 => ?_⟩
  · refine Option.eq_none_iff_forall_ne_some.2 fun v hv => ?_
    obtain ⟨hblock, -, hlt⟩ := (decryptValue_eq_some_iff k c v).1 hv
    exact absurd (hlt.trans (encryptValue_succ_lt k hblock)) (Nat.not_lt.2 hc)
  · refine Option.eq_none_iff_forall_ne_some.2 fun v hv => ?_
    obtain ⟨-, hle, -⟩ := (decryptValue_eq_some_iff k 0 v).1 hv
    exact hpart3 (part3_eq_zero_of_encryptValue (Nat.le_zero.1 hle))

/-! ## DEC_BLOCK (R124) -/

/-- The minimal form has no leading zero byte. -/
theorem pow_minbytesLen_le {v : Nat} (h : v ≠ 0) : 256 ^ (minbytesLen v - 1) ≤ v := by
  by_contra hlt
  have hlen : minbytesLen v ≤ minbytesLen v - 1 := (minbytesLen_le_iff v _).2 (Nat.not_le.1 hlt)
  have hzero : v < 256 ^ 0 := (minbytesLen_le_iff v 0).1 (by omega)
  exact h (Nat.lt_one_iff.1 hzero)

/-- The length of the minimal form of a block fits BLKLEN. -/
theorem toNat_ofNat_minbytesLen {v : Nat} (h : v < 2 ^ 32) :
    (BitVec.ofNat 3 (minbytesLen v)).toNat = minbytesLen v := by
  have hle : minbytesLen v ≤ 4 := (minbytesLen_le_iff v 4).2 (by simpa using h)
  rw [BitVec.toNat_ofNat, Nat.mod_eq_of_lt (by omega)]

/-- DEC_BLOCK where D succeeds. -/
theorem exec_decBlock {s : State} {v : Nat} (hwk : s.wkValid = true)
    (hd : decryptValue s.wk s.ct.toNat = some v) (adv : Bool) :
    exec (.decBlock adv) s = .next { s with
      blk := BitVec.ofNat 32 v
      blklen := BitVec.ofNat 3 (minbytesLen v)
      wk := if adv then Config.actual.reshuffle s.wk else s.wk
      errcode := .ok, done := true, busy := false, pend := none, cyclesLeft := 0 } := by
  rw [exec_of_ok (i := .decBlock adv) (decBlock_ok.2 ⟨hwk, v, hd, rfl⟩)]
  cases adv <;> rfl

/-- Settles O22: a value that D answers is below 2^32, so BLK and BLKLEN hold it and its length. -/
theorem decBlockResult : Obligations.DecBlockResult := by
  intro s adv v hwk hd
  have hv := decryptValue_lt hd
  have hlen := toNat_ofNat_minbytesLen hv
  refine ⟨_, exec_decBlock hwk hd adv, Nat.mod_eq_of_lt hv, ?_, ?_, fun hne => ?_, ?_, rfl⟩
  · exact hlen.trans_le (minbytesLen_decryptValue_le hd)
  · rw [hlen]
    exact (minbytesLen_le_iff v _).1 le_rfl
  · rw [hlen]
    exact pow_minbytesLen_le hne
  · rintro rfl
    rfl

/-! ## ENC_BLOCK and DEC_BLOCK under one WorkingKey (R125) -/

theorem blockValue_lt (count : Nat) (blk : Word) : blockValue count blk < 2 ^ 32 :=
  (Nat.mod_le _ _).trans_lt blk.isLt

theorem minbytesLen_blockValue_le (count : Nat) (blk : Word) :
    minbytesLen (blockValue count blk) ≤ count := by
  rw [minbytesLen_le_iff, show (256 : Nat) = 2 ^ 8 by rfl, ← Nat.pow_mul]
  exact Nat.mod_lt _ (by positivity)

/-- What ENC_BLOCK without ADV hands to DEC_BLOCK: the same WorkingKey, and the output in CT. -/
theorem decryptValue_after_exec_encBlock {s : State} {count : Nat} {record : Bool}
    (hwk : s.wkValid = true) (hcount : count ≤ 4) (hroom : record = true → s.mdcount ≠ 255) :
    ∃ t, exec (.encBlock count false record) s = .next t ∧ t.wkValid = true ∧
      decryptValue t.wk t.ct.toNat = some (blockValue count s.blk) := by
  obtain ⟨u, hu⟩ : ∃ u, encBlock Config.actual count false record s = .ok u :=
    ⟨_, encBlock_ok.2 ⟨hwk, hcount, fun hr => recordsFull_eq_false_iff.2 (hroom hr), rfl⟩⟩
  obtain ⟨hct, -, hkey, -, -, hframe⟩ := encBlock_ok_fields hu
  refine ⟨_, exec_of_ok (i := .encBlock count false record) hu, ?_, ?_⟩
  · show u.wkValid = true
    rw [hframe]
    exact hwk
  · show decryptValue u.wk u.ct.toNat = _
    rw [hkey, hct, toNat_ofNat_encryptValue]
    exact decryptValue_encryptValue s.wk (blockValue_lt count s.blk)

/-- Settles O26: D undoes E on the block value, which has at most N bytes. -/
theorem encThenDecRestoresBlock : Obligations.EncThenDecRestoresBlock := by
  intro s count adv record hwk hcount hroom
  obtain ⟨t, ht, hvalid, hd⟩ := decryptValue_after_exec_encBlock hwk hcount hroom
  have hlen := toNat_ofNat_minbytesLen (blockValue_lt count s.blk)
  exact ⟨t, _, ht, exec_decBlock hvalid hd adv, rfl, Nat.mod_eq_of_lt (blockValue_lt count s.blk),
    hlen, hlen.trans_le (minbytesLen_blockValue_le count s.blk)⟩

end Sys2Proof.Machine

/-! PROOFS. The order of ciphertexts of equal layout (R176): bytes, blocks and bit strings are all
digits of a number, and the first digit in which two numbers differ decides their order. -/

namespace Sys2Proof.Machine

/-! ## Byte strings in byte-wise order (R18) -/

/-- Two numbers with a leading digit each: the leading digits decide, or the rest does. -/
theorem mul_add_lt_mul_add_iff {m d d' r r' : Nat} (hr : r < m) (hr' : r' < m) :
    d * m + r < d' * m + r' ↔ d < d' ∨ d = d' ∧ r < r' := by
  rcases lt_trichotomy d d' with h | rfl | h
  · have hstep : d * m + m ≤ d' * m := by rw [← Nat.succ_mul]; exact Nat.mul_le_mul_right m h
    exact iff_of_true (by omega) (.inl h)
  · simp
  · have hstep : d' * m + m ≤ d * m := by rw [← Nat.succ_mul]; exact Nat.mul_le_mul_right m h
    exact iff_of_false (by omega) (by omega)

theorem bytesLt_cons (a b : Byte) (as bs : List Byte) :
    bytesLt (a :: as) (b :: bs) = true ↔
      a.toNat < b.toNat ∨ a.toNat = b.toNat ∧ bytesLt as bs = true := by
  simp [bytesLt, BitVec.toNat_inj]

/-- Of two byte strings of one length the smaller one has the smaller value. -/
theorem bytesLt_iff_be_lt {a b : List Byte} (h : a.length = b.length) :
    bytesLt a b = true ↔ be a < be b := by
  induction a generalizing b with
  | nil =>
    obtain rfl := List.length_eq_zero_iff.1 h.symm
    exact iff_of_false nofun (Nat.lt_irrefl 0)
  | cons x xs ih =>
    cases b with
    | nil => cases h
    | cons y ys =>
      have hlen : xs.length = ys.length := Nat.succ.inj h
      have hx := be_lt xs
      rw [bytesLt_cons, ih hlen, be_cons, be_cons, ← hlen,
        mul_add_lt_mul_add_iff hx (hlen ▸ be_lt ys)]

/-- What follows two byte strings of one length does not change their order. -/
theorem bytesLt_append {a b : List Byte} (hlen : a.length = b.length) (h : bytesLt a b = true)
    (s t : List Byte) : bytesLt (a ++ s) (b ++ t) = true := by
  induction a generalizing b with
  | nil =>
    obtain rfl := List.length_eq_zero_iff.1 hlen.symm
    cases h
  | cons x xs ih =>
    cases b with
    | nil => cases hlen
    | cons y ys =>
      rw [bytesLt_cons] at h
      exact (bytesLt_cons _ _ _ _).2 (h.imp_right fun h => ⟨h.1, ih (Nat.succ.inj hlen) h.2⟩)

/-! ## Bit strings and their packing (R13, R173) -/

@[simp] theorem length_bitstr (v l : Nat) : (bitstr v l).length = l := by simp [bitstr]

@[simp] theorem bitsValue_nil : bitsValue [] = 0 := rfl

theorem bitsValue_concat (s : List Bool) (b : Bool) :
    bitsValue (s ++ [b]) = 2 * bitsValue s + b.toNat := by
  rw [bitsValue, List.foldl_append]
  rfl

theorem bitsValue_singleton (b : Bool) : bitsValue [b] = b.toNat := by
  simpa using bitsValue_concat [] b

theorem bitsValue_append (s t : List Bool) :
    bitsValue (s ++ t) = bitsValue s * 2 ^ t.length + bitsValue t := by
  induction t using List.reverseRecOn with
  | nil => simp
  | append_singleton t b ih =>
    rw [← List.append_assoc, bitsValue_concat, bitsValue_concat, ih, List.length_append,
      List.length_singleton]
    ring

theorem bitsValue_lt (s : List Bool) : bitsValue s < 2 ^ s.length := by
  induction s using List.reverseRecOn with
  | nil => exact Nat.one_pos
  | append_singleton s b ih =>
    have hb := b.toNat_lt
    rw [bitsValue_concat, List.length_append, List.length_singleton, pow_succ]
    omega

theorem bitstr_succ (v l : Nat) : bitstr v (l + 1) = [v.testBit l] ++ bitstr v l := by
  rw [bitstr, List.range_succ_eq_map, List.map_cons, List.map_map]
  refine congrArg _ (List.map_congr_left fun i _ => ?_)
  rw [Function.comp_apply, show l + 1 - 1 - (i + 1) = l - 1 - i by omega]

/-- The bit string of a number stands for its low digits. -/
theorem bitsValue_bitstr (v l : Nat) : bitsValue (bitstr v l) = v % 2 ^ l := by
  induction l with
  | zero => rw [pow_zero, Nat.mod_one]; rfl
  | succ l ih =>
    have hbit : bitsValue [v.testBit l] = v / 2 ^ l % 2 := by
      rw [bitsValue_singleton, Nat.toNat_testBit]
    rw [bitstr_succ, bitsValue_append, hbit, ih, length_bitstr, pow_succ, Nat.mod_mul, Nat.mul_comm,
      Nat.add_comm]

/-- A packed bit string has the value of its bits: the pad bits are zeros (R173). -/
theorem be_pack (s : List Bool) : be (pack s) = bitsValue s := by
  have hfit : 2 ^ s.length ≤ 256 ^ ((s.length + 7) / 8) := by
    rw [show (256 : Nat) = 2 ^ 8 by rfl, ← Nat.pow_mul]
    exact Nat.pow_le_pow_right (by norm_num) (by omega)
  rw [pack, be_beBytes, Nat.mod_eq_of_lt ((bitsValue_lt s).trans_le hfit)]

@[simp] theorem length_pack (s : List Bool) : (pack s).length = (s.length + 7) / 8 :=
  length_beBytes _ _

/-! ## Blocks (R172) -/

theorem flatten_fourByteBlocks {n : Nat} {x : List Byte} (h : x.length = 4 * n) :
    (fourByteBlocks n x).flatten = x := by
  induction n generalizing x with
  | zero => exact (List.length_eq_zero_iff.1 h).symm
  | succ n ih =>
    rw [fourByteBlocks, List.flatten_cons, ih (by rw [List.length_drop]; omega),
      List.take_append_drop]

/-- The blocks of a plaintext are its bytes. -/
theorem flatten_splitBlocks (x : List Byte) : (splitBlocks x).flatten = x := by
  by_cases hx : x = []
  · rw [hx]; rfl
  · have hlen : x.length ≠ 0 := mt List.length_eq_zero_iff.1 hx
    rw [splitBlocks, if_neg hx, List.flatten_cons, flatten_fourByteBlocks, List.take_append_drop]
    rw [List.length_drop]
    split <;> omega

theorem map_length_fourByteBlocks {n : Nat} {x y : List Byte} (h : x.length = y.length) :
    (fourByteBlocks n x).map List.length = (fourByteBlocks n y).map List.length := by
  induction n generalizing x y with
  | zero => rfl
  | succ n ih =>
    have hdrop : (x.drop 4).length = (y.drop 4).length := by
      rw [List.length_drop, List.length_drop, h]
    rw [fourByteBlocks, fourByteBlocks, List.map_cons, List.map_cons, List.length_take,
      List.length_take, h, ih hdrop]

/-- Two plaintexts of one length split alike. -/
theorem map_length_splitBlocks {x y : List Byte} (h : x.length = y.length) :
    (splitBlocks x).map List.length = (splitBlocks y).map List.length := by
  by_cases hx : x = []
  · subst hx
    obtain rfl := List.length_eq_zero_iff.1 h.symm
    rfl
  · have hy : y ≠ [] := fun hy => hx (List.length_eq_zero_iff.1 (by rw [h, hy]; rfl))
    have hdrop (f : Nat) : (x.drop f).length = (y.drop f).length := by
      rw [List.length_drop, List.length_drop, h]
    rw [splitBlocks, splitBlocks, if_neg hx, if_neg hy, List.map_cons, List.map_cons,
      List.length_take, List.length_take, ← h, map_length_fourByteBlocks (hdrop _)]

/-! ## The block outputs and the ciphertext (R174, R176) -/

/-- The bit-stream of a list of blocks has as many bits as the records say. -/
theorem length_encryptBlocks (c : Config) (wk : Bytes16) (bs : List (List Byte)) :
    (encryptBlocks c wk bs).1.length = (encryptBlocks c wk bs).2.sum := by
  induction bs generalizing wk with
  | nil => rfl
  | cons b bs ih => simp [encryptBlocks, ih]

/-- The value of the bit-stream: the output of the first block, then the rest. -/
theorem bitsValue_encryptBlocks_cons (c : Config) (wk : Bytes16) (b : List Byte)
    (bs : List (List Byte)) :
    bitsValue (encryptBlocks c wk (b :: bs)).1 =
      encryptValue wk (be b) * 2 ^ (encryptBlocks c (c.reshuffle wk) bs).2.sum +
        bitsValue (encryptBlocks c (c.reshuffle wk) bs).1 := by
  rw [encryptBlocks, bitsValue_append, bitsValue_bitstr, Nat.mod_eq_of_lt (lt_two_pow_bitlen _),
    length_encryptBlocks]

/-- R176: of two lists of blocks with the same lengths and the same records, the one of the smaller
value has the smaller bit-stream: at the first block that differs, E is smaller. -/
theorem bitsValue_encryptBlocks_lt {c : Config} {wk : Bytes16} {bs bs' : List (List Byte)}
    (hlens : bs.map List.length = bs'.map List.length) (hlt : be bs.flatten < be bs'.flatten)
    (hrecs : (encryptBlocks c wk bs).2 = (encryptBlocks c wk bs').2) :
    bitsValue (encryptBlocks c wk bs).1 < bitsValue (encryptBlocks c wk bs').1 := by
  induction bs generalizing bs' wk with
  | nil =>
    obtain rfl := List.map_eq_nil_iff.1 hlens.symm
    exact absurd hlt (Nat.lt_irrefl 0)
  | cons b bs ih =>
    cases bs' with
    | nil => cases hlens
    | cons b' bs' =>
      obtain ⟨hb, hrest⟩ := List.cons.inj hlens
      obtain ⟨-, hrecs⟩ := List.cons.inj hrecs
      have hflat : bs.flatten.length = bs'.flatten.length := by
        rw [List.length_flatten, List.length_flatten, hrest]
      have hbound := be_lt bs.flatten
      have hbits := bitsValue_lt (encryptBlocks c (c.reshuffle wk) bs).1
      have hbits' := bitsValue_lt (encryptBlocks c (c.reshuffle wk) bs').1
      rw [length_encryptBlocks] at hbits hbits'
      rw [List.flatten_cons, List.flatten_cons, be_append, be_append, ← hflat,
        mul_add_lt_mul_add_iff hbound (hflat ▸ be_lt bs'.flatten)] at hlt
      rw [bitsValue_encryptBlocks_cons, bitsValue_encryptBlocks_cons, ← hrecs,
        mul_add_lt_mul_add_iff hbits (hrecs ▸ hbits')]
      rcases hlt with hlt | ⟨heq, hlt⟩
      · exact .inl (strictMono_encryptValue wk hlt)
      · exact .inr ⟨congrArg _ heq, ih hrest hlt hrecs⟩

/-- A ciphertext is its body, and the footer and the IV after it (R174). -/
theorem encrypt_ok {c : Config} {rk iv : Bytes16} {x ct : List Byte}
    (h : encrypt c rk x iv = .ok ct) :
    ct = pack (encryptBlocks c rk (splitBlocks x)).1 ++
      (footer c (encryptBody c rk x).2 rk iv ++ toBytes iv) := by
  simp only [encrypt] at h
  split at h
  · cases h
  · cases h
    exact List.append_assoc _ _ _

/-- Settles O56: the bodies have one length and the order of the bit-streams, and decide before the
footers and IVs are reached. -/
theorem equalLayoutPreservesOrder : Obligations.EqualLayoutPreservesOrder := by
  intro c rk iv iv' x y a b hlen hlt hrecs ha hb
  obtain rfl := encrypt_ok ha
  obtain rfl := encrypt_ok hb
  have hbody : (pack (encryptBlocks c rk (splitBlocks x)).1).length =
      (pack (encryptBlocks c rk (splitBlocks y)).1).length := by
    rw [length_pack, length_pack, length_encryptBlocks, length_encryptBlocks, hrecs]
  refine bytesLt_append hbody ((bytesLt_iff_be_lt hbody).2 ?_) _ _
  rw [be_pack, be_pack]
  refine bitsValue_encryptBlocks_lt (map_length_splitBlocks hlen) ?_ hrecs
  rwa [flatten_splitBlocks, flatten_splitBlocks, ← bytesLt_iff_be_lt hlen]

end Sys2Proof.Machine

/-! PROOFS. The metadata codec without its commands: the shape of the padded record (R140), what
decoding answers on every input (R143), and the footer decoded (R148). -/

namespace Sys2Proof.Machine

/-! ## The padded record (R140) -/

/-- The records and the sentinel fill one block more than the records fill. -/
theorem footerBlocks_eq (m : Nat) : footerBlocks m = m / 16 + 1 := by
  rw [footerBlocks, padCount]
  omega

theorem padCount_le (m : Nat) : padCount m ≤ 15 := by
  rw [padCount]
  omega

theorem sentinel_mem_padRecords (records : List Byte) : sentinel ∈ padRecords records := by
  simp [padRecords]

/-- Settles O31: the pad count is at most 15, so a pad byte is no sentinel; the sizes are arithmetic
on the pad count. -/
theorem paddedRecordShape : Obligations.PaddedRecordShape := by
  intro records k
  have hk : k ≤ 15 := padCount_le records.length
  refine ⟨rfl, hk, length_padRecords records, ?_, ?_, fun h => ?_⟩
  · rw [footerBlocks_eq]
    omega
  · omega
  · have h255 : k % 256 = 255 := congrArg BitVec.toNat h
    omega

/-! ## Up to the sentinel (R143) -/

/-- What stands after a first part that holds the sentinel is not reached. -/
theorem takeWhile_append_of_sentinel_mem {as : List Byte} (bs : List Byte) (h : sentinel ∈ as) :
    (as ++ bs).takeWhile (· != sentinel) = as.takeWhile (· != sentinel) := by
  rw [List.takeWhile_append, if_neg (length_takeWhile_sentinel_lt h).ne]

/-- A first part without the sentinel is taken whole. -/
theorem takeWhile_append_of_sentinel_not_mem {as : List Byte} (bs : List Byte)
    (h : sentinel ∉ as) :
    (as ++ bs).takeWhile (· != sentinel) = as ++ bs.takeWhile (· != sentinel) :=
  List.takeWhile_append_of_pos fun _ ha => bne_iff_ne.2 fun heq => h (heq ▸ ha)

/-- The padded record cut at its first sentinel: the records cut at theirs, all of them where they
hold none. -/
theorem takeWhile_padRecords (records : List Byte) :
    (padRecords records).takeWhile (· != sentinel) = records.takeWhile (· != sentinel) := by
  rw [padRecords, List.append_assoc]
  by_cases h : sentinel ∈ records
  · exact takeWhile_append_of_sentinel_mem _ h
  · rw [takeWhile_append_of_sentinel_not_mem _ h]
    conv_rhs => rw [← List.append_nil records, takeWhile_append_of_sentinel_not_mem _ h]
    rfl

/-- What decoding answers of a plaintext: the bytes before its first sentinel, with the number of
blocks up to and with the one that holds it, or FAIL without a sentinel. -/
def recordsBeforeSentinel (bs : List Byte) : Option (List Byte × Nat) :=
  let recs := bs.takeWhile (· != sentinel)
  if sentinel ∈ bs then some (recs, recs.length / 16 + 1) else none

/-- Where one block is the first to hold the sentinel, the blocks after it do not count. -/
theorem recordsBeforeSentinel_of_block {as p : List Byte} {j : Nat} (bs : List Byte)
    (has : sentinel ∉ as) (hlen : as.length = 16 * j) (hp : sentinel ∈ p) (hp16 : p.length = 16) :
    recordsBeforeSentinel (as ++ p ++ bs) =
      some ((as ++ p).takeWhile (· != sentinel), j + 1) := by
  have hmem : sentinel ∈ as ++ p := List.mem_append_right as hp
  have hlt := length_takeWhile_sentinel_lt hp
  rw [recordsBeforeSentinel, if_pos (List.mem_append_left bs hmem),
    takeWhile_append_of_sentinel_mem bs hmem, takeWhile_append_of_sentinel_not_mem p has,
    List.length_append]
  congr 2
  omega

/-! ## CBC decryption (R141, R143) -/

/-- The plaintext blocks of the ciphertext blocks `cts`: `P_j = AES_Dec(key, C_j) ⊕ C_(j-1)`, where
`C_0` is the IV. -/
def cbcDecrypt (c : Config) (key iv : Bytes16) (cts : List Bytes16) : List Bytes16 :=
  List.zipWith (fun ct prev => c.aesDec key ct ^^^ prev) cts (iv :: cts)

theorem cbcDecrypt_cons (c : Config) (key iv ct : Bytes16) (cts : List Bytes16) :
    cbcDecrypt c key iv (ct :: cts) = (c.aesDec key ct ^^^ iv) :: cbcDecrypt c key ct cts := rfl

@[simp] theorem length_cbcDecrypt (c : Config) (key iv : Bytes16) (cts : List Bytes16) :
    (cbcDecrypt c key iv cts).length = cts.length := by
  simp [cbcDecrypt]

/-- CBC decryption undoes CBC encryption (R12). -/
theorem cbcDecrypt_cbcEncrypt (c : Implementation) (key iv : Bytes16) (ps : List Bytes16) :
    cbcDecrypt c.toConfig key iv (cbcEncrypt c.toConfig key iv ps) = ps := by
  induction ps generalizing iv with
  | nil => rfl
  | cons p ps ih =>
    rw [cbcEncrypt, cbcDecrypt_cons, ih, c.aesDec_aesEnc, BitVec.xor_assoc, BitVec.xor_self,
      BitVec.xor_zero]

/-- The loop of `undo` in terms of the whole plaintext: what it has decrypted so far are whole blocks
without a sentinel. -/
theorem undoBlocks_eq (c : Config) (key prev : Bytes16) {acc : List Byte} {j : Nat}
    (cts : List Bytes16) (hacc : sentinel ∉ acc) (hlen : acc.length = 16 * j) :
    undoBlocks c key prev acc j cts =
      recordsBeforeSentinel (acc ++ (cbcDecrypt c key prev cts).flatMap toBytes) := by
  induction cts generalizing prev acc j with
  | nil =>
    have hmem : sentinel ∉ acc ++ (cbcDecrypt c key prev []).flatMap toBytes := by
      simpa [cbcDecrypt] using hacc
    rw [undoBlocks, recordsBeforeSentinel, if_neg hmem]
  | cons ct cts ih =>
    rw [undoBlocks, cbcDecrypt_cons, List.flatMap_cons, ← List.append_assoc]
    split
    · next hp => rw [recordsBeforeSentinel_of_block _ hacc hlen hp (length_toBytes _)]
    · next hp =>
      refine ih ct (fun h => (List.mem_append.1 h).elim hacc hp) ?_
      rw [List.length_append, hlen, length_toBytes, Nat.mul_succ]

/-! ## Decoding on every input (R143) -/

/-- The plaintext of a footer: the whole blocks of the reversed input, decrypted. -/
def footerPlain (c : Config) (x : List Byte) (key iv : Bytes16) : List Byte :=
  (cbcDecrypt c key iv (wholeBlocks x.reverse)).flatMap toBytes

theorem undo_eq (c : Config) (x : List Byte) (key iv : Bytes16) :
    undo c x key iv = recordsBeforeSentinel (footerPlain c x key iv) :=
  undoBlocks_eq c key iv _ List.not_mem_nil rfl

/-- A footer that decodes takes at least one block. -/
theorem one_le_of_undo_eq_some {c : Config} {x recs : List Byte} {key iv : Bytes16} {nb : Nat}
    (h : undo c x key iv = some (recs, nb)) : 1 ≤ nb := by
  rw [undo_eq, recordsBeforeSentinel] at h
  split at h
  · cases h
    exact Nat.le_add_left 1 _
  · cases h

/-- The plaintext bytes of block `j` of the ciphertext `bs`. -/
def plainBlock (c : Config) (key iv : Bytes16) (bs : List Byte) (j : Nat) : List Byte :=
  toBytes (c.aesDec key (blockAt bs j) ^^^ if j = 0 then iv else blockAt bs (j - 1))

/-- Each block of a byte string decrypts with the block before it. -/
theorem cbcDecrypt_wholeBlocks (c : Config) (key iv : Bytes16) (bs : List Byte) :
    cbcDecrypt c key iv (wholeBlocks bs) = (List.range (bs.length / 16)).map fun j =>
      c.aesDec key (blockAt bs j) ^^^ if j = 0 then iv else blockAt bs (j - 1) := by
  refine List.ext_getElem (by simp) fun j hj _ => ?_
  have hn : j < bs.length / 16 := by simpa using hj
  have hblock (i : Nat) (hi : i < (wholeBlocks bs).length) :
      (wholeBlocks bs)[i] = blockAt bs i := by
    rw [← List.getD_eq_getElem _ 0 hi, getD_wholeBlocks (by simpa using hi)]
  simp only [cbcDecrypt, List.getElem_zipWith, List.getElem_map, List.getElem_range]
  cases j with
  | zero => rw [hblock]; rfl
  | succ j => rw [hblock, List.getElem_cons_succ, hblock, if_neg j.succ_ne_zero, Nat.add_sub_cancel]

/-- The plaintext is that of block 0, then that of block 1, and so on. -/
theorem footerPlain_eq_flatMap (c : Config) (x : List Byte) (key iv : Bytes16) :
    footerPlain c x key iv =
      (List.range (x.length / 16)).flatMap (plainBlock c key iv x.reverse) := by
  rw [footerPlain, cbcDecrypt_wholeBlocks, List.length_reverse, List.flatMap_map]
  rfl

/-- The blocks before block `j`, block `j`, and the blocks after it. -/
theorem flatMap_range_split {n j : Nat} (f : Nat → List Byte) (h : j < n) :
    ∃ rest, (List.range n).flatMap f = (List.range j).flatMap f ++ f j ++ rest := by
  obtain ⟨d, rfl⟩ := Nat.exists_eq_add_of_le (Nat.succ_le_of_lt h)
  refine ⟨(List.range d).flatMap fun i => f (j + 1 + i), ?_⟩
  rw [List.range_add, List.flatMap_append, List.flatMap_map, List.range_succ, List.flatMap_append,
    List.flatMap_singleton]

theorem undo_eq_none_iff {c : Config} {x : List Byte} {key iv : Bytes16} :
    undo c x key iv = none ↔
      ∀ j < x.length / 16, sentinel ∉ plainBlock c key iv x.reverse j := by
  rw [undo_eq, recordsBeforeSentinel, footerPlain_eq_flatMap]
  simp

/-- Decoding stops at the first block that holds the sentinel. -/
theorem undo_of_first_sentinel {c : Config} {x : List Byte} {key iv : Bytes16} {j : Nat}
    (hj : j < x.length / 16) (hs : sentinel ∈ plainBlock c key iv x.reverse j)
    (hfirst : ∀ i < j, sentinel ∉ plainBlock c key iv x.reverse i) :
    undo c x key iv =
      some (((List.range (j + 1)).flatMap (plainBlock c key iv x.reverse)).takeWhile
        (· != sentinel), j + 1) := by
  obtain ⟨rest, hrest⟩ := flatMap_range_split (plainBlock c key iv x.reverse) hj
  have hbefore : sentinel ∉ (List.range j).flatMap (plainBlock c key iv x.reverse) := by
    simpa using hfirst
  have hlen : ((List.range j).flatMap (plainBlock c key iv x.reverse)).length = 16 * j := by
    simp [List.length_flatMap, plainBlock, Nat.mul_comm]
  rw [undo_eq, footerPlain_eq_flatMap, hrest,
    recordsBeforeSentinel_of_block rest hbefore hlen hs (length_toBytes _), List.range_succ,
    List.flatMap_append, List.flatMap_singleton]

theorem takeBlocks_append {n : Nat} {bs : List Byte} (rest : List Byte) (h : 16 * n ≤ bs.length) :
    takeBlocks n (bs ++ rest) = takeBlocks n bs := by
  induction n generalizing bs with
  | zero => rfl
  | succ n ih =>
    rw [takeBlocks, takeBlocks, List.take_append_of_le_length (by omega),
      List.drop_append_of_le_length (by omega), ih (by rw [List.length_drop]; omega)]

/-- Fewer than 16 bytes after whole blocks are no block. -/
theorem wholeBlocks_append {bs rest : List Byte} (h : 16 ∣ bs.length) (hrest : rest.length < 16) :
    wholeBlocks (bs ++ rest) = wholeBlocks bs := by
  have hn : (bs ++ rest).length / 16 = bs.length / 16 := by
    rw [List.length_append]
    omega
  rw [wholeBlocks, wholeBlocks, hn, takeBlocks_append rest (Nat.mul_div_le _ _)]

/-- Settles O34: decoding is a search for the first sentinel in the plaintext, which is the decrypted
blocks one after the other; bytes before whole blocks end up after them in the reversed input. -/
theorem undoOnEveryInput : Obligations.UndoOnEveryInput := by
  refine ⟨fun c x key iv => ⟨undo_eq_none_iff, fun j => undo_of_first_sentinel⟩,
    fun c junk x key iv hjunk hx => ?_⟩
  rw [undo, undo, List.reverse_append,
    wholeBlocks_append (by rwa [List.length_reverse]) (by rwa [List.length_reverse])]

/-! ## The footer decoded (R148) -/

/-- The plaintext of the footer of some records is their padded record. -/
theorem footerPlain_footer (c : Implementation) (records : List Byte) (key iv : Bytes16) :
    footerPlain c.toConfig (footer c.toConfig records key iv) key iv = padRecords records := by
  have hblocks : (padRecords records).length / 16 = footerBlocks records.length := by
    rw [length_padRecords, Nat.mul_div_cancel_left _ (by norm_num)]
  rw [footerPlain, reverse_footer, wholeBlocks_flatMap_toBytes, cbcDecrypt_cbcEncrypt, wholeBlocks,
    hblocks, flatMap_toBytes_takeBlocks _ (length_padRecords records)]

/-- Decoding a footer answers the records before the first 255 among them, and the blocks that they
and a sentinel take. -/
theorem undo_footer (c : Implementation) (records : List Byte) (key iv : Bytes16) :
    undo c.toConfig (footer c.toConfig records key iv) key iv =
      some (records.takeWhile (· != sentinel),
        footerBlocks (records.takeWhile (· != sentinel)).length) := by
  rw [undo_eq, footerPlain_footer, recordsBeforeSentinel, if_pos (sentinel_mem_padRecords records),
    takeWhile_padRecords, footerBlocks_eq]

/-- Settles O33: records without a 255 are all before the first one. -/
theorem footerRoundTrip : Obligations.FooterRoundTrip := by
  refine fun c records key iv => ⟨fun h => ?_, _, undo_footer c records key iv⟩
  have hall : records.takeWhile (· != sentinel) = records := by
    simpa using takeWhile_append_of_sentinel_not_mem [] h
  rw [undo_footer, hall]

end Sys2Proof.Machine

/-! PROOFS. The metadata codec's commands: what they leave in the buffers and the counts (R144 to
R147), and the footer through the registers (R148). -/

namespace Sys2Proof.Machine

/-! ## Counts and buffers -/

/-- The byte string that the cells from offset `a` up hold is the one read there. -/
theorem readBytes_eq {m : Memory} {a : Nat} {bs : List Byte}
    (h : ∀ i < bs.length, m.read (a + i) = bs.getD i 0) : m.readBytes a bs.length = bs := by
  refine List.ext_getElem (length_readBytes _ _ _) fun i _ hi => ?_
  rw [← List.getD_eq_getElem bs 0 hi, ← h i hi]
  simp [Memory.readBytes]

@[simp] theorem length_records (s : State) : s.records.length = s.mdcount.toNat :=
  length_readBytes _ _ _

/-- The footer of the length records has at most 16 blocks, so it fits MBUF, MDLEN and MDBLOCKS. -/
theorem footerBlocks_mdcount_le (s : State) : footerBlocks s.mdcount.toNat ≤ 16 :=
  footerBlocks_le (Nat.le_of_lt_succ s.mdcount.isLt)

/-! ## MD_CLEAR and MD_PUSH (R144, R145) -/

/-- LBUF and MBUF lie side by side, and MD_CLEAR fills them with zeros one after the other. -/
theorem read_clearBuffers {s : State} (hwf : s.mem.wf = true) (a : Nat) :
    ((s.setLbuf []).setMbuf []).mem.read a =
      if lbufBase ≤ a ∧ a < mbufBase + bufBytes then 0 else s.mem.read a := by
  rw [setMbuf_mem, setLbuf_mem,
    read_fillBuffer mbufBase a (Memory.wf_writeBytes _ _ hwf) (Nat.zero_le _),
    read_fillBuffer lbufBase a hwf (Nat.zero_le _)]
  simp only [List.getD_nil, lbufBase, mbufBase, bufBytes]
  grind

/-- MD_CLEAR. The memory it leaves is said by its bytes alone: as a term it would evaluate to the
writes of all 512 zeros. -/
theorem exec_mdClear {s : State} (hwf : s.mem.wf = true) :
    ∃ m : Memory,
      (∀ a, m.read a = if lbufBase ≤ a ∧ a < mbufBase + bufBytes then 0 else s.mem.read a) ∧
      exec .mdClear s = .next { s with
        mem := m, mdcount := 0, mdlen := 0, mdblocks := 0
        errcode := .ok, done := true, busy := false, pend := none, cyclesLeft := 0 } := by
  refine ⟨_, read_clearBuffers hwf, ?_⟩
  rw [exec_eq_finish, effectOf, mdClear, finish_ok, complete_ok, State.setMbuf, State.setLbuf,
    State.setMbuf, State.setLbuf]

/-- Settles O27: MD_CLEAR has no check. -/
theorem mdClearZeroesTheBuffers : Obligations.MdClearZeroesTheBuffers := by
  refine ⟨rfl, fun s hwf => ?_⟩
  obtain ⟨m, hread, hexec⟩ := exec_mdClear hwf
  exact ⟨_, hexec, hread, rfl⟩

/-- Settles O28: the check of MD_PUSH passes, and MDCOUNT does not wrap around. -/
theorem mdPushAppendsOneRecord : Obligations.MdPushAppendsOneRecord := by
  intro s len hwf hlen hroom
  refine ⟨_, exec_of_ok (i := .mdPush len) (mdPush_ok.2 ⟨recordsFull_eq_false_iff.2 hroom, rfl⟩),
    toNat_mdcount_pushRecordIf (record := true) (fun _ => hroom) (BitVec.ofNat 8 len), ?_,
    fun a ha => ?_, rfl⟩
  · rw [pushRecord_mem, Memory.read_write_same _ _ hwf, BitVec.toNat_ofNat,
      Nat.mod_eq_of_lt (Nat.lt_succ_of_le hlen)]
  · exact Memory.read_write_other _ hwf ha

/-! ## MD_ENCRYPT (R146) -/

/-- MD_ENCRYPT with RK and IV valid. -/
theorem exec_mdEncrypt {s : State} (hrk : s.rkValid = true) (hiv : s.ivValid = true) :
    exec .mdEncrypt s = .next { s with
      mem := (s.setMbuf (footer Config.actual s.records s.rk s.iv)).mem
      mdlen := BitVec.ofNat 9 (16 * footerBlocks s.mdcount.toNat)
      mdblocks := BitVec.ofNat 5 (footerBlocks s.mdcount.toNat)
      errcode := .ok, done := true, busy := false, pend := none, cyclesLeft := 0 } := by
  rw [exec_of_ok (i := .mdEncrypt) (mdEncrypt_ok.2 ⟨hrk, hiv, rfl⟩), length_records]
  rfl

theorem toNat_ofNat_mdlen (s : State) :
    (BitVec.ofNat 9 (16 * footerBlocks s.mdcount.toNat)).toNat =
      16 * footerBlocks s.mdcount.toNat := by
  have hle := footerBlocks_mdcount_le s
  exact Nat.mod_eq_of_lt (by omega)

theorem length_footer_records (s : State) :
    (footer Config.actual s.records s.rk s.iv).length = 16 * footerBlocks s.mdcount.toNat := by
  rw [length_footer, length_records]

/-- MBUF after MD_ENCRYPT: the footer, and zeros after it. -/
theorem read_setMbuf_footer {s : State} (hwf : s.mem.wf = true) (a : Nat) :
    (s.setMbuf (footer Config.actual s.records s.rk s.iv)).mem.read a =
      if mbufBase ≤ a ∧ a < mbufBase + bufBytes then
        (footer Config.actual s.records s.rk s.iv).getD (a - mbufBase) 0
      else s.mem.read a := by
  have hle := footerBlocks_mdcount_le s
  exact read_fillBuffer mbufBase a hwf (by rw [length_footer_records, bufBytes]; omega)

/-- Settles O29: the sizes fit their registers, and the footer fits MBUF. -/
theorem mdEncryptWritesTheFooter : Obligations.MdEncryptWritesTheFooter := by
  intro s hwf hrk hiv
  refine ⟨_, exec_mdEncrypt hrk hiv, ?_, rfl⟩
  simp only [← footerBlocks_eq]
  have hle := footerBlocks_mdcount_le s
  exact ⟨length_footer_records s, toNat_ofNat_mdlen s, Nat.mod_eq_of_lt (by omega),
    read_setMbuf_footer hwf⟩

/-! ## MD_DECRYPT (R147) -/

/-- Settles O30: what MBUF decodes to fits MDCOUNT and MDBLOCKS, and LBUF. -/
theorem mdDecryptWritesTheRecords : Obligations.MdDecryptWritesTheRecords := by
  intro s recs nb hwf hrk hiv hlen hundo
  obtain ⟨hrecs, hnb⟩ := undo_footerInput_sizes hlen hundo
  refine ⟨_, exec_of_ok (i := .mdDecrypt) (mdDecrypt_ok.2 ⟨hrk, hiv, hlen, recs, nb, hundo, rfl⟩),
    hrecs, one_le_of_undo_eq_some hundo, hnb, Nat.mod_eq_of_lt (by omega),
    Nat.mod_eq_of_lt (by omega), fun a => ?_, rfl⟩
  exact read_fillBuffer lbufBase a hwf (by rw [bufBytes]; omega)

/-! ## MD_ENCRYPT and MD_DECRYPT under one RootKey and IV (R148) -/

/-- What MD_ENCRYPT leaves for MD_DECRYPT: MBUF up to MDLEN is the footer. -/
theorem footerInput_after_mdEncrypt {s t : State} (hwf : s.mem.wf = true)
    (hmem : t.mem = (s.setMbuf (footer Config.actual s.records s.rk s.iv)).mem)
    (hlen : t.mdlen.toNat = 16 * footerBlocks s.mdcount.toNat) :
    t.footerInput = footer Config.actual s.records s.rk s.iv := by
  have hle := footerBlocks_mdcount_le s
  rw [State.footerInput, hmem, hlen, ← length_footer_records]
  refine readBytes_eq fun i hi => ?_
  rw [length_footer_records] at hi
  rw [read_setMbuf_footer hwf, if_pos (by rw [bufBytes]; omega), Nat.add_sub_cancel_left]

/-- Settles O35: MD_DECRYPT finds the footer of the records in MBUF and decodes it. -/
theorem mdEncryptThenMdDecrypt : Obligations.MdEncryptThenMdDecrypt := by
  intro s hinv hrk hiv
  obtain ⟨t, ht, hmem, hlen, hkeys⟩ : ∃ t, exec .mdEncrypt s = .next t ∧
      t.mem = (s.setMbuf (footer Config.actual s.records s.rk s.iv)).mem ∧
      t.mdlen.toNat = 16 * footerBlocks s.mdcount.toNat ∧
      t.rkValid = true ∧ t.ivValid = true ∧ t.rk = s.rk ∧ t.iv = s.iv :=
    ⟨_, exec_mdEncrypt hrk hiv, rfl, toNat_ofNat_mdlen s, hrk, hiv, rfl, rfl⟩
  obtain ⟨hrk', hiv', hrkEq, hivEq⟩ := hkeys
  have hwf : t.mem.wf = true := hmem ▸ Memory.wf_writeBytes _ _ hinv.memCanonical
  have hle := footerBlocks_mdcount_le s
  have hundo : undo Config.actual t.footerInput t.rk t.iv = 
      some (s.records.takeWhile (· != sentinel),
        footerBlocks (s.records.takeWhile (· != sentinel)).length) := by
    rw [footerInput_after_mdEncrypt hinv.memCanonical hmem hlen, hrkEq, hivEq]
    exact undo_footer Config.implementation s.records s.rk s.iv
  obtain ⟨u, hu, hrecs, -, -, hcount, -, hread, hframe⟩ :=
    mdDecryptWritesTheRecords t _ _ hwf hrk' hiv' (by omega) hundo
  refine ⟨t, u, ht, hu, by rw [hframe], ?_⟩
  rw [State.records, hcount]
  refine readBytes_eq fun i hi => ?_
  rw [hread, if_pos (by rw [bufBytes]; omega), Nat.add_sub_cancel_left]

end Sys2Proof.Machine

/-! PROOFS. Splitting a plaintext into blocks (R172); packing their outputs into a body and reading
it back (R173, R178); and the ciphertext between its bounds (R174, R182 to R185). -/

namespace Sys2Proof.Machine

/-! ## The shape of the blocks (R172) -/

/-- The length of the first block of a plaintext that is not empty (R172). -/
def firstBlockLen (x : List Byte) : Nat := if x.length % 4 ≠ 0 then x.length % 4 else 4

theorem splitBlocks_of_ne_nil {x : List Byte} (hx : x ≠ []) :
    splitBlocks x = x.take (firstBlockLen x) ::
      fourByteBlocks ((x.length - firstBlockLen x) / 4) (x.drop (firstBlockLen x)) := if_neg hx

/-- The first block is neither empty nor too long, and whole blocks of 4 bytes are left after it. -/
theorem firstBlockLen_spec {x : List Byte} (hx : x ≠ []) :
    1 ≤ firstBlockLen x ∧ firstBlockLen x ≤ 4 ∧ firstBlockLen x ≤ x.length ∧
      x.length - firstBlockLen x = 4 * ((x.length - firstBlockLen x) / 4) := by
  have hlen : x.length ≠ 0 := mt List.length_eq_zero_iff.1 hx
  unfold firstBlockLen
  split <;> omega

theorem length_firstBlock {x : List Byte} (hx : x ≠ []) :
    (x.take (firstBlockLen x)).length = firstBlockLen x := by
  obtain ⟨-, -, hle, -⟩ := firstBlockLen_spec hx
  exact List.length_take_of_le hle

@[simp] theorem length_fourByteBlocks (n : Nat) (x : List Byte) :
    (fourByteBlocks n x).length = n := by
  induction n generalizing x with
  | zero => rfl
  | succ n ih => rw [fourByteBlocks, List.length_cons, ih]

theorem length_of_mem_fourByteBlocks {n : Nat} {x b : List Byte} (h : x.length = 4 * n)
    (hb : b ∈ fourByteBlocks n x) : b.length = 4 := by
  induction n generalizing x with
  | zero => cases hb
  | succ n ih =>
    rcases List.mem_cons.1 hb with rfl | hb
    · exact List.length_take_of_le (by omega)
    · exact ih (by rw [List.length_drop]; omega) hb

theorem length_of_mem_tail_splitBlocks {x b : List Byte} (hb : b ∈ (splitBlocks x).tail) :
    b.length = 4 := by
  by_cases hx : x = []
  · subst hx
    cases hb
  · obtain ⟨-, -, -, hrest⟩ := firstBlockLen_spec hx
    rw [splitBlocks_of_ne_nil hx, List.tail_cons] at hb
    exact length_of_mem_fourByteBlocks (by rw [List.length_drop]; exact hrest) hb

theorem length_of_mem_splitBlocks {x b : List Byte} (hb : b ∈ splitBlocks x) :
    1 ≤ b.length ∧ b.length ≤ 4 := by
  by_cases hx : x = []
  · subst hx
    cases hb
  · obtain ⟨hpos, hle, -, -⟩ := firstBlockLen_spec hx
    have htail := length_of_mem_tail_splitBlocks (x := x) (b := b)
    rw [splitBlocks_of_ne_nil hx, List.tail_cons] at htail
    rw [splitBlocks_of_ne_nil hx] at hb
    rcases List.mem_cons.1 hb with rfl | hb
    · rw [length_firstBlock hx]
      exact ⟨hpos, hle⟩
    · have := htail hb
      omega

theorem length_splitBlocks (x : List Byte) : (splitBlocks x).length = (x.length + 3) / 4 := by
  by_cases hx : x = []
  · subst hx
    rfl
  · obtain ⟨hpos, hle, hlen, hrest⟩ := firstBlockLen_spec hx
    rw [splitBlocks_of_ne_nil hx, List.length_cons, length_fourByteBlocks]
    omega

/-- Settles O54: the first block by its length, the blocks after it by recursion on their number. -/
theorem splitBlocksShape : Obligations.SplitBlocksShape := by
  refine ⟨fun x => ⟨flatten_splitBlocks x, fun b => length_of_mem_splitBlocks,
    fun b => length_of_mem_tail_splitBlocks, length_splitBlocks x, fun hx => ?_⟩, rfl, rfl, rfl⟩
  exact ⟨_, by rw [splitBlocks_of_ne_nil hx, List.head?_cons], length_firstBlock hx⟩

/-! ## Bit strings (R13) -/

/-- The leading digits of a bit string are those of the quotient. -/
theorem bitstr_add (v q l : Nat) : bitstr v (q + l) = bitstr (v / 2 ^ l) q ++ bitstr v l := by
  induction q with
  | zero => rw [Nat.zero_add]; rfl
  | succ q ih =>
    rw [Nat.add_right_comm, bitstr_succ, bitstr_succ, ih, Nat.testBit_div_two_pow,
      List.append_assoc]

/-- A bit string is the digits of its value. -/
theorem bitstr_bitsValue (s : List Bool) : bitstr (bitsValue s) s.length = s := by
  induction s using List.reverseRecOn with
  | nil => rfl
  | append_singleton s b ih =>
    have hdiv : (2 * bitsValue s + b.toNat) / 2 ^ 1 = bitsValue s := by
      have := b.toNat_lt
      omega
    have hlast : bitstr (2 * bitsValue s + b.toNat) 1 = [b] := by
      cases b <;> simp [bitstr]
    rw [List.length_append, List.length_singleton, bitstr_add, bitsValue_concat, hdiv, ih, hlast]

theorem mem_bitstr {b : Bool} {v l : Nat} : b ∈ bitstr v l ↔ ∃ i < l, v.testBit i = b := by
  simp only [bitstr, List.mem_map, List.mem_range]
  exact ⟨fun ⟨i, hi, hb⟩ => ⟨l - 1 - i, by omega, hb⟩,
    fun ⟨i, hi, hb⟩ => ⟨l - 1 - i, by omega, by rwa [show l - 1 - (l - 1 - i) = i by omega]⟩⟩

theorem getElem?_bitstr {v l i : Nat} (h : i < l) :
    (bitstr v l)[l - 1 - i]? = some (v.testBit i) := by
  rw [bitstr, List.getElem?_map, List.getElem?_range (by omega), Option.map_some,
    show l - 1 - (l - 1 - i) = i by omega]

/-! ## Reading a body back (R178) -/

/-- The number of bits that the records `lens` count. -/
def recordBits (lens : List Byte) : Nat := (lens.map BitVec.toNat).sum

/-- The stream of a body of the right length is its low digits, where all digits above are 0. -/
theorem bodyStream_eq (body lens : List Byte) :
    bodyStream body lens =
      if body.length = (recordBits lens + 7) / 8 ∧
          true ∉ bitstr (be body / 2 ^ recordBits lens) (8 * body.length - recordBits lens) then
        some (bitstr (be body) (recordBits lens))
      else none := by
  have hbits : (lens.map BitVec.toNat).sum = recordBits lens := rfl
  simp only [bodyStream, hbits]
  by_cases hlen : body.length = (recordBits lens + 7) / 8
  · have hsplit : bitstr (be body) (8 * body.length) =
        bitstr (be body / 2 ^ recordBits lens) (8 * body.length - recordBits lens) ++
          bitstr (be body) (recordBits lens) := by
      rw [← bitstr_add, Nat.sub_add_cancel (by omega)]
    rw [if_neg (not_not.2 hlen), hsplit, List.take_left' (length_bitstr _ _),
      List.drop_left' (length_bitstr _ _)]
    simp [hlen]
  · simp [hlen]

/-- What `pack` packs reads back, given its length (R173, R178). -/
theorem bodyStream_pack {s : List Bool} {lens : List Byte} (h : recordBits lens = s.length) :
    bodyStream (pack s) lens = some s := by
  have hpad : true ∉ bitstr (bitsValue s / 2 ^ s.length) (8 * (pack s).length - s.length) := by
    rw [Nat.div_eq_of_lt (bitsValue_lt s)]
    simp [mem_bitstr]
  rw [bodyStream_eq, be_pack, h, if_pos ⟨length_pack s, hpad⟩, bitstr_bitsValue]

/-- Reading back fails exactly on a wrong length and on a pad bit that is 1 (R178). -/
theorem bodyStream_eq_none_iff {body lens : List Byte} :
    bodyStream body lens = none ↔ body.length ≠ (recordBits lens + 7) / 8 ∨
      ∃ i, recordBits lens ≤ i ∧ i < 8 * body.length ∧ (be body).testBit i = true := by
  have hpad : true ∈ bitstr (be body / 2 ^ recordBits lens) (8 * body.length - recordBits lens) ↔
      ∃ i, recordBits lens ≤ i ∧ i < 8 * body.length ∧ (be body).testBit i = true := by
    simp only [mem_bitstr, Nat.testBit_div_two_pow]
    exact ⟨fun ⟨i, hi, hb⟩ => ⟨i + recordBits lens, by omega, by omega, hb⟩,
      fun ⟨i, hle, hi, hb⟩ => ⟨i - recordBits lens, by omega, by rwa [Nat.sub_add_cancel hle]⟩⟩
  rw [bodyStream_eq, ite_eq_right_iff, ← hpad]
  simp only [reduceCtorEq, imp_false, not_and_or, not_not, ne_eq]

theorem bodyStream_eq_some {body lens : List Byte} {s : List Bool}
    (h : bodyStream body lens = some s) : s = bitstr (be body) (recordBits lens) := by
  rw [bodyStream_eq] at h
  split at h
  · exact (Option.some.inj h).symm
  · cases h

/-! ## The outputs of the blocks and the body (R173, R174) -/

/-- The outputs of a list of blocks: block i under RESHUFFLE applied i times (R174). -/
def blockOutputs (c : Config) (wk : Bytes16) (bs : List (List Byte)) : List Nat :=
  bs.mapIdx fun i b => encryptValue (Nat.repeat c.reshuffle i wk) (be b)

theorem repeat_succ_apply {α : Type} (f : α → α) (n : Nat) (a : α) :
    Nat.repeat f (n + 1) a = Nat.repeat f n (f a) := by
  induction n with
  | zero => rfl
  | succ n ih => exact congrArg f ih

@[simp] theorem blockOutputs_nil (c : Config) (wk : Bytes16) : blockOutputs c wk [] = [] := rfl

theorem blockOutputs_cons (c : Config) (wk : Bytes16) (b : List Byte) (bs : List (List Byte)) :
    blockOutputs c wk (b :: bs) = encryptValue wk (be b) :: blockOutputs c (c.reshuffle wk) bs := by
  simp only [blockOutputs, List.mapIdx_cons, repeat_succ_apply]
  rfl

/-- The block loop gives the outputs digit by digit, and their lengths. -/
theorem encryptBlocks_eq (c : Config) (wk : Bytes16) (bs : List (List Byte)) :
    encryptBlocks c wk bs = ((blockOutputs c wk bs).flatMap fun v => bitstr v (bitlen v),
      (blockOutputs c wk bs).map bitlen) := by
  induction bs generalizing wk with
  | nil => rfl
  | cons b bs ih => rw [encryptBlocks, ih, blockOutputs_cons, List.flatMap_cons, List.map_cons]

/-- The digits of several numbers one after the other, as one number. -/
theorem bitsValue_append_flatMap (s : List Bool) (vs : List Nat) :
    bitsValue (s ++ vs.flatMap fun v => bitstr v (bitlen v)) =
      vs.foldl (fun n v => n * 2 ^ bitlen v + v) (bitsValue s) := by
  induction vs generalizing s with
  | nil => rw [List.flatMap_nil, List.append_nil]; rfl
  | cons v vs ih =>
    rw [List.flatMap_cons, ← List.append_assoc, ih, List.foldl_cons, bitsValue_append,
      bitsValue_bitstr, length_bitstr, Nat.mod_eq_of_lt (lt_two_pow_bitlen v)]

theorem encryptBody_fst (c : Config) (rk : Bytes16) (x : List Byte) :
    (encryptBody c rk x).1 = pack (encryptBlocks c rk (splitBlocks x)).1 := rfl

theorem encryptBody_snd (c : Config) (rk : Bytes16) (x : List Byte) :
    (encryptBody c rk x).2 = (blockOutputs c rk (splitBlocks x)).map fun v =>
      BitVec.ofNat 8 (bitlen v) := by
  show (encryptBlocks c rk (splitBlocks x)).2.map (BitVec.ofNat 8) = _
  rw [encryptBlocks_eq, List.map_map]
  rfl

theorem length_encryptBody_snd (c : Config) (rk : Bytes16) (x : List Byte) :
    (encryptBody c rk x).2.length = (x.length + 3) / 4 := by
  rw [encryptBody_snd, List.length_map, blockOutputs, List.length_mapIdx, length_splitBlocks]

/-! ## encrypt and encrypt_bound (R174, R182 to R185) -/

/-- At most 255 blocks are at most 1020 bytes. -/
theorem encrypt_eq (c : Config) (rk iv : Bytes16) (x : List Byte) :
    encrypt c rk x iv = if x.length ≤ 1020 then
        .ok ((encryptBody c rk x).1 ++ footer c (encryptBody c rk x).2 rk iv ++ toBytes iv)
      else .error .capacityExceeded := by
  have hblocks : 255 < (encryptBody c rk x).2.length ↔ ¬ x.length ≤ 1020 := by
    rw [length_encryptBody_snd]
    omega
  simp only [encrypt, hblocks, ite_not]

theorem encrypt_eq_ok {c : Config} {rk iv : Bytes16} {x ct : List Byte}
    (h : encrypt c rk x iv = .ok ct) : x.length ≤ 1020 ∧
      ct = (encryptBody c rk x).1 ++ footer c (encryptBody c rk x).2 rk iv ++ toBytes iv := by
  rw [encrypt_eq] at h
  split at h
  · next hx => exact ⟨hx, (Except.ok.inj h).symm⟩
  · cases h

/-- The region that a bound replaces is what follows the body (R183, R184). -/
theorem boundsOf_append (wantLower wantUpper : Bool) (body tail : List Byte) :
    boundsOf wantLower wantUpper body (body ++ tail) =
      (if wantLower then body ++ List.replicate tail.length 0x00 else body ++ tail,
        if wantUpper then body ++ List.replicate tail.length 0xFF else body ++ tail) := by
  simp only [boundsOf, List.length_append, Nat.add_sub_cancel_left]

/-- The bounds of a ciphertext rest on its body and on the length of what follows it. -/
theorem encryptBound_eq {c : Config} {rk : Bytes16} {x : List Byte} (hx : x.length ≤ 1020)
    (wantLower wantUpper : Bool) (iv : Bytes16) :
    encryptBound c rk x wantLower wantUpper iv = .ok (boundsOf wantLower wantUpper
      (encryptBody c rk x).1
      ((encryptBody c rk x).1 ++ (footer c (encryptBody c rk x).2 rk iv ++ toBytes iv))) := by
  rw [encryptBound, encrypt_eq, if_pos hx, List.append_assoc]
  rfl

/-- Of two byte strings of one length the one of the smaller value comes first (R18). -/
theorem bytesLe_iff_be_le {a b : List Byte} (h : a.length = b.length) :
    bytesLe a b = true ↔ be a ≤ be b := by
  rw [bytesLe, Bool.not_eq_true', ← Bool.not_eq_true, bytesLt_iff_be_lt h.symm, Nat.not_lt]

/-- A common first part does not change the order. -/
theorem bytesLe_append_left (body : List Byte) {a b : List Byte} (h : a.length = b.length)
    (hle : be a ≤ be b) : bytesLe (body ++ a) (body ++ b) = true := by
  rw [bytesLe_iff_be_le (by rw [List.length_append, List.length_append, h]), be_append, be_append,
    h]
  exact Nat.add_le_add_left hle _

theorem be_replicate_zero (n : Nat) : be (List.replicate n 0x00) = 0 := by
  induction n with
  | zero => rfl
  | succ n ih =>
    rw [List.replicate_succ, be_cons, ih]
    exact Nat.zero_mul _

theorem be_replicate_max (n : Nat) : be (List.replicate n 0xFF) + 1 = 256 ^ n := by
  induction n with
  | zero => rfl
  | succ n ih =>
    have h255 : (0xFF : Byte).toNat = 255 := rfl
    rw [List.replicate_succ, be_cons, List.length_replicate, Nat.add_assoc, ih, h255]
    ring

/-- Settles O58: the body by its digits, the reading back by the digits above the records' bits, and
the bounds by the value of what follows the body. -/
theorem bodyPackingAndBounds : Obligations.BodyPackingAndBounds := by
  refine ⟨fun c rk x => ⟨?_, ?_, encryptBody_snd c rk x⟩, fun body lens => ⟨bodyStream_eq_none_iff,
    fun stream h => ?_⟩, fun c rk iv x => ⟨fun hx => ?_, fun hx => ?_⟩,
    fun c rk iv iv' x => ⟨fun ct h => ?_, fun e wantLower wantUpper h => ?_⟩⟩
  · rw [encryptBody_fst, length_pack, length_encryptBlocks, encryptBlocks_eq]
    rfl
  · rw [encryptBody_fst, be_pack, encryptBlocks_eq]
    exact bitsValue_append_flatMap [] _
  · obtain rfl := bodyStream_eq_some h
    exact ⟨length_bitstr _ _, fun i hi => getElem?_bitstr hi⟩
  · exact ⟨_, by rw [encrypt_eq, if_pos hx]⟩
  · rw [encrypt_eq, if_neg (by omega)]
  · obtain ⟨hx, rfl⟩ := encrypt_eq_ok h
    rw [List.append_assoc]
    have htail (iv : Bytes16) : (footer c (encryptBody c rk x).2 rk iv ++ toBytes iv).length =
        16 * footerBlocks (encryptBody c rk x).2.length + 16 := by
      rw [List.length_append, length_footer, length_toBytes]
    have hbound (wantLower wantUpper : Bool) (iv : Bytes16) :=
      encryptBound_eq (c := c) (rk := rk) hx wantLower wantUpper iv
    simp only [boundsOf_append, htail] at hbound
    simp only [length_footer]
    refine ⟨(List.append_assoc _ _ _).symm, hbound true true iv, hbound true false iv,
      hbound false true iv, hbound false false iv, hbound true true iv', ?_, ?_, ?_, ?_⟩
    · simp
    · simp
    · refine bytesLe_append_left _ (by simp) ?_
      rw [be_replicate_zero]
      exact Nat.zero_le _
    · refine bytesLe_append_left _ (by simp) (Nat.le_of_lt_succ ?_)
      rw [Nat.succ_eq_add_one, be_replicate_max, ← htail iv]
      exact be_lt _
  · rw [encryptBound, h]
    rfl

end Sys2Proof.Machine

/-! PROOFS. The ciphertext of a single block, and the counterexample to order (R176); the block
loops of encrypt and decrypt, the footer search, and what decrypting a ciphertext gives (R177 to
R181). -/

namespace Sys2Proof.Machine

/-! ## The minimal form of a number (R13) -/

theorem length_minbytes (v : Nat) : (minbytes v).length = minbytesLen v := length_beBytes _ _

theorem minbytesLen_eq {v n : Nat} (hlo : 256 ^ n ≤ v) (hhi : v < 256 ^ (n + 1)) :
    minbytesLen v = n + 1 := by
  have hle := (minbytesLen_le_iff v (n + 1)).2 hhi
  have hlt := mt (minbytesLen_le_iff v n).1 (Nat.not_lt.2 hlo)
  omega

/-- The minimal form of a byte string's value is no longer than the string. -/
theorem length_minbytes_be_le (b : List Byte) : (minbytes (be b)).length ≤ b.length := by
  rw [length_minbytes, minbytesLen_le_iff]
  exact be_lt b

theorem length_minbytes_be_eq_iff (b : List Byte) :
    (minbytes (be b)).length = b.length ↔ b.head? ≠ some 0 := by
  cases b with
  | nil => exact iff_of_true rfl nofun
  | cons a bs =>
    have hlt := be_lt bs
    rw [length_minbytes, List.head?_cons, List.length_cons]
    constructor
    · rintro hlen h0
      obtain rfl := Option.some.inj h0
      have hle : minbytesLen (be (0 :: bs)) ≤ bs.length := by
        rw [minbytesLen_le_iff, be_cons]
        simpa using hlt
      omega
    · intro h0
      have ha : 1 ≤ a.toNat :=
        Nat.one_le_iff_ne_zero.2 fun hz => h0 (congrArg some (BitVec.eq_of_toNat_eq hz))
      refine minbytesLen_eq ?_ (be_lt (a :: bs))
      rw [be_cons]
      exact (Nat.le_mul_of_pos_left _ ha).trans (Nat.le_add_right _ _)

/-- A byte string is the minimal form of its value exactly when it does not begin with 0. -/
theorem minbytes_be_eq_iff (b : List Byte) : minbytes (be b) = b ↔ b.head? ≠ some 0 := by
  rw [← length_minbytes_be_eq_iff]
  refine ⟨congrArg List.length, fun h => ?_⟩
  rw [minbytes, ← length_minbytes, h, beBytes_be]

theorem length_flatMap_minbytes_le (bs : List (List Byte)) :
    (bs.flatMap fun b => minbytes (be b)).length ≤ bs.flatten.length := by
  induction bs with
  | nil => exact le_rfl
  | cons b bs ih =>
    rw [List.flatMap_cons, List.flatten_cons, List.length_append, List.length_append]
    exact Nat.add_le_add (length_minbytes_be_le b) ih

/-- The minimal forms make up the blocks' bytes only where each is its block: none is longer. -/
theorem flatMap_minbytes_eq_flatten_iff (bs : List (List Byte)) :
    (bs.flatMap fun b => minbytes (be b)) = bs.flatten ↔ ∀ b ∈ bs, b.head? ≠ some 0 := by
  induction bs with
  | nil => exact iff_of_true rfl nofun
  | cons b bs ih =>
    rw [List.flatMap_cons, List.flatten_cons, List.forall_mem_cons, ← ih, ← minbytes_be_eq_iff]
    refine ⟨fun h => List.append_inj h ?_, fun ⟨hb, hbs⟩ => by rw [hb, hbs]⟩
    have hlen := congrArg List.length h
    have hhead := length_minbytes_be_le b
    have htail := length_flatMap_minbytes_le bs
    rw [List.length_append, List.length_append] at hlen
    omega

/-! ## A ciphertext of one block (R174, R176) -/

/-- The digits of a number, packed, are its minimal form. -/
theorem pack_bitstr_bitlen (v : Nat) : pack (bitstr v (bitlen v)) = minbytes v := by
  rw [pack, length_bitstr, bitsValue_bitstr, Nat.mod_eq_of_lt (lt_two_pow_bitlen v)]
  rfl

/-- The ciphertext of a block of 4 bytes begins with the minimal form of its output. -/
theorem encrypt_block (c : Config) (rk iv : Bytes16) (b0 b1 b2 b3 : Byte) :
    encrypt c rk [b0, b1, b2, b3] iv = .ok (minbytes (encryptValue rk (be [b0, b1, b2, b3])) ++
      footer c (encryptBody c rk [b0, b1, b2, b3]).2 rk iv ++ toBytes iv) := by
  have hbody : (encryptBody c rk [b0, b1, b2, b3]).1 =
      minbytes (encryptValue rk (be [b0, b1, b2, b3])) := by
    have hsplit : splitBlocks [b0, b1, b2, b3] = [[b0, b1, b2, b3]] := by
      simp [splitBlocks, fourByteBlocks]
    rw [encryptBody_fst, hsplit, encryptBlocks, encryptBlocks, List.append_nil, pack_bitstr_bitlen]
  rw [encrypt_eq, if_pos (by simp), hbody]

/-- Settles O57: the smaller block has an output of 8 bytes that begins with 0xFF, and the greater
one an output of 9 bytes that begins with 0x01. -/
theorem orderCounterexample : Obligations.OrderCounterexample := by
  intro c iv iv' rk x y
  have hx : minbytes (encryptValue rk (be x)) =
      [0xFF, 0xFF, 0xFF, 0xB2, 0x86, 0x8F, 0xCE, 0x0F] := by
    have hv : encryptValue rk (be x) = 0xFFFFFFB2868FCE0F := by decide
    rw [hv, minbytes, minbytesLen_eq (n := 7) (by norm_num) (by norm_num)]
    decide
  have hy : minbytes (encryptValue rk (be y)) =
      [0x01, 0x00, 0x00, 0x00, 0x32, 0x86, 0x8F, 0xCE, 0x0F] := by
    have hv : encryptValue rk (be y) = 0x0100000032868FCE0F := by decide
    rw [hv, minbytes, minbytesLen_eq (n := 8) (by norm_num) (by norm_num)]
    decide
  refine ⟨by decide, _, _, encrypt_block c rk iv _ _ _ _, encrypt_block c rk iv' _ _ _ _, ?_⟩
  rw [hx, hy]
  exact (bytesLt_cons _ _ _ _).2 (.inl (by decide))

/-! ## The block loops (R174, R179) -/

theorem be_lt_of_length_le {b : List Byte} (h : b.length ≤ 4) : be b < 2 ^ 32 :=
  (be_lt b).trans_le ((Nat.pow_le_pow_right (by norm_num) h).trans (by norm_num))

theorem bitlen_encryptValue_be_le (k : Bytes16) {b : List Byte} (h : b.length ≤ 4) :
    bitlen (encryptValue k (be b)) ≤ 127 :=
  (bitlen_le_iff _ _).2 (encryptValue_lt k (be_lt_of_length_le h))

/-- The records that `encrypt` writes for a list of blocks. -/
def blockRecords (c : Config) (wk : Bytes16) (bs : List (List Byte)) : List Byte :=
  (encryptBlocks c wk bs).2.map (BitVec.ofNat 8)

@[simp] theorem blockRecords_nil (c : Config) (wk : Bytes16) : blockRecords c wk [] = [] := rfl

theorem blockRecords_cons (c : Config) (wk : Bytes16) (b : List Byte) (bs : List (List Byte)) :
    blockRecords c wk (b :: bs) = BitVec.ofNat 8 (bitlen (encryptValue wk (be b))) ::
      blockRecords c (c.reshuffle wk) bs := rfl

/-- A record holds the bit length of its block's output. -/
theorem toNat_record (wk : Bytes16) {b : List Byte} (h : b.length ≤ 4) :
    (BitVec.ofNat 8 (bitlen (encryptValue wk (be b)))).toNat = bitlen (encryptValue wk (be b)) := by
  have hle := bitlen_encryptValue_be_le wk h
  rw [BitVec.toNat_ofNat, Nat.mod_eq_of_lt (by omega)]

section Blocks

variable {bs : List (List Byte)} (h : ∀ b ∈ bs, b.length ≤ 4)
include h

/-- No record is above 127. -/
theorem toNat_le_of_mem_blockRecords {c : Config} {wk : Bytes16} {l : Byte}
    (hl : l ∈ blockRecords c wk bs) : l.toNat ≤ 127 := by
  induction bs generalizing wk with
  | nil => cases hl
  | cons b bs ih =>
    obtain ⟨hb, hbs⟩ := List.forall_mem_cons.1 h
    rw [blockRecords_cons] at hl
    rcases List.mem_cons.1 hl with rfl | hl
    · rw [toNat_record wk hb]
      exact bitlen_encryptValue_be_le wk hb
    · exact ih hbs hl

theorem sentinel_not_mem_blockRecords (c : Config) (wk : Bytes16) :
    sentinel ∉ blockRecords c wk bs := fun hmem =>
  absurd (toNat_le_of_mem_blockRecords h hmem) (by decide)

/-- The records count the bits of the stream. -/
theorem recordBits_blockRecords (c : Config) (wk : Bytes16) :
    recordBits (blockRecords c wk bs) = (encryptBlocks c wk bs).1.length := by
  induction bs generalizing wk with
  | nil => rfl
  | cons b bs ih =>
    obtain ⟨hb, hbs⟩ := List.forall_mem_cons.1 h
    have hrest := ih hbs (c.reshuffle wk)
    rw [recordBits] at hrest
    rw [recordBits, blockRecords_cons, List.map_cons, List.sum_cons, hrest, toNat_record wk hb,
      encryptBlocks, List.length_append, length_bitstr]

/-- The block loop of decrypt undoes that of encrypt, up to leading zeros (R181). -/
theorem decryptBlocks_encryptBlocks (c : Config) (wk : Bytes16) :
    decryptBlocks c wk (encryptBlocks c wk bs).1 (blockRecords c wk bs) =
      some (bs.flatMap fun b => minbytes (be b)) := by
  induction bs generalizing wk with
  | nil => rfl
  | cons b bs ih =>
    obtain ⟨hb, hbs⟩ := List.forall_mem_cons.1 h
    have hle := bitlen_encryptValue_be_le wk hb
    rw [blockRecords_cons, decryptBlocks, toNat_record wk hb, if_neg (by omega), encryptBlocks,
      List.take_left' (length_bitstr _ _), List.drop_left' (length_bitstr _ _), bitsValue_bitstr,
      Nat.mod_eq_of_lt (lt_two_pow_bitlen _),
      decryptValue_encryptValue wk (be_lt_of_length_le hb), ih hbs]
    rfl

end Blocks

/-! ## The footer search (R177) -/

/-- Blocks after a first part that holds the sentinel do not count. -/
theorem recordsBeforeSentinel_append {as : List Byte} (bs : List Byte) (h : sentinel ∈ as) :
    recordsBeforeSentinel (as ++ bs) = recordsBeforeSentinel as := by
  rw [recordsBeforeSentinel, recordsBeforeSentinel, if_pos h, if_pos (List.mem_append_left bs h),
    takeWhile_append_of_sentinel_mem bs h]

theorem takeBlocks_add {n m : Nat} {bs rest : List Byte} (h : bs.length = 16 * n) :
    takeBlocks (n + m) (bs ++ rest) = takeBlocks n bs ++ takeBlocks m rest := by
  induction n generalizing bs with
  | zero =>
    obtain rfl := List.length_eq_zero_iff.1 h
    rw [Nat.zero_add]
    rfl
  | succ n ih =>
    rw [Nat.add_right_comm, takeBlocks, takeBlocks, List.take_append_of_le_length (by omega),
      List.drop_append_of_le_length (by omega), ih (by rw [List.length_drop]; omega),
      List.cons_append]

theorem wholeBlocks_append_of_dvd {bs : List Byte} (rest : List Byte) (h : 16 ∣ bs.length) :
    wholeBlocks (bs ++ rest) = wholeBlocks bs ++ wholeBlocks rest := by
  obtain ⟨n, hn⟩ := h
  have hsum : (bs ++ rest).length / 16 = n + rest.length / 16 := by
    rw [List.length_append, hn]
    omega
  rw [wholeBlocks, hsum, takeBlocks_add hn, wholeBlocks, hn,
    Nat.mul_div_cancel_left n (by norm_num), wholeBlocks]

/-- CBC decryption goes from left to right: what follows does not change the first blocks. -/
theorem exists_cbcDecrypt_append (c : Config) (key iv : Bytes16) (cs ds : List Bytes16) :
    ∃ rest, cbcDecrypt c key iv (cs ++ ds) = cbcDecrypt c key iv cs ++ rest := by
  induction cs generalizing iv with
  | nil => exact ⟨_, rfl⟩
  | cons ct cs ih =>
    obtain ⟨rest, hrest⟩ := ih ct
    refine ⟨rest, ?_⟩
    rw [List.cons_append, cbcDecrypt_cons, cbcDecrypt_cons, hrest, List.cons_append]

/-- Bytes before a footer do not change what it decodes to: it is read from its end (R143, R177). -/
theorem undo_append_footer (c : Implementation) (records before : List Byte) (key iv : Bytes16) :
    undo c.toConfig (before ++ footer c.toConfig records key iv) key iv =
      undo c.toConfig (footer c.toConfig records key iv) key iv := by
  have hdvd : 16 ∣ (footer c.toConfig records key iv).reverse.length := by
    rw [List.length_reverse, length_footer]
    exact Nat.dvd_mul_right 16 _
  obtain ⟨rest, hrest⟩ := exists_cbcDecrypt_append c.toConfig key iv
    (wholeBlocks (footer c.toConfig records key iv).reverse) (wholeBlocks before.reverse)
  have hplain : footerPlain c.toConfig (before ++ footer c.toConfig records key iv) key iv =
      padRecords records ++ rest.flatMap toBytes := by
    rw [footerPlain, List.reverse_append, wholeBlocks_append_of_dvd _ hdvd, hrest,
      List.flatMap_append, ← footerPlain_footer c records key iv]
    rfl
  rw [undo_eq, undo_eq, hplain, footerPlain_footer,
    recordsBeforeSentinel_append _ (sentinel_mem_padRecords records)]

theorem takeLast_append {α : Type} (as bs : List α) : takeLast bs.length (as ++ bs) = bs := by
  rw [takeLast, List.length_append, Nat.add_sub_cancel, List.drop_left]

/-- A footer that fits the window is the end of the window. -/
theorem exists_footerWindow_eq {body foot : List Byte} (h : foot.length ≤ bufBytes) :
    ∃ before, footerWindow (body ++ foot) = before ++ foot := by
  have hlen : (body ++ foot).length - min bufBytes (body ++ foot).length ≤ body.length := by
    rw [List.length_append]
    omega
  exact ⟨_, by rw [footerWindow, takeLast, List.drop_append_of_le_length hlen]⟩

/-- The footer search finds the footer of at most 255 records, none of them a sentinel. -/
theorem undo_footerWindow (c : Implementation) {body records : List Byte} (key iv : Bytes16)
    (hs : sentinel ∉ records) (hlen : records.length ≤ 255) :
    undo c.toConfig (footerWindow (body ++ footer c.toConfig records key iv)) key iv =
      some (records, footerBlocks records.length) := by
  have hfit : (footer c.toConfig records key iv).length ≤ bufBytes := by
    have := footerBlocks_le hlen
    rw [length_footer, bufBytes]
    omega
  obtain ⟨before, hbefore⟩ := exists_footerWindow_eq (body := body) hfit
  rw [hbefore, undo_append_footer, undo_footer]
  have hall : records.takeWhile (· != sentinel) = records := by
    simpa using takeWhile_append_of_sentinel_not_mem [] hs
  rw [hall]

/-- What is left of a byte string without its last `n` bytes. -/
theorem take_append_sub {as bs : List Byte} {n : Nat} (h : bs.length = n) :
    (as ++ bs).take ((as ++ bs).length - n) = as := by
  rw [List.length_append, h, Nat.add_sub_cancel, List.take_left]

theorem bodyOf_append {body foot : List Byte} {nb : Nat} (h : foot.length = 16 * nb) :
    bodyOf (body ++ foot) nb = body := take_append_sub h

/-! ## decrypt after encrypt (R181) -/

/-- Decrypting takes a ciphertext apart into what `encrypt` put together. -/
theorem decryptBytes_append (c : Implementation) {rk iv : Bytes16} {body records : List Byte}
    (hs : sentinel ∉ records) (hlen : records.length ≤ 255) :
    decryptBytes c.toConfig rk (body ++ footer c.toConfig records rk iv ++ toBytes iv) =
      (bodyStream body records).bind fun stream => decryptBlocks c.toConfig rk stream records := by
  have hiv : ofBytes (takeLast 16 (body ++ footer c.toConfig records rk iv ++ toBytes iv)) =
      iv := by
    rw [← length_toBytes iv, takeLast_append, ofBytes_toBytes]
  rw [decryptBytes, if_neg (by rw [List.length_append, length_toBytes]; omega)]
  simp only [hiv, take_append_sub (length_toBytes iv), undo_footerWindow c rk iv hs hlen,
    Option.bind_some, bodyOf_append (length_footer _ _ _ _)]

theorem decrypt_of_encrypt (c : Implementation) (rk iv : Bytes16) {x : List Byte}
    (hx : x.length ≤ 1020) :
    decrypt c.toConfig rk ((encryptBody c.toConfig rk x).1 ++
      footer c.toConfig (encryptBody c.toConfig rk x).2 rk iv ++ toBytes iv) =
        .ok ((splitBlocks x).flatMap fun b => minbytes (be b)) := by
  have h4 : ∀ b ∈ splitBlocks x, b.length ≤ 4 := fun b hb => (length_of_mem_splitBlocks hb).2
  have hrecords : (encryptBody c.toConfig rk x).2 =
      blockRecords c.toConfig rk (splitBlocks x) := rfl
  have hlen : (encryptBody c.toConfig rk x).2.length ≤ 255 := by
    rw [length_encryptBody_snd]
    omega
  rw [hrecords] at hlen
  rw [hrecords, encryptBody_fst, decrypt,
    decryptBytes_append c (sentinel_not_mem_blockRecords h4 _ _) hlen,
    bodyStream_pack (recordBits_blockRecords h4 _ _), Option.bind_some,
    decryptBlocks_encryptBlocks h4]

/-- Settles O55: the footer search ends at the footer, the body reads back, and D undoes E on each
block; the minimal forms make up the plaintext only where each is its block. -/
theorem decryptUndoesEncrypt : Obligations.DecryptUndoesEncrypt := by
  intro c rk iv x hx
  have hdecrypt := decrypt_of_encrypt c rk iv hx
  have hiff := flatMap_minbytes_eq_flatten_iff (splitBlocks x)
  rw [flatten_splitBlocks] at hiff
  refine ⟨_, by rw [encrypt_eq, if_pos hx], hdecrypt, hiff, fun h0 => ?_⟩
  rw [hdecrypt, h0]
  rfl

end Sys2Proof.Machine

/-! PROOFS. Rules for host programs: the block's bookkeeping, which no answer of a sequence rests
on but through STATUS, is split off its state, and each access and each RUN has one rule (R88,
R175, R182). -/

namespace Sys2Proof.Machine

/-! ## The bookkeeping of the block -/

/-- The state `s` with the bookkeeping of `n`: the bus, the latency counter and the flags of a
completion. -/
def State.withBook (s n : State) : State :=
  { s with busy := n.busy, done := n.done, err := n.err, errcode := n.errcode, pend := n.pend,
           cyclesLeft := n.cyclesLeft, bus := n.bus, rdata := n.rdata, draws := n.draws }

theorem withBook_self (s : State) : s.withBook s = s := rfl

@[simp] theorem withBook_busy (s n : State) : (s.withBook n).busy = n.busy := rfl
@[simp] theorem withBook_cyclesLeft (s n : State) : (s.withBook n).cyclesLeft = n.cyclesLeft := rfl
@[simp] theorem withBook_rdata (s n : State) : (s.withBook n).rdata = n.rdata := rfl

theorem setLbuf_withBook (s n : State) (bs : List Byte) :
    (s.withBook n).setLbuf bs = (s.setLbuf bs).withBook n := rfl

theorem setMbuf_withBook (s n : State) (bs : List Byte) :
    (s.withBook n).setMbuf bs = (s.setMbuf bs).withBook n := rfl

theorem map_withBook_ite {p : Prop} [Decidable p] (n : State) (a b : Except ErrorCode State) :
    (if p then a else b).map (·.withBook n) =
      if p then a.map (·.withBook n) else b.map (·.withBook n) := apply_ite _ p a b

/-- No command reads or writes the bookkeeping. -/
theorem effectOf_withBook (c : Config) (i : Instr) (s n : State) :
    effectOf c i (s.withBook n) = (effectOf c i s).map (·.withBook n) := by
  cases i with
  | nop => rfl
  | keyInit =>
    simp only [effectOf, keyInit, map_withBook_ite]
    rfl
  | keyAdv =>
    simp only [effectOf, keyAdv, map_withBook_ite]
    rfl
  | keyClear => rfl
  | splitKey =>
    simp only [effectOf, splitKeyCmd, map_withBook_ite]
    rfl
  | rotl8 amount => rfl
  | rotr8 amount => rfl
  | encBlock count adv record =>
    simp only [effectOf, encBlock, map_withBook_ite]
    cases adv <;> cases record <;> rfl
  | decBlock adv =>
    have hvalue : decryptValue (s.withBook n).wk (s.withBook n).ct.toNat =
      decryptValue s.wk s.ct.toNat := rfl
    simp only [effectOf, decBlock, map_withBook_ite, hvalue]
    cases decryptValue s.wk s.ct.toNat <;> cases adv <;> rfl
  | mdClear =>
    let cleared : State := { s with mdcount := 0, mdlen := 0, mdblocks := 0 }
    show Except.ok (((cleared.withBook n).setLbuf []).setMbuf []) =
      .ok (((cleared.setLbuf []).setMbuf []).withBook n)
    rw [setLbuf_withBook, setMbuf_withBook]
  | mdPush len =>
    simp only [effectOf, mdPush, map_withBook_ite]
    rfl
  | mdEncrypt =>
    simp only [effectOf, mdEncrypt, map_withBook_ite]
    rfl
  | mdDecrypt =>
    have hundo : undo c (s.withBook n).footerInput (s.withBook n).rk (s.withBook n).iv =
      undo c s.footerInput s.rk s.iv := rfl
    simp only [effectOf, mdDecrypt, map_withBook_ite, hundo]
    cases undo c s.footerInput s.rk s.iv <;> rfl

/-! ## A command from acceptance to the STATUS word -/

/-- The state that a command leaves, but for the bookkeeping (R202, R203). -/
def afterCommand (i : Instr) (s : State) : State :=
  match effectOf Config.actual i s with
  | .ok u => u
  | .error _ => s

/-- The code that a command completes with (R201). -/
def codeOf (i : Instr) (s : State) : ErrorCode :=
  match effectOf Config.actual i s with
  | .ok _ => .ok
  | .error code => code

theorem exec_withBook (i : Instr) (s n : State) :
    exec i (s.withBook n) =
      .next ((afterCommand i s).withBook (complete (codeOf i s) n)) := by
  rw [exec_eq_finish, effectOf_withBook, afterCommand, codeOf]
  cases effectOf Config.actual i s <;> rfl

theorem afterCommand_ok {i : Instr} {s u : State} (h : effectOf Config.actual i s = .ok u) :
    afterCommand i s = u ∧ codeOf i s = .ok := by
  rw [afterCommand, codeOf, h]
  exact ⟨rfl, rfl⟩

theorem afterCommand_error {i : Instr} {s : State} {code : ErrorCode}
    (h : effectOf Config.actual i s = .error code) :
    afterCommand i s = s ∧ codeOf i s = code := by
  rw [afterCommand, codeOf, h]
  exact ⟨rfl, rfl⟩

/-- No command writes WERR. -/
theorem afterCommand_werr (i : Instr) (s : State) : (afterCommand i s).werr = s.werr := by
  unfold afterCommand
  split
  · next u hu => rw [effectOf_frame hu]
  · rfl

/-! ## One access (R62, R66) -/

/-- A step that handles the one event on the bus delivers it. -/
theorem deliver_of_step {s t : State} {e : BusEvent} (h : step { s with bus := [e] } = .next t)
    (hb : t.bus = []) : deliver step e s = some t := by
  simp [deliver, h, hb]

/-- Delivering a read while no completion is due answers the stored value of a register that is no
draw. -/
theorem deliver_read {s n : State} {o : Nat} (hn : ¬(n.busy = true ∧ n.cyclesLeft ≤ 1))
    (hw : o < windowBytes) (h4 : 4 ∣ o) (hd : n.busy = true → drawMask (regAt o) = none) :
    deliver step (.read o 4) (s.withBook n) = some (s.withBook { n with
      bus := [], cyclesLeft := n.cyclesLeft - 1,
      rdata := readReg Config.actual (s.withBook n) (regAt o) }) :=
  deliver_of_step (step_read_stored (s := s.withBook n) hn hw h4 rfl hd rfl) rfl

theorem deliver_status {s n : State} (hn : ¬(n.busy = true ∧ n.cyclesLeft ≤ 1)) :
    deliver step (.read offStatus 4) (s.withBook n) = some (s.withBook { n with
      bus := [], cyclesLeft := n.cyclesLeft - 1, rdata := (s.withBook n).statusWord }) :=
  deliver_read hn (by decide) (by decide) fun _ => rfl

theorem statusWord_busy (s : State) : s.statusWord.getLsbD 0 = s.busy :=
  getLsbD_append_ofBool_zero _ _

/-- A STATUS read at the last cycle of a command sees the state that the command leaves. -/
theorem deliver_status_completing {s n : State} {i : Instr} (hi : WellFormed i)
    (hbusy : n.busy = true) (hpend : n.pend = some (encode i)) (hleft : n.cyclesLeft = 1) :
    ∃ m, deliver step (.read offStatus 4) (s.withBook n) = some ((afterCommand i s).withBook m) ∧
      m.busy = false ∧ m.errcode = codeOf i s ∧ m.rdata.getLsbD 0 = false := by
  let n' : State := { n with bus := [.read offStatus 4] }
  have hexec : step (s.withBook n') =
      .next ((afterCommand i s).withBook (complete (codeOf i s) n')) :=
    (stepRunsDecodedCommand (s.withBook n') _ i hbusy hleft.le hpend (decodeOfEncode i hi)).trans
      (exec_withBook i s n')
  refine ⟨{ complete (codeOf i s) n' with
      bus := [], rdata := ((afterCommand i s).withBook (complete (codeOf i s) n')).statusWord },
    deliver_completing hexec rfl (completing_eq_none (by simp)) ?_, rfl, rfl, statusWord_busy _⟩
  exact (handleEvent_read (by decide) (by decide)).trans
    (congrArg _ (readAccess_stored fun _ => rfl))

/-- WAIT ends after the command in flight has completed, whatever its latency (R88, R244). -/
theorem waitIdle_inFlight {s n : State} {i : Instr} {k : Nat} (hi : WellFormed i)
    (hbusy : n.busy = true) (hpend : n.pend = some (encode i)) (hleft : n.cyclesLeft = k + 1) :
    ∃ m, waitIdle step (k + 2) (s.withBook n) = some ((afterCommand i s).withBook m) ∧
      m.busy = false ∧ m.errcode = codeOf i s := by
  induction k generalizing n with
  | zero =>
    obtain ⟨m, hm, hidle, hcode, hbit⟩ := deliver_status_completing (s := s) hi hbusy hpend hleft
    refine ⟨m, ?_, hidle, hcode⟩
    rw [waitIdle, hm, Option.bind_some, withBook_rdata, if_neg (Bool.eq_false_iff.1 hbit)]
  | succ k ih =>
    have hstatus := deliver_status (s := s) (n := n) (by omega)
    obtain ⟨m, hm, hidle, hcode⟩ := ih (n := { n with
      bus := [], cyclesLeft := n.cyclesLeft - 1, rdata := (s.withBook n).statusWord })
      hbusy hpend (by simp only [hleft]; rfl)
    refine ⟨m, ?_, hidle, hcode⟩
    rw [waitIdle, hstatus, Option.bind_some, withBook_rdata, if_pos]
    · exact hm
    · rw [statusWord_busy, withBook_busy, hbusy]

/-- RUN, and the STATUS read after it: the continuation gets the STATUS word with the code, in the
state that the command leaves (R88, R175). -/
theorem runProg_runCmd {α : Type} {i : Instr} (hi : WellFormed i) (next : Word → HostProg α)
    {s n : State} (hn : n.busy = false) :
    ∃ m, m.busy = false ∧ ∃ st : Word, st.getLsbD 3 = s.werr ∧
      statusErrcode st = (codeOf i s).toByte ∧
      runProg step (runCmd i next) (s.withBook n) =
        runProg step (next st) ((afterCommand i s).withBook m) := by
  let n' : State := { n with bus := [.write offCmd 4 (encode i)] }
  obtain ⟨l, hl, hcmd⟩ := commandWriteIsAccepted (s.withBook n') (encode i) [] hn rfl
  have hwrite : deliver step (.write offCmd 4 (encode i)) (s.withBook n) =
      some (s.withBook (accept (encode i) l { n with bus := [] })) := deliver_of_step hcmd rfl
  obtain ⟨k, rfl⟩ := Nat.exists_eq_add_of_le' hl
  obtain ⟨m, hwait, hidle, hcode⟩ := waitIdle_inFlight (s := s)
    (n := accept (encode i) (k + 1) { n with bus := [] }) hi rfl rfl rfl
  have hstatus := deliver_status (s := afterCommand i s) (n := m) (not_completing_of_idle hidle)
  obtain ⟨-, -, -, hwerr, -, -, -, -, hbyte, -⟩ :=
    statusWordLayout ((afterCommand i s).withBook m)
  refine ⟨{ m with bus := [], cyclesLeft := m.cyclesLeft - 1,
                   rdata := ((afterCommand i s).withBook m).statusWord },
    hidle, _, hwerr.trans (afterCommand_werr i s), hbyte.trans (congrArg _ hcode), ?_⟩
  rw [runCmd, runProg_wr, hwrite, Option.bind_some, runProg_wait, withBook_cyclesLeft,
    accept_cyclesLeft, hwait, Option.bind_some, runProg_rd, hstatus, Option.bind_some,
    withBook_rdata]

end Sys2Proof.Machine

/-! PROOFS. How a register sequence ends: one rule per access and per RUN, backwards from the
answer, over the state without its bookkeeping (R88, R175, R180, R182, R187). -/

namespace Sys2Proof.Machine

/-! ## Ends -/

/-- Run from `s` on an idle block, with any bookkeeping, the program ends with the answer `a`, with
the block idle and no WorkingKey left in it (R187). -/
def Ends {α : Type} (p : HostProg α) (s : State) (a : α) : Prop :=
  ∀ n : State, n.busy = false → ∃ t, runProg step p (s.withBook n) = some (a, t) ∧
    t.busy = false ∧ t.wkValid = false ∧ t.wk = 0

theorem Ends.run {α : Type} {p : HostProg α} {s : State} {a : α} (h : Ends p s a)
    (hidle : s.busy = false) :
    ∃ t, runProg step p s = some (a, t) ∧ t.busy = false ∧ t.wkValid = false ∧ t.wk = 0 :=
  withBook_self s ▸ h s hidle

section Accesses

variable {α : Type} {p : HostProg α} {s u : State} {a : α} {v : Word}

/-- A write that stores into `u` whatever the bookkeeping. -/
theorem Ends.wr {o : Nat} (hp : Ends p u a)
    (h : ∀ n : State, n.busy = false → step { s.withBook n with bus := [.write o 4 v] } =
      .next (u.withBook { n with bus := [], cyclesLeft := n.cyclesLeft - 1 })) :
    Ends (.wr o v p) s a := by
  intro n hn
  rw [runProg_wr, deliver_of_step (h n hn) rfl, Option.bind_some]
  exact hp _ hn

theorem Ends.wr_iv (j : Fin 4)
    (hp : Ends p { s with iv := setWordAt s.iv j v, ivv := s.ivv ||| 1#4 <<< j.val } a) :
    Ends (.wr (0x030 + 4 * j.val) v p) s a :=
  hp.wr fun n hn => step_write_iv (s := { s.withBook n with bus := [_] }) hn rfl

theorem Ends.wr_blk (hp : Ends p { s with blk := v } a) : Ends (.wr offBlk v p) s a :=
  hp.wr fun n hn => step_write_blk (s := { s.withBook n with bus := [_] }) hn rfl

theorem Ends.wr_ct (j : Fin 4) (hp : Ends p { s with ct := setWordAt s.ct j v } a) :
    Ends (.wr (0x050 + 4 * j.val) v p) s a :=
  hp.wr fun n hn => step_write_ct (s := { s.withBook n with bus := [_] }) hn rfl

theorem Ends.wr_mdlen (hp : Ends p { s with mdlen := v.setWidth 9 } a) :
    Ends (.wr offMdlen v p) s a :=
  hp.wr fun n hn => step_write_mdlen (s := { s.withBook n with bus := [_] }) hn rfl

theorem Ends.wr_mbuf {o : Nat} (h4 : 4 ∣ o) (hlo : mbufBase ≤ o) (hhi : o < mbufBase + bufBytes)
    (hp : Ends p { s with mem := s.mem.writeWord o v } a) : Ends (.wr o v p) s a :=
  hp.wr fun n hn => step_write_mbuf (s := { s.withBook n with bus := [_] }) hn h4 hlo hhi rfl

/-- The four writes of a 16-byte string to IV load it, and set every written flag (R31, R175). -/
theorem Ends.wrWords_iv (iv : Bytes16) (hp : Ends p { s with iv := iv, ivv := 0b1111 } a) :
    Ends (wrWords offIv (words16 iv) p) s a := by
  refine Ends.wr_iv 0 (Ends.wr_iv 1 (Ends.wr_iv 2 (Ends.wr_iv 3 ?_)))
  have hload : setWordAt (setWordAt (setWordAt (setWordAt s.iv 0 (wordAt iv 0)) 1 (wordAt iv 1)) 2
      (wordAt iv 2)) 3 (wordAt iv 3) = iv := by rw [setWordAt_all, ofWords_wordAt]
  have hflags : s.ivv ||| 1#4 <<< (0 : Fin 4).val ||| 1#4 <<< (1 : Fin 4).val |||
      1#4 <<< (2 : Fin 4).val ||| 1#4 <<< (3 : Fin 4).val = 0b1111 := flags_all_written s.ivv
  simp only [hload, hflags]
  exact hp

/-- The four writes of a 16-byte string to CT load it (R34, R180). -/
theorem Ends.wrWords_ct (ct : Bytes16) (hp : Ends p { s with ct := ct } a) :
    Ends (wrWords offCt (words16 ct) p) s a := by
  refine Ends.wr_ct 0 (Ends.wr_ct 1 (Ends.wr_ct 2 (Ends.wr_ct 3 ?_)))
  have hload : setWordAt (setWordAt (setWordAt (setWordAt s.ct 0 (wordAt ct 0)) 1 (wordAt ct 1)) 2
      (wordAt ct 2)) 3 (wordAt ct 3) = ct := by rw [setWordAt_all, ofWords_wordAt]
  simp only [hload]
  exact hp

theorem Memory.writeBytes_append (m : Memory) (o : Nat) (as bs : List Byte) :
    m.writeBytes o (as ++ bs) = (m.writeBytes o as).writeBytes (o + as.length) bs := by
  induction as generalizing m o with
  | nil => rfl
  | cons b as ih =>
    rw [List.cons_append, Memory.writeBytes, Memory.writeBytes, ih, List.length_cons,
      Nat.add_right_comm, Nat.add_assoc]

/-- Words written to MBUF one after the other store their bytes one after the other (R41, R180). -/
theorem Ends.wrWords_mbuf {o : Nat} {ws : List Word} (h4 : 4 ∣ o) (hlo : mbufBase ≤ o)
    (hhi : o + 4 * ws.length ≤ mbufBase + bufBytes)
    (hp : Ends p { s with mem := s.mem.writeBytes o (ws.flatMap wordBytes) } a) :
    Ends (wrWords o ws p) s a := by
  induction ws generalizing s o with
  | nil => exact hp
  | cons w ws ih =>
    rw [List.length_cons] at hhi
    refine Ends.wr_mbuf h4 hlo (by omega)
      (ih (Nat.dvd_add h4 (Nat.dvd_refl 4)) (by omega) (by omega) ?_)
    rw [List.flatMap_cons, Memory.writeBytes_append] at hp
    exact hp

end Accesses

/-! ## Reads -/

/-- Only STATUS shows the bookkeeping. -/
theorem readReg_withBook (c : Config) (s n : State) {r : Reg} (h : r ≠ .status) :
    readReg c (s.withBook n) r = readReg c s r := by
  cases r with
  | status => exact absurd rfl h
  | _ => rfl

section Reads

variable {α : Type} {s : State} {a : α}

theorem Ends.rd {p : Word → HostProg α} {o : Nat} {v : Word} (hw : o < windowBytes) (h4 : 4 ∣ o)
    (hr : regAt o ≠ .status) (hv : readReg Config.actual s (regAt o) = v) (hp : Ends (p v) s a) :
    Ends (.rd o p) s a := by
  intro n hn
  rw [runProg_rd, deliver_read (not_completing_of_idle hn) hw h4 (fun hb => by simp [hn] at hb),
    Option.bind_some, withBook_rdata, readReg_withBook _ _ _ hr, hv]
  exact hp _ hn

theorem Ends.rdWords_ct {p : List Word → HostProg α} (hp : Ends (p (words16 s.ct)) s a) :
    Ends (rdWords offCt 4 p) s a := by
  refine Ends.rd (by decide) (by decide) (by decide) rfl ?_
  refine Ends.rd (by decide) (by decide) (by decide) rfl ?_
  refine Ends.rd (by decide) (by decide) (by decide) rfl ?_
  exact Ends.rd (by decide) (by decide) (by decide) rfl hp

theorem Memory.readBytes_add (m : Memory) (o n k : Nat) :
    m.readBytes o (n + k) = m.readBytes o n ++ m.readBytes (o + n) k := by
  simp only [Memory.readBytes, List.range_add, List.map_append, List.map_map]
  refine congrArg _ (List.map_congr_left fun i _ => ?_)
  rw [Function.comp_apply, Nat.add_assoc]

theorem Memory.wordBytes_readWord (m : Memory) (o : Nat) :
    wordBytes (m.readWord o) = m.readBytes o 4 := by
  rw [Memory.readWord, wordBytes_packWord]
  rfl

/-- Words read from LBUF and MBUF one after the other are their bytes one after the other. -/
theorem Ends.rdWords_mem {p : List Word → HostProg α} {o k : Nat} (h4 : 4 ∣ o) (hlo : lbufBase ≤ o)
    (hhi : o + 4 * k ≤ mbufBase + bufBytes)
    (hp : ∀ ws : List Word, ws.flatMap wordBytes = s.mem.readBytes o (4 * k) → Ends (p ws) s a) :
    Ends (rdWords o k p) s a := by
  induction k generalizing o p with
  | zero => exact hp [] rfl
  | succ k ih =>
    simp only [lbufBase, mbufBase, bufBytes] at hlo hhi
    obtain ⟨hword, hmask⟩ := regAt_buffers Config.actual s hlo (by omega : o ≤ 0x3FC)
    have hr : regAt o ≠ .status := fun hr => by simp [hr, drawMask] at hmask
    refine Ends.rd (by simp only [windowBytes]; omega) h4 hr hword ?_
    refine ih (Nat.dvd_add h4 (Nat.dvd_refl 4)) (by simp only [lbufBase]; omega)
      (by simp only [mbufBase, bufBytes]; omega) fun ws hws => hp _ ?_
    rw [List.flatMap_cons, hws, Memory.wordBytes_readWord, ← Memory.readBytes_add, Nat.mul_succ,
      Nat.add_comm]

end Reads

/-! ## Commands -/

theorem toByte_ne_zero {code : ErrorCode} (h : code ≠ .ok) : code.toByte ≠ 0 := by
  cases code with
  | ok => exact absurd rfl h
  | _ => decide

section Commands

variable {α : Type} {s : State} {a : SeqResult α}

/-- The last step destroys the WorkingKey and leaves the answer as it is (R182, R187). -/
theorem Ends.lastStep (hw : s.werr = false) : Ends (lastStep a) s a := by
  intro n hn
  obtain ⟨m, hm, st, hst, -, hrun⟩ := runProg_runCmd (i := .keyClear) (s := s) rfl
    (fun st => .done (if statusWerr st then .hostBug else a)) hn
  refine ⟨(afterCommand .keyClear s).withBook m, hrun.trans ?_, hm, rfl, rfl⟩
  rw [runProg_done, statusWerr, hst, hw]
  rfl

variable {onCode : Byte → SeqResult α} {i : Instr} {next : HostProg (SeqResult α)}
  (hi : WellFormed i) (hw : s.werr = false)
include hi hw

/-- A checked RUN goes on after code 0, and otherwise ends with its last step. -/
theorem Ends.checkedRun
    (hp : Ends (if (codeOf i s).toByte = 0 then next
      else Machine.lastStep (onCode (codeOf i s).toByte)) (afterCommand i s) a) :
    Ends (checkedRun onCode i next) s a := by
  intro n hn
  obtain ⟨m, hm, st, hst, hbyte, hrun⟩ := runProg_runCmd hi
    (fun st => if statusWerr st then Machine.lastStep .hostBug
      else if statusErrcode st = 0 then next else Machine.lastStep (onCode (statusErrcode st)))
    (s := s) hn
  rw [Machine.checkedRun, hrun, statusWerr, hst, hw, if_neg Bool.false_ne_true, hbyte]
  exact hp m hm

theorem Ends.checkedRun_ok {u : State} (hu : effectOf Config.actual i s = .ok u)
    (hp : Ends next u a) : Ends (Machine.checkedRun onCode i next) s a := by
  obtain ⟨hafter, hcode⟩ := afterCommand_ok hu
  refine Ends.checkedRun hi hw ?_
  rw [hcode, if_pos (show ErrorCode.ok.toByte = 0 from rfl), hafter]
  exact hp

theorem Ends.checkedRun_error {code : ErrorCode} (he : effectOf Config.actual i s = .error code)
    (ha : onCode code.toByte = a) : Ends (Machine.checkedRun onCode i next) s a := by
  obtain ⟨hafter, hcode⟩ := afterCommand_error he
  refine Ends.checkedRun hi hw ?_
  rw [hcode, if_neg (toByte_ne_zero (effectOf_error_ne_ok he)), hafter, ha]
  exact Ends.lastStep hw

end Commands

/-! ## Words of byte strings (R27, R34, R61) -/

theorem flatMap_wordBytes_words16 (v : Bytes16) : (words16 v).flatMap wordBytes = toBytes v := by
  simp only [words16, List.flatMap_cons, wordBytes_wordAt]
  rfl

/-- Packed words hold the bytes of the byte string, and 0 after its end. -/
theorem getD_flatMap_packWords {n i : Nat} (bs : List Byte) (h : i < 4 * n) :
    ((packWords n bs).flatMap wordBytes).getD i 0 = bs.getD i 0 := by
  induction n generalizing bs i with
  | zero => omega
  | succ n ih =>
    rw [packWords, List.flatMap_cons, wordBytes_packWord]
    match i, h with
    | 0, _ => rfl
    | 1, _ => rfl
    | 2, _ => rfl
    | 3, _ => rfl
    | i + 4, h =>
      have hdrop : (bs.drop 4).getD i 0 = bs.getD (i + 4) 0 := by
        rw [List.getD_eq_getElem?_getD, List.getElem?_drop, Nat.add_comm,
          List.getD_eq_getElem?_getD]
      rw [← hdrop, ← ih (bs.drop 4) (by omega)]
      rfl

theorem length_flatMap_wordBytes (ws : List Word) :
    (ws.flatMap wordBytes).length = 4 * ws.length := by
  induction ws with
  | nil => rfl
  | cons w ws ih =>
    rw [List.flatMap_cons, List.length_append, ih, length_wordBytes, List.length_cons, Nat.mul_succ,
      Nat.add_comm]

@[simp] theorem length_packWords (n : Nat) (bs : List Byte) : (packWords n bs).length = n := by
  induction n generalizing bs with
  | zero => rfl
  | succ n ih => rw [packWords, List.length_cons, ih]

end Sys2Proof.Machine

/-! PROOFS. The encrypt and the bound register sequences answer what `encrypt` and `encrypt_bound`
answer (R175, R183): one block of the loop appends one record, and MD_ENCRYPT leaves the footer of
the records in MBUF. -/

namespace Sys2Proof.Machine

/-! ## What a command keeps -/

/-- No command writes the RootKey, the IV or WERR. -/
theorem effectOf_keeps {c : Config} {i : Instr} {s u : State} (h : effectOf c i s = .ok u) :
    u.rk = s.rk ∧ u.rkValid = s.rkValid ∧ u.iv = s.iv ∧ u.ivValid = s.ivValid ∧
      u.werr = s.werr := by
  rw [effectOf_frame h]
  exact ⟨rfl, rfl, rfl, rfl, rfl⟩

theorem mdClear_mdcount {s u : State} (h : mdClear s = .ok u) : u.mdcount = 0 := by
  rw [mdClear_ok h]

theorem setLbuf_wf {s : State} (bs : List Byte) (hwf : s.mem.wf = true) :
    (s.setLbuf bs).mem.wf = true := Memory.wf_writeBytes _ _ hwf

theorem setMbuf_wf {s : State} (bs : List Byte) (hwf : s.mem.wf = true) :
    (s.setMbuf bs).mem.wf = true := Memory.wf_writeBytes _ _ hwf

theorem mdClear_wf {s u : State} (h : mdClear s = .ok u) (hwf : s.mem.wf = true) :
    u.mem.wf = true := by
  obtain rfl := Except.ok.inj h
  exact setMbuf_wf [] (setLbuf_wf [] hwf)

/-- Appending a record where there is room. -/
theorem records_pushRecord {s : State} (hwf : s.mem.wf = true) (hroom : s.mdcount ≠ 255)
    (l : Byte) : (s.pushRecord l).records = s.records ++ [l] := by
  have hcount : (s.pushRecord l).mdcount.toNat = s.mdcount.toNat + 1 :=
    toNat_mdcount_pushRecordIf (record := true) (fun _ => hroom) l
  have hlast : Memory.readBytes (s.pushRecord l).mem (lbufBase + s.mdcount.toNat) 1 = [l] := by
    have hread : (s.pushRecord l).mem.read (lbufBase + s.mdcount.toNat) = l := by
      rw [pushRecord_mem, Memory.read_write_same _ _ hwf]
    exact congrArg (· :: []) hread
  have hbefore : Memory.readBytes (s.pushRecord l).mem lbufBase s.mdcount.toNat = s.records := by
    refine List.map_congr_left fun i hi => ?_
    have hi : i < s.mdcount.toNat := List.mem_range.1 hi
    rw [pushRecord_mem, Memory.read_write_other _ hwf (by omega)]
  rw [State.records, hcount, Memory.readBytes_add, hlast, hbefore]

/-! ## The state during the sequence -/

/-- What the block holds between two commands of the encrypt sequence: valid keys, with the
WorkingKey `wk`, and the length records `recs`. -/
structure Encrypting (rk iv wk : Bytes16) (recs : List Byte) (s : State) : Prop where
  rkValid : s.rkValid = true
  ivValid : s.ivValid = true
  wkValid : s.wkValid = true
  werr : s.werr = false
  memCanonical : s.mem.wf = true
  rkEq : s.rk = rk
  ivEq : s.iv = iv
  wkEq : s.wk = wk
  recordsEq : s.records = recs

theorem Encrypting.toNat_mdcount {rk iv wk : Bytes16} {recs : List Byte} {s : State}
    (h : Encrypting rk iv wk recs s) : s.mdcount.toNat = recs.length := by
  rw [← h.recordsEq, length_records]

/-- The steps before the block loop: the IV, MD_CLEAR and KEY_INIT. -/
theorem Ends.encryptStart {α : Type} {p : HostProg (SeqResult α)} {s : State} {a : SeqResult α}
    (iv : Bytes16) (hwf : s.mem.wf = true) (hrk : s.rkValid = true) (hw : s.werr = false)
    (hp : ∀ u, Encrypting s.rk iv s.rk [] u → Ends p u a) :
    Ends (wrWords offIv (words16 iv) <| encStep .mdClear <| encStep .keyInit p) s a := by
  refine Ends.wrWords_iv iv ?_
  obtain ⟨u, hu⟩ :
      ∃ u, effectOf Config.actual .mdClear { s with iv := iv, ivv := 0b1111 } = .ok u := ⟨_, rfl⟩
  obtain ⟨hrkEq, hrkValid, hivEq, hivValid, hwerr⟩ := effectOf_keeps hu
  have hrkValid : u.rkValid = true := hrkValid.trans hrk
  have hwerr : u.werr = false := hwerr.trans hw
  have hwf : u.mem.wf = true := mdClear_wf hu hwf
  refine Ends.checkedRun_ok rfl hw hu ?_
  refine Ends.checkedRun_ok rfl hwerr (keyInit_ok.2 ⟨hrkValid, rfl⟩) (hp _ ?_)
  exact {
    rkValid := hrkValid
    ivValid := hivValid
    wkValid := rfl
    werr := hwerr
    memCanonical := hwf
    rkEq := hrkEq
    ivEq := hivEq
    wkEq := hrkEq
    recordsEq := List.length_eq_zero_iff.1 <| by
      rw [length_records]
      exact congrArg BitVec.toNat (mdClear_mdcount hu) }

/-! ## The block loop -/

theorem blockValue_be {b : List Byte} (h : b.length ≤ 4) :
    blockValue b.length (BitVec.ofNat 32 (be b)) = be b := by
  rw [blockValue, BitVec.toNat_ofNat, Nat.mod_eq_of_lt (be_lt_of_length_le h), Nat.pow_mul]
  exact Nat.mod_eq_of_lt (be_lt b)

theorem wellFormed_encb {b : List Byte} (h : b.length ≤ 4) : WellFormed (encb b.length) :=
  decide_eq_true (h.trans (by decide))

section Loop

variable {rk iv wk : Bytes16} {recs b : List Byte} {s : State} (h : Encrypting rk iv wk recs s)
include h

/-- ENCB on a block, where there is room for its record: the output in CT, its length in CTLEN and
in the records, and the next WorkingKey. -/
theorem Encrypting.encb (hb : b.length ≤ 4) (hroom : recs.length < 255) :
    ∃ u, effectOf Config.actual (encb b.length) { s with blk := BitVec.ofNat 32 (be b) } = .ok u ∧
      u.ct.toNat = encryptValue wk (be b) ∧ u.ctlen.toNat = bitlen (encryptValue wk (be b)) ∧
      Encrypting rk iv (Config.actual.reshuffle wk)
        (recs ++ [BitVec.ofNat 8 (bitlen (encryptValue wk (be b)))]) u := by
  let s' : State := { s with blk := BitVec.ofNat 32 (be b) }
  have hne : s.mdcount ≠ 255 := fun hfull => by
    have := h.toNat_mdcount
    rw [hfull] at this
    exact absurd this.symm hroom.ne
  have hvalue : encryptValue s'.wk (blockValue b.length s'.blk) = encryptValue wk (be b) := by
    rw [blockValue_be hb, ← h.wkEq]
  obtain ⟨u, hu⟩ : ∃ u, encBlock Config.actual b.length true true s' = .ok u :=
    ⟨_, encBlock_ok.2 ⟨h.wkValid, hb, fun _ => recordsFull_eq_false_iff.2 hne, rfl⟩⟩
  obtain ⟨hct, hctlen, hwk, hmdcount, hmem, hframe⟩ := encBlock_ok_fields hu
  obtain ⟨hrkEq, hrkValid, hivEq, hivValid, hwerr⟩ :=
    effectOf_keeps (i := .encBlock b.length true true) hu
  refine ⟨u, hu, ?_, ?_, ?_⟩
  · rw [hct, toNat_ofNat_encryptValue, hvalue]
  · rw [hctlen, toNat_ofNat_bitlen_encryptValue, hvalue]
  · rw [hvalue] at hctlen
    exact {
      rkValid := hrkValid.trans h.rkValid
      ivValid := hivValid.trans h.ivValid
      wkValid := by rw [hframe]; exact h.wkValid
      werr := hwerr.trans h.werr
      memCanonical := by rw [hmem]; exact Memory.wf_write _ _ h.memCanonical
      rkEq := hrkEq.trans h.rkEq
      ivEq := hivEq.trans h.ivEq
      wkEq := by rw [hwk, if_pos rfl, ← h.wkEq]
      recordsEq := by
        have hpush := records_pushRecord (s := s') h.memCanonical hne u.ctlen
        rw [State.records, hmdcount, hmem, ← hctlen, ← h.recordsEq]
        exact hpush }

variable {α : Type} {bits : List Bool} {bs : List (List Byte)}
  {next : List Bool → HostProg (SeqResult α)} {a : SeqResult α}

/-- One round of the block loop. -/
theorem Encrypting.ends_cons (hb : b.length ≤ 4) (hroom : recs.length < 255)
    (hp : ∀ u, Encrypting rk iv (Config.actual.reshuffle wk)
        (recs ++ [BitVec.ofNat 8 (bitlen (encryptValue wk (be b)))]) u →
      Ends (encryptLoop bs
        (bits ++ bitstr (encryptValue wk (be b)) (bitlen (encryptValue wk (be b)))) next) u a) :
    Ends (encryptLoop (b :: bs) bits next) s a := by
  obtain ⟨u, hu, hct, hctlen, hnext⟩ := h.encb hb hroom
  refine Ends.wr_blk (Ends.checkedRun_ok (wellFormed_encb hb) h.werr hu ?_)
  refine Ends.rdWords_ct (Ends.rd (v := u.ctlen.setWidth 32) (by decide) (by decide) (by decide)
    rfl ?_)
  rw [BitVec.toNat_setWidth_of_le (by decide), hctlen, flatMap_wordBytes_words16, be_toBytes, hct]
  exact hp u hnext

/-- The 256th block is turned away: LBUF is full (R182). -/
theorem Encrypting.ends_full (hb : b.length ≤ 4) (hfull : recs.length = 255) :
    Ends (encryptLoop (b :: bs) bits next) s (.err .capacityExceeded) := by
  have hcount : s.mdcount = 255 := BitVec.eq_of_toNat_eq (h.toNat_mdcount.trans hfull)
  exact Ends.wr_blk (Ends.checkedRun_error (wellFormed_encb hb) h.werr
    (encBlock_mdOverflow h.wkValid hb hcount) rfl)

end Loop

section Blocks

variable {α : Type} {rk iv wk : Bytes16} {recs : List Byte} {bits : List Bool}
  {bs : List (List Byte)} {next : List Bool → HostProg (SeqResult α)} {a : SeqResult α} {s : State}
  (h4 : ∀ b ∈ bs, b.length ≤ 4) (h : Encrypting rk iv wk recs s)
include h4 h

/-- The block loop where every record has room: the bit-stream of `encrypt`, and its records. -/
theorem Encrypting.ends_loop (hfit : recs.length + bs.length ≤ 255)
    (hp : ∀ wk' u, Encrypting rk iv wk' (recs ++ blockRecords Config.actual wk bs) u →
      Ends (next (bits ++ (encryptBlocks Config.actual wk bs).1)) u a) :
    Ends (encryptLoop bs bits next) s a := by
  induction bs generalizing wk recs bits s with
  | nil =>
    have hlast := hp wk s (by simpa using h)
    rwa [encryptBlocks, List.append_nil] at hlast
  | cons b bs ih =>
    obtain ⟨hb, hbs⟩ := List.forall_mem_cons.1 h4
    rw [List.length_cons] at hfit
    refine h.ends_cons hb (by omega) fun u hu => ih hbs hu ?_ fun wk' t ht => ?_
    · rw [List.length_append, List.length_singleton]
      omega
    · rw [List.append_assoc]
      refine hp wk' t ?_
      rw [blockRecords_cons, List.append_cons]
      exact ht

/-- The block loop where some block finds LBUF full. -/
theorem Encrypting.ends_loop_full (hrecs : recs.length ≤ 255)
    (hfull : 255 < recs.length + bs.length) :
    Ends (encryptLoop bs bits next) s (.err .capacityExceeded) := by
  induction bs generalizing wk recs bits s with
  | nil => exact absurd hfull (Nat.not_lt.2 hrecs)
  | cons b bs ih =>
    obtain ⟨hb, hbs⟩ := List.forall_mem_cons.1 h4
    rw [List.length_cons] at hfull
    rcases hrecs.eq_or_lt with heq | hroom
    · exact h.ends_full hb heq
    · refine h.ends_cons hb hroom fun u hu => ih hbs hu ?_ ?_ <;>
        rw [List.length_append, List.length_singleton] <;> omega

end Blocks

/-! ## The footer -/

/-- MD_ENCRYPT, and the footer read from MBUF: the last steps after the block loop. -/
theorem Encrypting.ends_footer {α : Type} {rk iv wk : Bytes16} {recs : List Byte} {s : State}
    (h : Encrypting rk iv wk recs s) (answer : List Byte → SeqResult α) :
    Ends (encStep .mdEncrypt <| .rd offMdlen fun f => rdWords mbufBase (f.toNat / 4) fun ws =>
        lastStep (answer (ws.flatMap wordBytes))) s
      (answer (footer Config.actual recs rk iv)) := by
  obtain ⟨u, hu, hmem, hmdlen, hwerr⟩ : ∃ u, effectOf Config.actual .mdEncrypt s = .ok u ∧
      u.mem = (s.setMbuf (footer Config.actual s.records s.rk s.iv)).mem ∧
      u.mdlen.toNat = 16 * footerBlocks s.mdcount.toNat ∧ u.werr = s.werr :=
    ⟨_, mdEncrypt_ok.2 ⟨h.rkValid, h.ivValid, rfl⟩, rfl,
      by rw [length_records]; exact toNat_ofNat_mdlen s, rfl⟩
  have hfooter := footerInput_after_mdEncrypt h.memCanonical hmem hmdlen
  rw [h.recordsEq, h.rkEq, h.ivEq, State.footerInput] at hfooter
  have hle := footerBlocks_mdcount_le s
  refine Ends.checkedRun_ok rfl h.werr hu ?_
  refine Ends.rd (v := u.mdlen.setWidth 32) (by decide) (by decide) (by decide) rfl ?_
  rw [BitVec.toNat_setWidth_of_le (by decide), hmdlen]
  refine Ends.rdWords_mem (by decide) (by decide) ?_ fun ws hws => ?_
  · simp only [mbufBase, bufBytes]
    omega
  · rw [show 4 * (16 * footerBlocks s.mdcount.toNat / 4) = u.mdlen.toNat by omega, hfooter] at hws
    rw [hws]
    exact Ends.lastStep (hwerr.trans h.werr)

/-! ## The sequences (R175, R183) -/

/-- The answer of a register sequence that stands for a host result. -/
def SeqResult.ofExcept {α : Type} : Except HostError α → SeqResult α
  | .ok answer => .ok answer
  | .error kind => .err kind

/-- The encrypt sequence answers what the host makes of the body and the ciphertext. -/
theorem ends_encryptSeqWith {α : Type} {s : State} (hwf : s.mem.wf = true) (hrk : s.rkValid = true)
    (hw : s.werr = false) (x : List Byte) (iv : Bytes16) (answer : List Byte → List Byte → α) :
    Ends (encryptSeqWith x iv answer) s (.ofExcept
      ((encrypt Config.actual s.rk x iv).map (answer (encryptBody Config.actual s.rk x).1))) := by
  have h4 : ∀ b ∈ splitBlocks x, b.length ≤ 4 := fun b hb => (length_of_mem_splitBlocks hb).2
  have hblocks := length_splitBlocks x
  refine Ends.encryptStart iv hwf hrk hw fun u hu => ?_
  rw [encrypt_eq]
  split
  · next hx =>
    refine hu.ends_loop h4 (by rw [List.length_nil]; omega) fun wk' t ht => ?_
    exact ht.ends_footer fun foot => .ok (answer (pack (encryptBlocks Config.actual s.rk
      (splitBlocks x)).1) (pack (encryptBlocks Config.actual s.rk (splitBlocks x)).1 ++ foot ++
        toBytes iv))
  · next hx =>
    exact hu.ends_loop_full h4 (Nat.zero_le _) (by rw [List.length_nil]; omega)

/-- Settles O59: the two sequences differ only in the host's arithmetic on the ciphertext. -/
theorem encryptSequenceAgrees : Obligations.EncryptSequenceAgrees := by
  intro s x iv hinv hidle _ hrk hw
  refine ⟨?_, fun wantLower wantUpper => ?_⟩
  · obtain ⟨t, ht, hend⟩ :=
      (ends_encryptSeqWith hinv.memCanonical hrk hw x iv fun _ ct => ct).run hidle
    refine ⟨t, ht.trans ?_, hend⟩
    cases encrypt Config.actual s.rk x iv <;> rfl
  · obtain ⟨t, ht, hend⟩ := (ends_encryptSeqWith hinv.memCanonical hrk hw x iv
      (boundsOf wantLower wantUpper)).run hidle
    refine ⟨t, ht.trans ?_, hend⟩
    rw [encryptBound]
    cases encrypt Config.actual s.rk x iv <;> rfl

end Sys2Proof.Machine

/-! PROOFS. The decrypt register sequence answers what `decrypt` answers (R180, R182): MBUF gets the
window of the footer search, LBUF the records, and one round of the loop decrypts one block. -/

namespace Sys2Proof.Machine

/-! ## The footer in MBUF (R177, R180) -/

/-- What the block holds before MD_DECRYPT: valid keys, and the bytes to decode. -/
structure FooterLoaded (rk iv : Bytes16) (window : List Byte) (s : State) : Prop where
  rkValid : s.rkValid = true
  ivValid : s.ivValid = true
  werr : s.werr = false
  memCanonical : s.mem.wf = true
  rkEq : s.rk = rk
  ivEq : s.iv = iv
  mdlenRange : s.mdlen.toNat ≤ bufBytes
  footerInputEq : s.footerInput = window

theorem length_footerWindow_le (rem : List Byte) : (footerWindow rem).length ≤ bufBytes := by
  rw [footerWindow, takeLast, List.length_drop]
  omega

/-- A byte string packed into words and stored is read back byte by byte. -/
theorem readBytes_writeBytes_packWords {m : Memory} (hwf : m.wf = true) (o : Nat) (bs : List Byte) :
    (m.writeBytes o ((packWords ((bs.length + 3) / 4) bs).flatMap wordBytes)).readBytes o
      bs.length = bs := by
  refine readBytes_eq fun i hi => ?_
  rw [Memory.read_writeBytes _ _ _ hwf, length_flatMap_wordBytes, length_packWords,
    if_pos (by omega), Nat.add_sub_cancel_left, getD_flatMap_packWords bs (by omega)]

/-- The steps before MD_DECRYPT: the IV, the window of the footer search and its length. -/
theorem Ends.loadFooter {α : Type} {p : HostProg α} {s : State} {a : α} (iv : Bytes16)
    {window : List Byte} (hwf : s.mem.wf = true) (hrk : s.rkValid = true) (hw : s.werr = false)
    (hlen : window.length ≤ bufBytes) (hp : ∀ u, FooterLoaded s.rk iv window u → Ends p u a) :
    Ends (wrWords offIv (words16 iv) <|
      wrWords mbufBase (packWords ((window.length + 3) / 4) window) <|
      .wr offMdlen (BitVec.ofNat 32 window.length) p) s a := by
  simp only [bufBytes] at hlen
  have hmdlen : ((BitVec.ofNat 32 window.length).setWidth 9).toNat = window.length := by
    rw [BitVec.toNat_setWidth, BitVec.toNat_ofNat]
    omega
  refine Ends.wrWords_iv iv (Ends.wrWords_mbuf (by decide) le_rfl ?_ (Ends.wr_mdlen (hp _ ?_)))
  · rw [length_packWords, mbufBase, bufBytes]
    omega
  · exact {
      rkValid := hrk
      ivValid := rfl
      werr := hw
      memCanonical := Memory.wf_writeBytes _ _ hwf
      rkEq := rfl
      ivEq := rfl
      mdlenRange := hmdlen.trans_le hlen
      footerInputEq := by
        rw [State.footerInput, hmdlen]
        exact readBytes_writeBytes_packWords hwf mbufBase window }

/-! ## MD_DECRYPT and the records (R147, R180) -/

theorem take_readBytes {m : Memory} {o n k : Nat} (h : k ≤ n) :
    (m.readBytes o n).take k = m.readBytes o k := by
  rw [← Nat.add_sub_cancel' h, Memory.readBytes_add, List.take_left' (length_readBytes _ _ _)]

section Records

variable {α : Type} {rk iv : Bytes16} {window : List Byte} {s : State} {a : SeqResult α}
  (h : FooterLoaded rk iv window s)
include h

/-- MD_DECRYPT where the window does not decode. -/
theorem FooterLoaded.ends_error {onCode : Byte → SeqResult α} {p : HostProg (SeqResult α)}
    (hundo : undo Config.actual window rk iv = none) (ha : ∀ code, onCode code = a) :
    Ends (checkedRun onCode .mdDecrypt p) s a := by
  rw [← h.footerInputEq, ← h.rkEq, ← h.ivEq] at hundo
  exact Ends.checkedRun_error rfl h.werr (mdDecrypt_error (.inr (.inr hundo))) (ha _)

/-- MD_DECRYPT where the window decodes: the records in LBUF, and the counts. -/
theorem FooterLoaded.mdDecrypt {recs : List Byte} {nb : Nat}
    (hundo : undo Config.actual window rk iv = some (recs, nb)) :
    ∃ u, effectOf Config.actual .mdDecrypt s = .ok u ∧ u.mdcount.toNat = recs.length ∧
      u.mdblocks.toNat = nb ∧ u.records = recs ∧ recs.length ≤ 255 ∧ u.rk = rk ∧
      u.rkValid = true ∧ u.werr = false := by
  rw [← h.footerInputEq, ← h.rkEq, ← h.ivEq] at hundo
  obtain ⟨hrecs, hnb⟩ := undo_footerInput_sizes h.mdlenRange hundo
  obtain ⟨u, hu, hcount, hblocks, hmem⟩ : ∃ u, effectOf Config.actual .mdDecrypt s = .ok u ∧
      u.mdcount = BitVec.ofNat 8 recs.length ∧ u.mdblocks = BitVec.ofNat 5 nb ∧
      u.mem = (s.setLbuf recs).mem :=
    ⟨_, mdDecrypt_ok.2 ⟨h.rkValid, h.ivValid, h.mdlenRange, recs, nb, hundo, rfl⟩, rfl, rfl, rfl⟩
  obtain ⟨hrkEq, hrkValid, -, -, hwerr⟩ := effectOf_keeps hu
  have hcount : u.mdcount.toNat = recs.length := by
    rw [hcount]
    exact Nat.mod_eq_of_lt (by omega)
  refine ⟨u, hu, hcount, ?_, ?_, hrecs, hrkEq.trans h.rkEq, hrkValid.trans h.rkValid,
    hwerr.trans h.werr⟩
  · rw [hblocks]
    exact Nat.mod_eq_of_lt (by omega)
  · rw [State.records, hcount, hmem]
    refine readBytes_eq fun i hi => ?_
    have hread := read_fillBuffer lbufBase (lbufBase + i) h.memCanonical (bs := recs)
      (by rw [bufBytes]; omega)
    rw [if_pos (by rw [bufBytes]; omega), Nat.add_sub_cancel_left] at hread
    exact hread

/-- MD_DECRYPT, and the reads of the counts and the records after it. -/
theorem FooterLoaded.ends_records {onCode : Byte → SeqResult α}
    {p : Word → List Word → Word → HostProg (SeqResult α)} {recs : List Byte} {nb : Nat}
    (hundo : undo Config.actual window rk iv = some (recs, nb))
    (hp : ∀ u m ws n, u.rk = rk → u.rkValid = true → u.werr = false →
      (ws.flatMap wordBytes).take m.toNat = recs → n.toNat = nb → Ends (p m ws n) u a) :
    Ends (checkedRun onCode .mdDecrypt <| .rd offMdcount fun m =>
      rdWords lbufBase ((m.toNat + 3) / 4) fun ws => .rd offMdblocks fun n => p m ws n) s a := by
  obtain ⟨u, hu, hcount, hblocks, hrecords, hrecs, hrkEq, hrkValid, hwerr⟩ := h.mdDecrypt hundo
  have hm : (u.mdcount.setWidth 32).toNat = recs.length := by
    rw [BitVec.toNat_setWidth_of_le (by decide), hcount]
  refine Ends.checkedRun_ok rfl h.werr hu ?_
  refine Ends.rd (v := u.mdcount.setWidth 32) (by decide) (by decide) (by decide) rfl ?_
  refine Ends.rdWords_mem (by decide) le_rfl ?_ fun ws hws => ?_
  · rw [hm, lbufBase, mbufBase, bufBytes]
    omega
  · refine Ends.rd (v := u.mdblocks.setWidth 32) (by decide) (by decide) (by decide) rfl ?_
    refine hp u _ ws _ hrkEq hrkValid hwerr ?_ ?_
    · rw [hws, hm, take_readBytes (by omega), ← hcount]
      exact hrecords
    · rw [BitVec.toNat_setWidth_of_le (by decide), hblocks]

end Records

/-! ## The block loop (R179, R180) -/

/-- The answer of the decrypt sequence: every failure is the one error (R182). -/
def decryptAnswer (r : Option (List Byte)) : SeqResult (List Byte) := r.elim decryptError .ok

theorem toNat_ofNat_bitsValue_take {stream : List Bool} {l : Nat} (h : l ≤ 128) :
    (BitVec.ofNat 128 (bitsValue (stream.take l))).toNat = bitsValue (stream.take l) := by
  refine Nat.mod_eq_of_lt ((bitsValue_lt _).trans_le (Nat.pow_le_pow_right (by norm_num) ?_))
  exact (List.length_take_le _ _).trans h

theorem ends_decryptLoop {s : State} (ls : List Byte) (stream : List Bool) (out : List Byte)
    (hwk : s.wkValid = true) (hw : s.werr = false) :
    Ends (decryptLoop ls stream out) s (decryptAnswer
      ((decryptBlocks Config.actual s.wk stream ls).map (out ++ ·))) := by
  induction ls generalizing s stream out with
  | nil =>
    rw [decryptBlocks, Option.map_some, List.append_nil]
    exact Ends.lastStep hw
  | cons l ls ih =>
    rw [decryptLoop, decryptBlocks]
    split
    · exact Ends.lastStep hw
    · next hl =>
      have hct := toNat_ofNat_bitsValue_take (stream := stream) (Nat.not_lt.1 hl)
      refine Ends.wrWords_ct _ ?_
      cases hd : decryptValue s.wk (bitsValue (stream.take l.toNat)) with
      | none =>
        rw [← hct] at hd
        exact Ends.checkedRun_error rfl hw (decBlock_decryptionFailure hwk hd) rfl
      | some r =>
        have hr := decryptValue_lt hd
        have hblk : (BitVec.ofNat 32 r).toNat = r := Nat.mod_eq_of_lt hr
        have hlen : ((BitVec.ofNat 3 (minbytesLen r)).setWidth 32).toNat = minbytesLen r := by
          rw [BitVec.toNat_setWidth_of_le (by decide), toNat_ofNat_minbytesLen hr]
        rw [← hct] at hd
        refine Ends.checkedRun_ok rfl hw (decBlock_ok.2 ⟨hwk, r, hd, rfl⟩) ?_
        refine Ends.rd (v := BitVec.ofNat 32 r) (by decide) (by decide) (by decide) rfl ?_
        refine Ends.rd (v := (BitVec.ofNat 3 (minbytesLen r)).setWidth 32) (by decide) (by decide)
          (by decide) rfl ?_
        have hout : ((out ++ ·) ∘ (minbytes r ++ ·) : List Byte → List Byte) =
            ((out ++ minbytes r) ++ ·) := funext fun o => (List.append_assoc out _ o).symm
        rw [hblk, hlen, Option.bind_some, Option.map_map, hout]
        exact ih _ _ hwk hw

/-! ## The sequence (R180) -/

theorem ends_decryptSeq {s : State} (hwf : s.mem.wf = true) (hrk : s.rkValid = true)
    (hw : s.werr = false) (ct : List Byte) :
    Ends (decryptSeq ct) s (decryptAnswer (decryptBytes Config.actual s.rk ct)) := by
  rw [decryptSeq, decryptBytes]
  split
  · exact Ends.lastStep hw
  · dsimp only
    refine Ends.loadFooter _ hwf hrk hw (length_footerWindow_le _) fun u hu => ?_
    cases hundo : undo Config.actual (footerWindow (ct.take (ct.length - 16))) s.rk
        (ofBytes (takeLast 16 ct)) with
    | none => exact hu.ends_error hundo fun _ => rfl
    | some found =>
      obtain ⟨recs, nb⟩ := found
      refine hu.ends_records hundo fun t m ws n hrkEq hrkValid hwerr hrecs hn => ?_
      simp only [hrecs, hn, Option.bind_some]
      cases hbody : bodyStream (bodyOf (ct.take (ct.length - 16)) nb) recs with
      | none => exact Ends.lastStep hwerr
      | some stream =>
        refine Ends.checkedRun_ok rfl hwerr (keyInit_ok.2 ⟨hrkValid, rfl⟩) ?_
        have hloop := ends_decryptLoop (s := { t with wk := t.rk, wkValid := true }) recs stream []
          rfl hwerr
        rw [Option.bind_some, ← hrkEq]
        simpa only [List.nil_append, Option.map_id'] using hloop

theorem decrypt_error {c : Config} {rk : Bytes16} {ct : List Byte} {e : HostError}
    (h : decrypt c rk ct = .error e) : e = .decryptionFailure := by
  unfold decrypt at h
  split at h
  · cases h
  · exact (Except.error.inj h).symm

/-- Settles O60: the sequence runs the search, the reading back and the block loop of `decrypt`. -/
theorem decryptSequenceAgrees : Obligations.DecryptSequenceAgrees := by
  refine ⟨fun c rk ct e => decrypt_error, fun s ct hinv hidle _ hrk hw => ?_⟩
  obtain ⟨t, ht, hend⟩ := (ends_decryptSeq hinv.memCanonical hrk hw ct).run hidle
  refine ⟨t, ht.trans ?_, hend⟩
  rw [decrypt]
  cases decryptBytes Config.actual s.rk ct <;> rfl

end Sys2Proof.Machine

/-! PROOFS. Precise failure: a completing step that ends with a nonzero code writes nothing but STATUS
and the command latch (R203). -/

namespace Sys2Proof.Machine

/-- Settles O12: a command that succeeds completes with code 0, so the step is the completion of a
failing command or of an illegal word. -/
theorem failingCommandIsPrecise : Obligations.FailingCommandIsPrecise := by
  intro s t w hbusy hleft hpend h hcode
  have hc := completing_eq_some.2 ⟨hbusy, hleft, hpend⟩
  rcases step_completing hc h with ⟨i, u, -, -, rfl⟩ | ⟨code, hne, rfl⟩
  · exact absurd rfl hcode
  · exact complete_error hne s

end Sys2Proof.Machine

/-! PROOFS. Liveness: the command in flight completes when its latency counter runs out (R244). -/

namespace Sys2Proof.Machine

/-- While cycles are left a step counts one of them down and keeps the command in flight, with a bus
event waiting and without. -/
theorem step_in_flight {s : State} (hbusy : s.busy = true) (hleft : 1 < s.cyclesLeft)
    (hbus : ∀ e ∈ s.bus, e.inWindow = true ∧ e.noReset = true) :
    ∃ t, step s = .next t ∧ t.busy = true ∧ t.pend = s.pend ∧ t.cyclesLeft = s.cyclesLeft - 1 := by
  obtain ⟨hevent, hempty⟩ := operandsAreHeldWhileBusy
  cases hb : s.bus with
  | nil => exact ⟨_, (hempty s fun h => Nat.not_le.2 hleft h.2).1 hb, hbusy, rfl, rfl⟩
  | cons e rest =>
    obtain ⟨hwin, hno⟩ := hbus e (by simp [hb])
    obtain ⟨t, hstep, ht⟩ := hevent s e rest hbusy hleft hb hwin hno
    refine ⟨t, hstep, ?_, ?_, ?_⟩ <;> rw [ht]
    exact hbusy

/-- At its last cycle the command in flight completes, whether it succeeds, fails or is illegal. -/
theorem step_at_last_cycle {s : State} {w : Word} (hbusy : s.busy = true) (hpend : s.pend = some w)
    (hleft : s.cyclesLeft ≤ 1) (hwin : BusSafe s) :
    ∃ t, step s = .next t ∧ t.busy = false ∧ t.done = true ∧ t.pend = none := by
  obtain ⟨t, ht⟩ := step_of_busSafe hwin
  obtain ⟨hdone, hidle, hnone, -⟩ := completionWritesStatus s t w hbusy hleft hpend ht
  exact ⟨t, ht, hidle, hdone, hnone⟩

/-- The command in flight completes in as many steps as it has cycles left. -/
theorem run_in_flight {n : Nat} {s : State} {w : Word} (hbusy : s.busy = true)
    (hpend : s.pend = some w) (hleft : s.cyclesLeft = n + 1)
    (hbus : ∀ e ∈ s.bus, e.inWindow = true ∧ e.noReset = true) :
    ∃ t : State, Sys2Proof.core.run (n + 1) s = .next t ∧ t.busy = false ∧ t.done = true ∧
      t.pend = none := by
  induction n generalizing s with
  | zero =>
    obtain ⟨t, ht, hend⟩ := step_at_last_cycle hbusy hpend hleft.le fun e he => (hbus e he).1
    exact ⟨t, run_succ.2 ⟨t, ht, run_zero.2 rfl⟩, hend⟩
  | succ n ih =>
    obtain ⟨u, hu, hubusy, hupend, huleft⟩ := step_in_flight hbusy (by omega) hbus
    obtain ⟨t, ht, hend⟩ := ih hubusy (hupend.trans hpend) (by omega)
      fun e he => hbus e (step_bus_subset hu he)
    exact ⟨t, run_succ.2 ⟨u, hu, ht⟩, hend⟩

/-- Settles O10: by `Inv` a busy block holds a command word and has a cycle left, and the command in
flight completes when the counter runs out. -/
theorem acceptedCommandCompletes : Obligations.AcceptedCommandCompletes := by
  intro s hinv hbusy hbus
  obtain ⟨w, hw⟩ := Option.isSome_iff_exists.1 (hinv.pendBusy.trans hbusy)
  obtain ⟨n, hn⟩ := Nat.exists_eq_add_of_le' (hinv.counterBusy.2 hbusy)
  rw [hn]
  exact run_in_flight hbusy hw hn hbus

end Sys2Proof.Machine
